-- ==== Sys2Proof/Word.lean ====
section
/-! DEFINITION. The word types of the block (widths of spec/10_state.md rules R10, R16, R21). -/

namespace Sys2Proof

/-- One byte: a bus byte, a sensor register, a status code. -/
abbrev Byte := BitVec 8

/-- The 16-bit pattern of one calibration coefficient (rule R10, `CAL_W`). -/
abbrev Half := BitVec 16

/-- A 20-bit raw sample (rule R5, `ADC_W`). -/
abbrev Sample := BitVec 20

/-- A 32-bit word: frame, result, working variable of `COMP_T`. -/
abbrev Word := BitVec 32

/-- A 64-bit working variable of `COMP_P` (rule R21). -/
abbrev DWord := BitVec 64

/-- The 34-bit command word, format `CW` (rule R50). -/
abbrev CmdWord := BitVec 34

/-- A register address as it stands in the header byte: bits 6:0 (rule R51). -/
abbrev RegAddr := BitVec 7

end Sys2Proof
end

