-- ==== Sys2Proof/Config.lean ====
section
/-! DEFINITION. The parameters of spec/00_scope.md rules R5 and R6, and the free values. -/

namespace Sys2Proof

/-- `FLT` (rules R6, R106, U14): the one format the spec gives laws for. -/
inductive Flt where
  /-- IEEE 754 binary32, round to nearest, ties to even. -/
  | binary32
  deriving DecidableEq, Repr

/-- `PRESS_VARIANT` (rules R6, R95, R97; conflict C1). -/
inductive PressVariant where
  /-- 64-bit intermediates, unsigned 24.8 result (rule R95): the variant this hardware has. -/
  | q24_8_int64
  /-- 32-bit intermediates, whole Pascals (rule R97): recorded, not selected. -/
  | pa_int32
  deriving DecidableEq, Repr

/-- `CAL_BYTE_ORDER` (rule R6): which byte of a calibration pair lies at the lower address. -/
inductive CalByteOrder where
  | lowByteFirst
  | highByteFirst
  deriving DecidableEq, Repr

/-- `ADC_BYTE_ORDER` (rule R6): the one layout the spec gives (rule R54). -/
inductive AdcByteOrder where
  /-- Most significant byte first, low nibble of the third byte unused. -/
  | msbFirst
  deriving DecidableEq, Repr

/-- The parameters the source leaves open (rule R6), each a named field. DESIGN CHOICE, log entry 7: they
stand in the state. -/
structure Params where
  /-- `CHIP_ID_REG` -/
  chipIdReg : Byte
  /-- `CHIP_ID_EXPECT` -/
  chipIdExpect : Byte
  /-- `CALIB_BASE` -/
  calibBase : Byte
  /-- `CTRL_MEAS_REG` -/
  ctrlMeasReg : Byte
  /-- `CONFIG_REG` -/
  configReg : Byte
  /-- `DATA_BASE` -/
  dataBase : Byte
  /-- `CONFIG_VALUE` -/
  configValue : Byte
  /-- `CTRL_IDLE_VALUE` -/
  ctrlIdleValue : Byte
  /-- `CTRL_FORCED_VALUE` -/
  ctrlForcedValue : Byte
  /-- `STATUS_OK` -/
  statusOk : Byte
  /-- `STATUS_FAIL` (U15: the source fixes only that it is not zero) -/
  statusFail : Byte
  /-- `T_MEAS` (U10: open; no rule depends on it) -/
  tMeas : Nat
  /-- `CMD_BEGIN` -/
  cmdBegin : BitVec 2
  /-- `CMD_FREAD` -/
  cmdFread : BitVec 2
  /-- `CMD_CDEC` -/
  cmdCdec : BitVec 2
  /-- `FLT` -/
  flt : Flt
  /-- `PRESS_VARIANT` -/
  pressVariant : PressVariant
  /-- `CAL_SIGNED`: for each coefficient, whether it is read as two's complement (rule R10) -/
  calSigned : Vector Bool 12
  /-- `CAL_BYTE_ORDER` -/
  calByteOrder : CalByteOrder
  /-- `ADC_BYTE_ORDER` -/
  adcByteOrder : AdcByteOrder
  deriving DecidableEq, Repr

/-- `T_MEAS` is OPEN in rule R6 (decision D11): a free value, which no rule reads.
DESIGN CHOICE, log entry 7. -/
opaque Config.tMeasOpen : Nat

/-- `draw(W)` of rule R8: a free value of `w` bits; the argument `n` numbers the draws, so that two
draws of one run are two values. Nothing constrains it. DESIGN CHOICE, log entry 5. -/
opaque Config.draw (w n : Nat) : BitVec w

/-- What a register of the reference sensor holds where the spec gives no content (DESIGN CHOICE, log entry 6):
a free value for each address, constant for one sensor. -/
opaque Config.sensorByte (a : Nat) : Byte

/-- How many bus events after its next one a conversion of the reference sensor lasts, where it is not
scripted: a free value, numbered like a draw. Nothing bounds it. DESIGN CHOICE, log entry 14. -/
opaque Config.drawCount (n : Nat) : Nat

/-- `SENTINEL`, `DUMMY` (rule R5). -/
def Config.sentinel : Word := 0xFFFFFFFF#32
def Config.dummy : Byte := 0x00#8

/-- `SPI_MODE` (rule R5). The spec gives the mode 0 and no width: that a transport mode has two bits is a
DESIGN CHOICE, log entry 15. -/
def Config.spiMode : BitVec 2 := 0

/-- `dig_T1` and `dig_P1` (indexes 0 and 3) unsigned, the other ten signed (rule R10). -/
def Config.calSigned : Vector Bool 12 :=
  #v[false, true, true, false, true, true, true, true, true, true, true, true]

/-- The defaults of rule R6. -/
def Params.default : Params where
  chipIdReg := 0xD0#8
  chipIdExpect := 0x58#8
  calibBase := 0x88#8
  ctrlMeasReg := 0xF4#8
  configReg := 0xF5#8
  dataBase := 0xF7#8
  configValue := 0x00#8
  ctrlIdleValue := 0x24#8
  ctrlForcedValue := 0x25#8
  statusOk := 0x00#8
  statusFail := 0x01#8
  tMeas := Config.tMeasOpen
  cmdBegin := 0#2
  cmdFread := 1#2
  cmdCdec := 2#2
  flt := .binary32
  pressVariant := .q24_8_int64
  calSigned := Config.calSigned
  calByteOrder := .lowByteFirst
  adcByteOrder := .msbFirst

/-- The three commands have three codes (rule R50). -/
def Params.codesDiffer (c : Params) : Bool :=
  c.cmdBegin != c.cmdFread && c.cmdBegin != c.cmdCdec && c.cmdFread != c.cmdCdec

/-- The code no command has (rules R50, R58): of three different codes of two bits, the exclusive or is
the fourth. At the defaults it is 3. DEDUCED, log entry 7. -/
def Params.cmdReserved (c : Params) : BitVec 2 := c.cmdBegin ^^^ c.cmdFread ^^^ c.cmdCdec

/-- What the source fixes of the parameters: success is zero, failure is not (rule R115), and the
commands have different codes (rule R50). -/
def Params.legal (c : Params) : Bool :=
  c.statusOk == 0#8 && c.statusFail != 0#8 && c.codesDiffer

end Sys2Proof
end

