-- ==== Sys2Proof/Syntax.lean ====
section
/-! DEFINITION. The instructions: one constructor per row of spec/opcode_table.json
(spec/30_encoding.md rule R57). Every bit of a row's encoding that the row does not fix is an
operand, the ignored bits among them (rules R50, R59), so that no bit is lost by decoding. -/

namespace Sys2Proof

/-- The rows of the opcode map. `BEGIN`, `FREAD`, `CDEC.*` and `RESERVED.OP3` are command words the
host presents; `RREG` and `WREG` are bus transactions the block issues in a step of `BEGIN` or
`FREAD` (rules R57, R62). -/
inductive Instr where
  /-- `BEGIN` (rule R80): the frame field is ignored. -/
  | begin (frame : Word)
  /-- `FREAD` (rule R81): the frame field is ignored. -/
  | fread (frame : Word)
  /-- `CDEC.NODATA` (rule R105 step 1): the frame is the sentinel. -/
  | cdecNodata
  /-- `CDEC.MM` (rule R105 step 3): `hi` is frame bits 31:24, `mid` bits 22:21 (both unexamined),
  `sign` bit 20, `mag` bits 19:0. -/
  | cdecMm (hi : BitVec 8) (mid : BitVec 2) (sign : Bool) (mag : BitVec 20)
  /-- `CDEC.IN` (rule R105 step 4, half bit clear): `count` is frame bits 19:1. -/
  | cdecIn (hi : BitVec 8) (mid : BitVec 2) (sign : Bool) (count : BitVec 19)
  /-- `CDEC.INH` (rule R105 step 4, half bit set): `count` is frame bits 19:1. -/
  | cdecInh (hi : BitVec 8) (mid : BitVec 2) (sign : Bool) (count : BitVec 19)
  /-- `RESERVED.OP3` (rule R58): command code 3. -/
  | reservedOp3 (frame : Word)
  /-- `RREG` (rule R70): read `n` registers from `ra` on. -/
  | rreg (ra : RegAddr) (n : Nat)
  /-- `WREG` (rule R71): write the byte `v` to register `ra`. -/
  | wreg (ra : RegAddr) (v : Byte)
  deriving DecidableEq, Repr

end Sys2Proof
end

