-- ==== Sys2Proof/WellFormed.lean ====
section
/-! DEFINITION. Which terms of `Instr` have an encoding (spec/30_encoding.md). -/

namespace Sys2Proof

/-- The two checks: a `CDEC.INH` term is not the sentinel frame (rule R57: the row excludes
`0xFFFFFFFF`), and a read asks for at least one byte (rule R52: `RD(n)` for `n >= 1`). -/
def Instr.wf : Instr → Bool
  | .begin _ => true
  | .fread _ => true
  | .cdecNodata => true
  | .cdecMm _ _ _ _ => true
  | .cdecIn _ _ _ _ => true
  | .cdecInh hi mid sign count =>
    !(hi == 0xFF#8 && mid == 3#2 && sign && count == 0x7FFFF#19)
  | .reservedOp3 _ => true
  | .rreg _ n => decide (1 ≤ n)
  | .wreg _ _ => true

end Sys2Proof
end

