-- ==== Sys2Proof/Decode.lean ====
section
/-! DEFINITION. The decoder and, after it, the encoder (spec/30_encoding.md rules R50 to R61).
Two formats select behaviour: the 34-bit command word and the byte string of a bus transaction. The
command codes are parameters (rule R6). -/

namespace Sys2Proof

/-- What is decoded: a command word (format `CW`), or the bytes the block sends in one transaction
(formats `RD(n)` and `WR`, rule R52). -/
inductive Code where
  | cw (w : CmdWord)
  | bus (sent : List Byte)
  deriving DecidableEq, Repr

/-- Why a byte string is no transaction of the spec. Every command word decodes. -/
inductive DecodeError where
  /-- No header byte. -/
  | noHeader
  /-- A header alone: every transaction has at least one data byte (rule R31). -/
  | noData
  /-- A read sends only `DUMMY` bytes after its header (rule R32). -/
  | notDummy
  /-- A write of more than one byte has no meaning in the spec (U11). -/
  | multiByteWrite
  deriving DecidableEq, Repr

/-- The rows of `CDEC` (op = 2), the sentinel tested first (rule R57). -/
def decodeFrame (f : Word) : Instr :=
  if f = Config.sentinel then .cdecNodata
  else if f.getLsbD 23 = false then
    .cdecMm (f.extractLsb' 24 8) (f.extractLsb' 21 2) (f.getLsbD 20) (f.extractLsb' 0 20)
  else if f.getLsbD 0 = false then
    .cdecIn (f.extractLsb' 24 8) (f.extractLsb' 21 2) (f.getLsbD 20) (f.extractLsb' 1 19)
  else
    .cdecInh (f.extractLsb' 24 8) (f.extractLsb' 21 2) (f.getLsbD 20) (f.extractLsb' 1 19)

/-- Format `CW` (rule R50): `op` in bits 33:32, `frame` in bits 31:0. A code no command has is the
reserved one (rule R58). -/
def decodeCommand (c : Params) (w : CmdWord) : Instr :=
  let op := w.extractLsb' 32 2
  let frame := w.extractLsb' 0 32
  if op = c.cmdBegin then .begin frame
  else if op = c.cmdFread then .fread frame
  else if op = c.cmdCdec then decodeFrame frame
  else .reservedOp3 frame

/-- Formats `RD(n)` and `WR` (rules R51, R52): bit 7 of the header is the read flag. -/
def decodeBus : List Byte → Except DecodeError Instr
  | [] => .error .noHeader
  | [_] => .error .noData
  | h :: d :: ds =>
    if h.getLsbD 7 then
      if (d :: ds).all (· == Config.dummy) then .ok (.rreg (h.extractLsb' 0 7) (ds.length + 1))
      else .error .notDummy
    else
      match ds with
      | [] => .ok (.wreg (h.extractLsb' 0 7) d)
      | _ :: _ => .error .multiByteWrite

/-- The decoder, total on every command word and every byte string. -/
def decode (c : Params) : Code → Except DecodeError Instr
  | .cw w => .ok (decodeCommand c w)
  | .bus bs => decodeBus bs

/-- The header byte `HDR` (rule R51). -/
def header (rd : Bool) (ra : RegAddr) : Byte := BitVec.ofBool rd ++ ra

/-- The register address a listed 8-bit address selects: its bits 6:0 (rule R31). -/
def regOf (a : Byte) : RegAddr := a.extractLsb' 0 7

/-- The registers the address parameters place (rules R6, R18, R31): `id`, `calib00`, `ctrl_meas`, `config`
and `press_msb`. -/
def Params.idAddr (c : Params) : Nat := (regOf c.chipIdReg).toNat
def Params.calibAddr (c : Params) : Nat := (regOf c.calibBase).toNat
def Params.ctrlMeasAddr (c : Params) : Nat := (regOf c.ctrlMeasReg).toNat
def Params.configAddr (c : Params) : Nat := (regOf c.configReg).toNat
def Params.dataAddr (c : Params) : Nat := (regOf c.dataBase).toNat

/-- `RD(n)`: the header with the read flag, then `n` dummy bytes (rule R52). -/
def readBytes (ra : RegAddr) (n : Nat) : List Byte :=
  header true ra :: List.replicate n Config.dummy

/-- `WR`: the header without the read flag, then the value byte (rule R52). -/
def writeBytes (ra : RegAddr) (v : Byte) : List Byte := [header false ra, v]

/-- The frame of a `CDEC` row (rule R55): bits 31:24, unit, 22:21, sign, 19:0. -/
def frameOf (hi : BitVec 8) (unit : Bool) (mid : BitVec 2) (sign : Bool) (mag : BitVec 20) : Word :=
  hi ++ (BitVec.ofBool unit ++ (mid ++ (BitVec.ofBool sign ++ mag)))

/-- A command word of `op` and `frame` (rule R50). -/
def cmdWord (op : BitVec 2) (frame : Word) : CmdWord := op ++ frame

/-- The encoder. -/
def encode (c : Params) : Instr → Code
  | .begin frame => .cw (cmdWord c.cmdBegin frame)
  | .fread frame => .cw (cmdWord c.cmdFread frame)
  | .cdecNodata => .cw (cmdWord c.cmdCdec Config.sentinel)
  | .cdecMm hi mid sign mag => .cw (cmdWord c.cmdCdec (frameOf hi false mid sign mag))
  | .cdecIn hi mid sign count =>
    .cw (cmdWord c.cmdCdec (frameOf hi true mid sign (count ++ 0#1)))
  | .cdecInh hi mid sign count =>
    .cw (cmdWord c.cmdCdec (frameOf hi true mid sign (count ++ 1#1)))
  | .reservedOp3 frame => .cw (cmdWord c.cmdReserved frame)
  | .rreg ra n => .bus (readBytes ra n)
  | .wreg ra v => .bus (writeBytes ra v)

/-- The code an instruction of the opcode table stands for, its bits `w` numbered as the table
numbers them: a row of 8 bits is a header byte (`HDR`), whose operand byte above the row's bits is
zero; any wider row is a 34-bit command word. A number with a bit above the row's own is no code. -/
def tableCode (nbits w : Nat) : Option Code :=
  if nbits ≤ 8 then
    if w < 2 ^ 8 then some (.bus [BitVec.ofNat 8 w, 0#8]) else none
  else if w < 2 ^ 34 then some (.cw (BitVec.ofNat 34 w))
  else none

/-- The instruction this decoder reads from a row's bits, at the default parameters: the command codes of
the opcode table. -/
def decodeTableWord (nbits w : Nat) : Option Instr :=
  match tableCode nbits w with
  | none => none
  | some c =>
    match decode Params.default c with
    | .ok i => some i
    | .error _ => none

end Sys2Proof
end

