-- ==== Sys2Proof/Machine/State.lean ====
section
/-! DEFINITION. The state of the block, of what it is connected to, and of the host that drives it
(spec/10_state.md), as plain data; the reasons a step can stop; the state after reset (rule R22). -/

namespace Sys2Proof.Machine

/-- The sequencer step, the analogue of a program counter (rule R13). -/
inductive Seq where
  | idle
  | b0 | b1 | b2 | b3 | b4 | b5 | b6
  | f0 | f1 | f2 | f3 | f4 | f5 | f6
  deriving DecidableEq, Repr

/-- The level of the select line (rule R17): `low` = 0 = asserted, `high` = 1 = deasserted. -/
inductive Level where
  | low
  | high
  deriving DecidableEq, Repr

/-- The five kinds of event, the whole of what the outside observes of unit B besides its results
(rule R30). -/
inductive Event where
  /-- `SetMode(m)`. Only `m = 0` is ever issued; that a mode has two bits is a DESIGN CHOICE, log entry
  15. -/
  | setMode (m : BitVec 2)
  /-- `Select` -/
  | select
  /-- `Xfer(o) -> i` -/
  | xfer (sent received : Byte)
  /-- `Deselect` -/
  | deselect
  /-- `Delay` -/
  | delay
  deriving DecidableEq, Repr

/-- One bus event still to come of the transaction in hand (rules R70, R71). `keep` says whether the
received byte is a data byte of a read or is discarded (rule R32). -/
inductive BusOp where
  | select
  | xfer (sent : Byte) (keep : Bool)
  | deselect
  deriving DecidableEq, Repr

/-- The working variables of `COMP_T` (rules R21, R92). -/
structure TempVars where
  a : Word
  m1 : Word
  var1 : Word
  d : Word
  sq : Word
  m2 : Word
  var2 : Word
  deriving DecidableEq, Repr

/-- The working variables of `COMP_P` (rules R21, R95). -/
structure PressVars where
  v1 : DWord
  v2 : DWord
  p : DWord
  w1 : DWord
  w2 : DWord
  deriving DecidableEq, Repr

/-- The sensor's registers that hold something else than `Memory.unlisted` says, keyed by the 7-bit
register address, addresses strictly rising. -/
abbrev Memory := List Host.Cell

/-- Where the reference sensor stands in a transaction (rules R31, R33). -/
inductive SensorPhase where
  /-- not selected -/
  | off
  /-- selected, no header byte yet -/
  | selected
  /-- a read: the register the next data byte comes from -/
  | reading (next : Nat)
  /-- a write to register `a`, no value byte yet -/
  | addressed (a : RegAddr)
  /-- a write to register `a` of the byte `v` -/
  | written (a : RegAddr) (v : Byte)
  deriving DecidableEq, Repr

/-- A conversion in progress: the samples the data registers hold when it ends, fixed when it starts, and
how many bus events after the next one it lasts. DESIGN CHOICE, log entry 14. -/
structure Conversion where
  left : Nat
  press : Sample
  temp : Sample
  deriving DecidableEq, Repr

/-- The sensor, an agent of its own (rules R18, R33). PRESUMED, log entry 4. -/
structure Sensor where
  /-- whether the reference sensor answers on the bus; when it does not, the transport is the
  unconstrained oracle of rule R33 -/
  present : Bool
  /-- its registers -/
  regs : Memory
  /-- the samples `(adc_P, adc_T)` of its coming conversions; when the list is empty a sample is a
  free value -/
  samples : List (Sample × Sample)
  /-- how many bus events after its next one each coming conversion lasts (rule R141); when the list is
  empty the number is a free value -/
  lasts : List Nat
  phase : SensorPhase
  /-- the conversions triggered that have not ended, oldest first -/
  conversions : List Conversion
  deriving DecidableEq, Repr

/-- What the host does (rule R146). DESIGN CHOICE, log entry 1. -/
inductive HostAct where
  /-- the source's blocking host: it presents `w` when the block is at `IDLE`, waiting until then
  (rules R139, R147) -/
  | call (w : CmdWord)
  /-- it presents `w` at this moment, whatever the block is doing (rules R84, U7) -/
  | present (w : CmdWord)
  /-- it does nothing while the block moves once -/
  | tick
  /-- it asserts the reset input (rule R135) -/
  | reset
  deriving DecidableEq, Repr

/-- What the history records: how a command completed (rule R85), and resets. -/
inductive Done where
  | beginOk
  | beginFail
  | fread
  | cdec
  | reset
  deriving DecidableEq, Repr

/-- The state. The fields from `cfg`, `stage`, `pending`, `rx`, `hung`, and from `miso` on are the
model's own (INVENTORY.md, heading State; DESIGN CHOICE, log entries 1, 2, 3, 7, 8 and 9); the others are
the spec's. -/
structure State where
  /-- the parameters of rule R6, which no step changes -/
  cfg : Params
  /-- the sequencer step (rule R13) -/
  seq : Seq
  /-- the calibration file, as bit patterns (rule R10) -/
  cal : Vector Half 12
  /-- the select line (rule R17) -/
  sel : Level
  /-- `STATUS_OUT` (rule R16) -/
  statusOut : Byte
  /-- `T_OUT`, signed (rule R16) -/
  tOut : Word
  /-- `P_OUT`, unsigned (rule R16) -/
  pOut : Word
  /-- `VAL_OUT`, in the format `FLT` (rule R16) -/
  valOut : Word
  /-- `DP_OUT` (rule R16) -/
  dpOut : BitVec 3
  /-- `id_byte` (rule R21) -/
  idByte : Byte
  /-- `cbuf[0..23]` (rule R21) -/
  cbuf : Vector Byte 24
  /-- `dbuf[0..5]` (rule R21) -/
  dbuf : Vector Byte 6
  /-- `adc_P` (rule R21) -/
  adcP : Sample
  /-- `adc_T` (rule R21) -/
  adcT : Sample
  /-- `t_fine`, signed (rule R21) -/
  tFine : Word
  /-- the working variables of `COMP_T` (rule R21) -/
  tempVars : TempVars
  /-- the working variables of `COMP_P` (rule R21) -/
  pressVars : PressVars
  /-- the `T` of step F4, until step F6 (rule R81) -/
  tRes : Word
  /-- the `P` of step F5, until step F6 (rule R81) -/
  pRes : Word
  /-- the transport mode (rules R22, R72). Its width is a DESIGN CHOICE, log entry 15. -/
  spiMode : BitVec 2
  /-- the bytes of the transaction the step in hand is about to put on the bus (rule R52) -/
  stage : List Byte
  /-- the events still to come of the transaction in hand (rules R70, R71) -/
  pending : List BusOp
  /-- the data bytes `b[0], b[1], ...` received by the last read (rule R70) -/
  rx : List Byte
  /-- a capability call has not returned and never will (rule R85, U5) -/
  hung : Bool
  /-- the bytes the transport is going to return, oldest first; when the list is empty the reference
  sensor answers if it is present, and else the byte is a free value (rule R33, U4) -/
  miso : List Byte
  /-- each entry: how many capability calls return before one that does not (U5) -/
  hangs : List Nat
  /-- the sensor (rules R18, R33) -/
  sensor : Sensor
  /-- the acts of the host still to come, oldest first (rules R146, R147) -/
  host : List HostAct
  /-- the bus events issued so far, oldest first (rules R30, R147) -/
  trace : List Event
  /-- commands completed and resets, newest first (rules R12, R85, U3) -/
  history : List Done
  /-- how many free values have been drawn (rule R8) -/
  draws : Nat
  deriving DecidableEq, Repr

/-- No step of this machine faults: the block has no trap (rule R121), its one failure is a status
code (rule R115), and everything else "a model raises nothing for" (rule R116). DEDUCED, log entry 12. -/
inductive Fault where
  deriving DecidableEq, Repr

/-- Why a step gives no meaning. -/
inductive Refusal where
  /-- `exec`'s arm of an instruction that has no meaning yet, and nothing else, raises it; safe: the
  model stops. No arm does now. -/
  | notModelled (mnemonic : String)
  /-- `step` raises it when the staged bytes are no transaction of the spec (U11: a write of several
  bytes; a header alone; a read whose data bytes are not `DUMMY`); safe: the model stops. The
  sequencer stages no such bytes (rule R36). DESIGN CHOICE, log entry 8. -/
  | undecodable (e : DecodeError)
  deriving DecidableEq, Repr

/-- What the next step does, as `fetch` finds it: it runs a decoded instruction in a state, or the
machine moves by itself to a state. -/
inductive Fetch where
  | run (c : Code) (s : State)
  | own (s : State)
  deriving DecidableEq, Repr

/-- How many free values one reset draws. -/
def resetDraws : Nat := 66

/-- The state rule R22 gives for reset, its unspecified registers holding the draws from number `n`
on; with nothing in the model's own fields, the oracle as the environment and no host act. DESIGN CHOICE,
log entry 5. -/
def State.blank (cfg : Params) (n : Nat) : State where
  cfg := cfg
  seq := .idle
  cal := Vector.ofFn fun i : Fin 12 => Config.draw 16 (n + i)
  sel := .high
  statusOut := Config.draw 8 (n + 12)
  tOut := Config.draw 32 (n + 13)
  pOut := Config.draw 32 (n + 14)
  valOut := Config.draw 32 (n + 15)
  dpOut := Config.draw 3 (n + 16)
  idByte := Config.draw 8 (n + 17)
  cbuf := Vector.ofFn fun i : Fin 24 => Config.draw 8 (n + 18 + i)
  dbuf := Vector.ofFn fun i : Fin 6 => Config.draw 8 (n + 42 + i)
  adcP := Config.draw 20 (n + 48)
  adcT := Config.draw 20 (n + 49)
  tFine := Config.draw 32 (n + 50)
  tempVars :=
    { a := Config.draw 32 (n + 51), m1 := Config.draw 32 (n + 52), var1 := Config.draw 32 (n + 53),
      d := Config.draw 32 (n + 54), sq := Config.draw 32 (n + 55), m2 := Config.draw 32 (n + 56),
      var2 := Config.draw 32 (n + 57) }
  pressVars :=
    { v1 := Config.draw 64 (n + 58), v2 := Config.draw 64 (n + 59), p := Config.draw 64 (n + 60),
      w1 := Config.draw 64 (n + 61), w2 := Config.draw 64 (n + 62) }
  tRes := Config.draw 32 (n + 63)
  pRes := Config.draw 32 (n + 64)
  spiMode := Config.draw 2 (n + 65)
  stage := []
  pending := []
  rx := []
  hung := false
  miso := []
  hangs := []
  sensor :=
    { present := false, regs := [], samples := [], lasts := [], phase := .off, conversions := [] }
  host := []
  trace := []
  history := []
  draws := n + resetDraws

/-- The machine right after power-on reset (rule R22). -/
def State.reset : State := State.blank Params.default 0

/-- `busy` (rule R14): not separate state. -/
def State.busy (s : State) : Bool := s.seq != .idle

end Sys2Proof.Machine
end

