-- ==== Sys2Proof/Machine/Operands.lean ====
section
/-! DEFINITION. How operands are assembled from bytes and fields (spec/30_encoding.md rule R56). -/

namespace Sys2Proof.Machine

/-- A 16-bit pattern of two bytes, the first of which lies at the lower address (rule R53). -/
def pairHalf (o : CalByteOrder) (first second : Byte) : Half :=
  match o with
  | .lowByteFirst => second ++ first
  | .highByteFirst => first ++ second

/-- `UNPACK_CAL(c, i)` (rule R82): the pattern of coefficient `i`. -/
def unpackCal (o : CalByteOrder) (buf : Vector Byte 24) (i : Fin 12) : Half :=
  pairHalf o buf[2 * i.val] buf[2 * i.val + 1]

/-- All twelve coefficients (rule R80 step B6). -/
def unpackAll (o : CalByteOrder) (buf : Vector Byte 24) : Vector Half 12 :=
  Vector.ofFn (unpackCal o buf)

/-- The integer a coefficient's pattern stands for under its signedness (rule R10). -/
def coefInt (signed : Bool) (p : Half) : Int :=
  if signed then p.toInt else p.toNat

/-- `cal[i]` as the pseudocode reads it (rules R8, R10). -/
def calInt (s : State) (i : Fin 12) : Int := coefInt s.cfg.calSigned[i] s.cal[i]

/-- One 20-bit sample of its three bytes: bits 19:12, 11:4 and, from the high nibble of the third
byte, 3:0 (rule R54). -/
def sampleOf (o : AdcByteOrder) (b0 b1 b2 : Byte) : Sample :=
  match o with
  | .msbFirst => b0 ++ (b1 ++ b2.extractLsb' 4 4)

/-- `UNPACK_ADC(d)` (rule R83): `(adc_P, adc_T)`. -/
def unpackAdc (o : AdcByteOrder) (d : Vector Byte 6) : Sample × Sample :=
  (sampleOf o d[0] d[1] d[2], sampleOf o d[3] d[4] d[5])

/-- A byte buffer after a read: position `k` holds the byte `b[k]` received; a position no byte was
received for keeps its content. DEDUCED, log entry 13. -/
def fillBuf {n : Nat} (buf : Vector Byte n) (rx : List Byte) : Vector Byte n :=
  buf.mapIdx fun k old => rx.getD k old

/-- The transaction a step puts on the bus when the sequencer moves to it (rules R36, R80, R81), as
the bytes sent; the other steps issue none. -/
def stageOf (c : Params) : Seq → List Byte
  | .b1 => readBytes (regOf c.chipIdReg) 1
  | .b3 => writeBytes (regOf c.configReg) c.configValue
  | .b4 => writeBytes (regOf c.ctrlMeasReg) c.ctrlIdleValue
  | .b5 => readBytes (regOf c.calibBase) 24
  | .f0 => writeBytes (regOf c.ctrlMeasReg) c.ctrlForcedValue
  | .f2 => readBytes (regOf c.dataBase) 6
  | .idle | .b0 | .b2 | .b6 | .f1 | .f3 | .f4 | .f5 | .f6 => []

/-- The bus events of `RREG ra, n` (rule R70). -/
def readOps (ra : RegAddr) (n : Nat) : List BusOp :=
  .select :: .xfer (header true ra) false ::
    (List.replicate n (.xfer Config.dummy true) ++ [.deselect])

/-- The bus events of `WREG ra, v` (rule R71). -/
def writeOps (ra : RegAddr) (v : Byte) : List BusOp :=
  [.select, .xfer (header false ra) false, .xfer v false, .deselect]

end Sys2Proof.Machine
end

