-- ==== Sys2Proof/Machine/Ops.lean ====
section
/-! DEFINITION. The named operations over the sensor's registers, the bus, the sequencer and the
result registers; the block's one failure, taken as one shared operation; reset. -/

namespace Sys2Proof.Machine

/-! ### The sensor register space (rules R18, R20, R33)

The addresses of `id`, `calib00 .. calib23`, `ctrl_meas`, `config` and the data registers are the parameters
`c` of rule R6; the two registers the block has no parameter for, `status` and `reset`, are at their listed
addresses. Addresses are bits 6:0 of the listed ones (rule R31). -/

/-- The registers the sensor keeps whatever is written: `calib00 .. calib23` and `id` (rule R18).
DEDUCED, log entry 4. -/
def readOnlyReg (c : Params) (a : Nat) : Bool :=
  (decide (c.calibAddr ≤ a) && decide (a ≤ c.calibAddr + 23)) || a == c.idAddr

/-- The six data registers. -/
def dataReg (c : Params) (a : Nat) : Bool := decide (c.dataAddr ≤ a) && decide (a ≤ c.dataAddr + 5)

/-- A register that an address parameter places (rule R18). -/
def placedReg (c : Params) (a : Nat) : Bool :=
  readOnlyReg c a || dataReg c a || a == c.ctrlMeasAddr || a == c.configAddr

/-- `status`, listed at `0xF3`, and `reset`, listed at `0xE0` (rule R18). A parameter that places another
register there takes their place. DESIGN CHOICE, log entry 4. -/
def statusReg (c : Params) (a : Nat) : Bool := a == 0x73 && !placedReg c a
def resetReg (c : Params) (a : Nat) : Bool := a == 0x60 && !placedReg c a

/-- The bits of `b` that register `a` has: bits 3:0 of `press_xlsb` and of `temp_xlsb` read as 0
(rule R18). -/
def regBits (c : Params) (a : Nat) (b : Byte) : Byte :=
  if a = c.dataAddr + 2 ∨ a = c.dataAddr + 5 then b &&& 0xF0#8 else b

/-- What a register that is not listed reads as: the content rule R18 gives a BMP280 after its
reset (`id`, `ctrl_meas`, `config`, the six data registers); for every other register a free
constant. DESIGN CHOICE, log entry 6; of registers the parameters place at one address, the one named first
in this definition, log entry 4. -/
def Memory.unlisted (c : Params) (a : Nat) : Byte :=
  regBits c a
    (if a = c.idAddr then 0x58#8
    else if a = c.ctrlMeasAddr ∨ a = c.configAddr then 0x00#8
    else if a = c.dataAddr ∨ a = c.dataAddr + 3 then 0x80#8
    else if dataReg c a then 0x00#8
    else Config.sensorByte a)

/-- What is listed for register `a`, or its content unlisted. -/
def Memory.lookup (m : Memory) (c : Params) (a : Nat) : Byte :=
  match m with
  | [] => Memory.unlisted c a
  | (k, b) :: rest => if k = a then b else Memory.lookup rest c a

/-- The content of register `a`, as the bus reads it. -/
def Memory.read (m : Memory) (c : Params) (a : Nat) : Byte := regBits c a (m.lookup c a)

/-- The list without an entry for `a`. -/
def Memory.erase (m : Memory) (a : Nat) : Memory := m.filter fun k => k.1 != a

/-- The list with the entry `(a, b)`, at its place. -/
def Memory.put (m : Memory) (a : Nat) (b : Byte) : Memory :=
  match m with
  | [] => [(a, b)]
  | (k, d) :: rest =>
    if a < k then (a, b) :: (k, d) :: rest
    else if a = k then (a, b) :: rest
    else (k, d) :: Memory.put rest a b

/-- A register that can be given another content: one of the 128 of rule R20 and none the sensor keeps. -/
def writableReg (c : Params) (a : Nat) : Bool := decide (a < 128) && !readOnlyReg c a

/-- Register `a` holds `b` from now on, as far as it has the bits; the canonical form is kept. No store and
no conversion changes a register the sensor keeps, or one it does not have. -/
def Memory.write (m : Memory) (c : Params) (a : Nat) (b : Byte) : Memory :=
  if writableReg c a then
    if regBits c a b = Memory.unlisted c a then m.erase a else m.put a (regBits c a b)
  else m

/-- The canonical form from address `lo` on: addresses rising and below 128, no bit that the register
does not have, no entry equal to what an unlisted register reads as. -/
def Memory.wfFrom (c : Params) (lo : Nat) (m : Memory) : Bool :=
  match m with
  | [] => true
  | (k, b) :: rest =>
    decide (lo ≤ k) && decide (k < 128) && (regBits c k b == b) && (b != Memory.unlisted c k) &&
      Memory.wfFrom c (k + 1) rest

/-- The canonical form. -/
def Memory.wf (m : Memory) (c : Params) : Bool := Memory.wfFrom c 0 m

/-! ### The reference sensor (rule R33; log entry 4) -/

/-- The modes that start one conversion: `01` and `10` (rules R18, R33). -/
def forcedMode (v : Byte) : Bool := v.extractLsb' 0 2 == 1#2 || v.extractLsb' 0 2 == 2#2

/-- The three data bytes of a sample, `xlsb[3:0]` zero (rule R18). -/
def sampleBytes (v : Sample) : Byte × Byte × Byte :=
  (v.extractLsb' 12 8, v.extractLsb' 4 8, v.extractLsb' 0 4 ++ 0#4)

/-- A channel whose oversampling code is `000` is skipped: its data registers read `0x80000`
(rule R18). -/
def sampleOrSkipped (osrs : BitVec 3) (v : Sample) : Sample := if osrs = 0#3 then 0x80000#20 else v

/-- Three data registers, from `a` on, hold a new sample (rule R33). -/
def Memory.writeSample (m : Memory) (c : Params) (a : Nat) (v : Sample) : Memory :=
  ((m.write c a (sampleBytes v).1).write c (a + 1) (sampleBytes v).2.1).write c (a + 2)
    (sampleBytes v).2.2

/-- The sample of the coming conversion: scripted, or free values numbered `n` and `n + 1`. -/
def Sensor.nextSample (x : Sensor) (n : Nat) : Sample × Sample :=
  x.samples.headD (Config.draw 20 n, Config.draw 20 (n + 1))

/-- One conversion starts, its oversampling codes those of the byte `ctrl` just stored in `ctrl_meas`
(rules R18, R33). A conversion in progress goes on beside it: each forced write starts one (rule R36).
DESIGN CHOICE, log entry 14. -/
def Sensor.startConversion (x : Sensor) (ctrl : Byte) (n : Nat) : Sensor :=
  { x with
    conversions := x.conversions ++
      [{ left := x.lasts.headD (Config.drawCount n)
         press := sampleOrSkipped (ctrl.extractLsb' 2 3) (x.nextSample n).1
         temp := sampleOrSkipped (ctrl.extractLsb' 5 3) (x.nextSample n).2 }]
    samples := x.samples.tail
    lasts := x.lasts.tail }

/-- A conversion ends: the data registers hold its sample and `mode` reads back `00` (rule R33). -/
def Memory.endConversion (c : Params) (m : Memory) (k : Conversion) : Memory :=
  ((m.writeSample c c.dataAddr k.press).writeSample c (c.dataAddr + 3) k.temp).write c c.ctrlMeasAddr
    (m.read c c.ctrlMeasAddr &&& 0xFC#8)

/-- An event goes by that leaves the sensor in phase `p`: each conversion has an event less to last, and
those that have none left end. In a transaction none does, so that a burst returns the bytes of one
conversion (rule R33). A write other than a forced one neither ends nor aborts a conversion. DESIGN CHOICE,
log entry 14. -/
def Sensor.pass (x : Sensor) (c : Params) (p : SensorPhase) : Sensor :=
  let ended := if p = .off then x.conversions.filter (fun k => k.left == 0) else []
  let rest := if p = .off then x.conversions.filter (fun k => k.left != 0) else x.conversions
  { x with
    regs := ended.foldl (Memory.endConversion c) x.regs
    phase := p
    conversions := rest.map fun k => { k with left := k.left - 1 } }

/-- The sensor's own reset, by `0xB6` in its `reset` register (rule R18): every register but the
constant ones at its reset content, no conversion. DEDUCED, log entry 4. -/
def Sensor.softReset (x : Sensor) (c : Params) : Sensor :=
  { x with regs := x.regs.filter fun k => readOnlyReg c k.1, conversions := [] }

/-- What a completed write transaction does in the sensor (rules R18, R33); `n` numbers the free values of
a conversion it starts. -/
def Sensor.store (x : Sensor) (c : Params) (a : RegAddr) (v : Byte) (n : Nat) : Sensor :=
  if readOnlyReg c a.toNat then x
  else if resetReg c a.toNat = true ∧ v = 0xB6#8 then x.softReset c
  else if a.toNat = c.ctrlMeasAddr ∧ forcedMode v then
    { x with regs := x.regs.write c a.toNat v }.startConversion v n
  else { x with regs := x.regs.write c a.toNat v }

/-- What `status` reads as: bit 3, `measuring`, says whether a conversion is in progress (rule R18; DEDUCED
from its name, log entry 4); of the other bits, `im_update` among them, the spec says no value, and they are
free in each read. -/
def Sensor.status (x : Sensor) (n : Nat) : Byte :=
  (Config.draw 8 n &&& 0xF7#8) ||| (if x.conversions = [] then 0x00#8 else 0x08#8)

/-- The byte the sensor returns in the next exchange, where the spec says what it is: in the data
phase of a read, the content of the register the phase has reached (rule R33), or `status`; `n` numbers its
free bits. Addresses past the register space have no content the spec gives: no answer, and the byte is then
free. -/
def Sensor.reply (x : Sensor) (c : Params) (n : Nat) : Option Byte :=
  match x.phase with
  | .reading a =>
    if statusReg c a then some (x.status n)
    else if a < 128 then some (x.regs.read c a)
    else none
  | _ => none

/-- Where the sensor stands after an event on the bus (rules R31, R33). -/
def SensorPhase.after (p : SensorPhase) (e : Event) : SensorPhase :=
  match e with
  | .setMode _ => p
  | .delay => p
  | .select => .selected
  | .deselect => .off
  | .xfer o _ =>
    match p with
    | .off => .off
    | .selected => if o.getLsbD 7 then .reading (regOf o).toNat else .addressed (regOf o)
    | .reading a => .reading (a + 1)
    | .addressed a => .written a o
    | .written a v => .written a v

/-- The sensor after an event on the bus (rules R31, R33): conversions go on, and the event that ends a
write stores its byte (rule R39). `n` numbers the free values of a conversion that starts at the event. -/
def Sensor.observe (x : Sensor) (c : Params) (e : Event) (n : Nat) : Sensor :=
  if x.present then
    match e, x.phase with
    | .deselect, .written a v => (x.pass c .off).store c a v n
    | _, _ => x.pass c (x.phase.after e)
  else x

/-- The sensor when a reset cuts a transaction short: what it makes of that is not specified (rule R135; U8:
any value). DESIGN CHOICE, log entry 4, in both cases: a write whose header has been sent stores a free byte
in the addressed register; a read, or a `Select` with no header yet, leaves every register as it is. In each
the conversions that are due end, as at any `Deselect` (log entry 14). -/
def Sensor.cutShort (x : Sensor) (c : Params) (n : Nat) : Sensor :=
  if x.present then
    match x.phase with
    | .addressed a => (x.pass c .off).store c a (Config.draw 8 n) (n + 1)
    | .written a _ => (x.pass c .off).store c a (Config.draw 8 n) (n + 1)
    | _ => x.pass c .off
  else x

/-! ### Bus events (rules R17, R30) -/

/-- The select line after an event: `Select` drives it low, `Deselect` high (rule R30). -/
def Event.level (e : Event) (l : Level) : Level :=
  match e with
  | .select => .low
  | .deselect => .high
  | _ => l

/-- The transport mode after an event (rule R72). -/
def Event.mode (e : Event) (m : BitVec 2) : BitVec 2 :=
  match e with
  | .setMode m' => m'
  | _ => m

/-- The event `e` happens: it is observed, it drives the select line and the transport mode, and the
sensor sees it. -/
def State.emit (s : State) (e : Event) : State :=
  { s with
    trace := s.trace ++ [e]
    sel := e.level s.sel
    spiMode := e.mode s.spiMode
    sensor := s.sensor.observe s.cfg e s.draws
    draws := s.draws + 2 }

/-- A call of a capability of rule R126, whose effect is `f`: it returns, or it never does and the
block is stuck (rule R85, U5). DESIGN CHOICE, log entry 3: no event is recorded. -/
def State.capability (s : State) (f : State → State) : State :=
  match s.hangs with
  | [] => f s
  | 0 :: rest => { s with hangs := rest, hung := true }
  | (k + 1) :: rest => f { s with hangs := k :: rest }

/-- The byte the next `transferByte` returns (rule R33, U4): scripted, else the present sensor's
reply, else free. DESIGN CHOICE, log entry 2. -/
def State.nextByte (s : State) : Byte :=
  match s.miso with
  | b :: _ => b
  | [] => (if s.sensor.present then s.sensor.reply s.cfg s.draws else none).getD (Config.draw 8 s.draws)

/-- `Xfer(o) -> i`, the received byte kept or discarded (rules R31, R32). -/
def State.transfer (s : State) (o : Byte) (keep : Bool) : State :=
  { { s with miso := s.miso.tail }.emit (.xfer o s.nextByte) with
    rx := if keep then s.rx ++ [s.nextByte] else s.rx }

/-- One event of a transaction. -/
def State.busOp (s : State) (op : BusOp) : State :=
  match op with
  | .select => s.emit .select
  | .xfer o keep => s.transfer o keep
  | .deselect => s.emit .deselect

/-- The next event of the transaction in hand. -/
def State.busAdvance (s : State) : State :=
  match s.pending with
  | [] => s
  | op :: rest => s.capability fun t => { t with pending := rest }.busOp op

/-- A transaction begins: its events follow one another from now on, and the first of them, `Select`,
happens (rules R31, R36). -/
def State.busBegin (s : State) (ops : List BusOp) : State :=
  { s with pending := ops }.busAdvance

/-! ### The sequencer (rules R13, R84, R85) -/

/-- `seq <- q` (rule R8): the sequencer moves to step `q`, and the transaction of that step is
staged. -/
def State.goto (s : State) (q : Seq) : State := { s with seq := q, stage := stageOf s.cfg q }

/-- A command completes: `seq` returns to `IDLE` (rule R85). -/
def State.complete (s : State) (d : Done) : State :=
  { s.goto .idle with history := d :: s.history }

/-- A command word is accepted only at `IDLE`; presented at any other step it has no effect
(rule R84). -/
def State.accept (s : State) (f : State → State) : Host.Outcome State Fault Refusal :=
  if s.busy then .next s else .next (f s)

/-- The results of `CDEC` (rule R105 step 6); it completes in the same step and leaves `seq` at
`IDLE` (rule R84). -/
def State.setCaliper (s : State) (v : Word) (dp : BitVec 3) : State :=
  { s with valOut := v, dpOut := dp, history := .cdec :: s.history }

/-! ### The failure and reset -/

/-- Twelve draws, numbered from `n` on. -/
def drawCal (n : Nat) : Vector Half 12 := Vector.ofFn fun i : Fin 12 => Config.draw 16 (n + i)

/-- `raise ChipIdMismatch` (rules R80, R115, R121): `BEGIN` ends with `STATUS_FAIL`, `cal` is
unspecified, `seq` returns to `IDLE`; nothing else changes and nothing is recorded. -/
def State.chipIdMismatch (s : State) : State :=
  { s with statusOut := s.cfg.statusFail, cal := drawCal s.draws, draws := s.draws + 12 }.complete
    .beginFail

/-- The reset input (rule R135): the state of rule R22, in the middle of a command too; a transaction
in hand ends by the deassertion of the select line and no other event. What is outside the block
stays: the parameters, the host, the transport's mode, bytes and calls, the sensor. -/
def State.assertReset (s : State) : State :=
  { State.blank s.cfg (s.draws + 3) with
    spiMode := s.spiMode
    miso := s.miso
    hangs := s.hangs
    sensor := if s.sel = .low then s.sensor.cutShort s.cfg s.draws else s.sensor
    host := s.host
    trace := if s.sel = .low then s.trace ++ [.deselect] else s.trace
    history := .reset :: s.history }

end Sys2Proof.Machine
end

