-- ==== Sys2Proof/Machine/Bus.lean ====
section
/-! DEFINITION. The bus transactions (spec/40_bus_transactions.md rules R70, R71). Each begins with
the event `Select`; its further events follow one machine step each (`State.busAdvance`). -/

namespace Sys2Proof.Machine

/-- `RREG ra, n` (rule R70): Select, the header, `n` dummy bytes whose answers are kept in `rx`,
Deselect. -/
def execRreg (ra : RegAddr) (n : Nat) (s : State) : Host.Outcome State Fault Refusal :=
  .next ({ s with rx := [] }.busBegin (readOps ra n))

/-- `WREG ra, v` (rule R71): Select, the header, the value byte, Deselect; the received bytes are
discarded. -/
def execWreg (ra : RegAddr) (v : Byte) (s : State) : Host.Outcome State Fault Refusal :=
  .next (s.busBegin (writeOps ra v))

end Sys2Proof.Machine
end

