-- ==== Sys2Proof/Machine/Float.lean ====
section
/-! DEFINITION. The float format `FLT` and its laws (spec/43_caliper_decode.md rule R106): IEEE 754
binary32 as bit patterns, each operation the exact rational result rounded to nearest, ties to even.
Operands are finite: no operation of rule R105 meets another (rule R106). DEDUCED and PRESUMED, log entry
11. -/

namespace Sys2Proof.Machine

/-- The magnitude of a finite binary32 as a fraction `(num, den)`: bias 127, 23 fraction bits. -/
def f32Frac (b : Word) : Nat × Nat :=
  let e := (b.extractLsb' 23 8).toNat
  let f := (b.extractLsb' 0 23).toNat
  let m := if e = 0 then f else f + 2 ^ 23
  let x := if e = 0 then 1 else e
  (m * 2 ^ (x - 150), 2 ^ (150 - x))

/-- The sign bit. -/
def f32Sign (b : Word) : Bool := b.getLsbD 31

/-- `floor(log2(num / den))` of a positive fraction. -/
def fracLog2 (num den : Nat) : Int :=
  let e : Int := (num.log2 : Int) - (den.log2 : Int)
  if den * 2 ^ e.toNat ≤ num * 2 ^ (-e).toNat then e else e - 1

/-- `num / den` rounded to the nearest natural number, ties to even. -/
def divNearest (num den : Nat) : Nat :=
  let q := num / den
  let r := num % den
  if den < 2 * r ∨ (2 * r = den ∧ q % 2 = 1) then q + 1 else q

/-- The binary32 nearest to the fraction `num / den`, ties to even, its sign bit clear. -/
def f32Round (num den : Nat) : Word :=
  if num = 0 then 0#32
  else
    let e : Int := max (fracLog2 num den) (-126)
    let q := divNearest (num * 2 ^ (23 - e).toNat) (den * 2 ^ (e - 23).toNat)
    let bits := (e + 126).toNat * 2 ^ 23 + q
    if 0x7F800000 ≤ bits then 0x7F800000#32 else BitVec.ofNat 32 bits

/-- A pattern with the sign bit set when `neg`. -/
def f32Signed (neg : Bool) (b : Word) : Word := if neg then b ||| 0x80000000#32 else b

/-- `u2f(n)`: the integer `n`. -/
def u2f (f : Flt) (n : Nat) : Word :=
  match f with
  | .binary32 => f32Round n 1

/-- `lit(x)`: the float nearest the decimal literal `num / den`. -/
def lit (f : Flt) (num den : Nat) : Word :=
  match f with
  | .binary32 => f32Round num den

/-- `fdiv(a, b)`: the float nearest the exact quotient. -/
def fdiv (f : Flt) (a b : Word) : Word :=
  match f with
  | .binary32 =>
    f32Signed (f32Sign a != f32Sign b)
      (f32Round ((f32Frac a).1 * (f32Frac b).2) ((f32Frac a).2 * (f32Frac b).1))

/-- `fadd(a, b)`: the float nearest the exact sum; a sum that is zero is negative only when both
operands are. -/
def fadd (f : Flt) (a b : Word) : Word :=
  match f with
  | .binary32 =>
    let x : Int := (f32Frac a).1 * (f32Frac b).2
    let y : Int := (f32Frac b).1 * (f32Frac a).2
    let sum := (if f32Sign a then -x else x) + (if f32Sign b then -y else y)
    let neg := if sum = 0 then f32Sign a && f32Sign b else decide (sum < 0)
    f32Signed neg (f32Round sum.natAbs ((f32Frac a).2 * (f32Frac b).2))

/-- `fneg(a)`: flips the sign bit and nothing else. -/
def fneg (f : Flt) (a : Word) : Word :=
  match f with
  | .binary32 => a ^^^ 0x80000000#32

end Sys2Proof.Machine
end

