-- ==== Sys2Proof/Machine/Caliper.lean ====
section
/-! DEFINITION. Unit C: the caliper decode command (spec/43_caliper_decode.md rule R105), one
definition per row of the opcode table. No unit B state is read or written and no bus event is
issued. -/

namespace Sys2Proof.Machine

/-- Step 5 (rule R105): the sign bit negates. -/
def applySign (f : Flt) (sign : Bool) (v : Word) : Word := if sign then fneg f v else v

/-- Step 3 (rule R105): `fdiv(u2f(mag), lit(100.0))`. -/
def metricValue (f : Flt) (mag : BitVec 20) : Word := fdiv f (u2f f mag.toNat) (lit f 100 1)

/-- Step 4 (rule R105): `fdiv(u2f(mag >> 1), lit(1000.0))`. -/
def imperialValue (f : Flt) (count : BitVec 19) : Word := fdiv f (u2f f count.toNat) (lit f 1000 1)

/-- Step 4 with the half bit set (rule R105): `fadd(v, lit(0.0005))`. -/
def imperialHalfValue (f : Flt) (count : BitVec 19) : Word :=
  fadd f (imperialValue f count) (lit f 5 10000)

/-- `CDEC.NODATA`: the sentinel gives `(+0.0, 0)`, no sign applied. -/
def execCdecNodata (s : State) : Host.Outcome State Fault Refusal :=
  s.accept fun t => t.setCaliper 0#32 0#3

/-- `CDEC.MM`: metric, two decimal places. -/
def execCdecMm (sign : Bool) (mag : BitVec 20) (s : State) : Host.Outcome State Fault Refusal :=
  s.accept fun t => t.setCaliper (applySign t.cfg.flt sign (metricValue t.cfg.flt mag)) 2#3

/-- `CDEC.IN`: imperial, half bit clear, three decimal places. -/
def execCdecIn (sign : Bool) (count : BitVec 19) (s : State) : Host.Outcome State Fault Refusal :=
  s.accept fun t => t.setCaliper (applySign t.cfg.flt sign (imperialValue t.cfg.flt count)) 3#3

/-- `CDEC.INH`: imperial, half bit set, four decimal places. -/
def execCdecInh (sign : Bool) (count : BitVec 19) (s : State) : Host.Outcome State Fault Refusal :=
  s.accept fun t => t.setCaliper (applySign t.cfg.flt sign (imperialHalfValue t.cfg.flt count)) 4#3

end Sys2Proof.Machine
end

