-- ==== Sys2Proof/Machine/Commands.lean ====
section
/-! DEFINITION. The commands of unit B and the reserved code, as the host presents them
(spec/41_bmp280_commands.md rule R84). What `BEGIN` and `FREAD` then do, step by step, is the
sequencer's (Machine/Sequencer.lean). -/

namespace Sys2Proof.Machine

/-- `BEGIN` (rules R80, R84): accepted at `IDLE`, it moves `seq` to `B0`. -/
def execBegin (s : State) : Host.Outcome State Fault Refusal := s.accept fun t => t.goto .b0

/-- `FREAD` (rules R81, R84): accepted at `IDLE`, it moves `seq` to `F0`. -/
def execFread (s : State) : Host.Outcome State Fault Refusal := s.accept fun t => t.goto .f0

/-- `RESERVED.OP3` (rule R58): not accepted at any step; no step is taken, no state changes, no event
is issued. DESIGN CHOICE between U6's two treatments, log entry 10. -/
def execReservedOp3 (s : State) : Host.Outcome State Fault Refusal := .next s

end Sys2Proof.Machine
end

