-- ==== Sys2Proof/Machine/Dispatch.lean ====
section
/-! DEFINITION. One arm per instruction. -/

namespace Sys2Proof.Machine

def exec (i : Instr) (s : State) : Host.Outcome State Fault Refusal :=
  match i with
  | .begin _ => Sys2Proof.Machine.execBegin s
  | .fread _ => Sys2Proof.Machine.execFread s
  | .cdecNodata => Sys2Proof.Machine.execCdecNodata s
  | .cdecMm _ _ sign mag => Sys2Proof.Machine.execCdecMm sign mag s
  | .cdecIn _ _ sign count => Sys2Proof.Machine.execCdecIn sign count s
  | .cdecInh _ _ sign count => Sys2Proof.Machine.execCdecInh sign count s
  | .reservedOp3 _ => Sys2Proof.Machine.execReservedOp3 s
  | .rreg ra n => Sys2Proof.Machine.execRreg ra n s
  | .wreg ra v => Sys2Proof.Machine.execWreg ra v s

end Sys2Proof.Machine
end

