-- ==== Sys2Proof/Machine/Arith.lean ====
section
/-! DEFINITION. The integer primitives of spec/00_scope.md rule R8 and the laws of
spec/42_compensation.md rule R91: exact integers, reduced into two's complement at the end. -/

namespace Sys2Proof.Machine

/-- `zext_N(v)`: the unsigned value of the low `N` bits of `v`. -/
def zextN (n : Nat) (v : Int) : Int := v % 2 ^ n

/-- `sext_N(v)`: the low `N` bits of `v` read as two's complement. -/
def sextN (n : Nat) (v : Int) : Int :=
  if zextN n v < 2 ^ (n - 1) then zextN n v else zextN n v - 2 ^ n

/-- `wrap32(x)` and `wrap64(x)`: reduction of an unbounded integer. -/
def wrap32 (x : Int) : Int := sextN 32 x
def wrap64 (x : Int) : Int := sextN 64 x

/-- `u32(x)`: `x mod 2^32`. -/
def u32 (x : Int) : Int := x % 2 ^ 32

/-- `asr(x, n)`: `floor(x / 2^n)`. -/
def asr (x : Int) (n : Nat) : Int := x / 2 ^ n

/-- `shl32(x, n)`, `shl64(x, n)`. -/
def shl32 (x : Int) (n : Nat) : Int := wrap32 (x * 2 ^ n)
def shl64 (x : Int) (n : Nat) : Int := wrap64 (x * 2 ^ n)

/-- The 32-bit forms. -/
def mul32 (a b : Int) : Int := wrap32 (a * b)
def add32 (a b : Int) : Int := wrap32 (a + b)
def sub32 (a b : Int) : Int := wrap32 (a - b)

/-- The 64-bit forms. -/
def mul64 (a b : Int) : Int := wrap64 (a * b)
def add64 (a b : Int) : Int := wrap64 (a + b)
def sub64 (a b : Int) : Int := wrap64 (a - b)

/-- `tdiv64(a, b)`: signed division rounding toward zero, then `wrap64` (rule R91 item 5). The
divisor is tested against zero before (rule R95). -/
def tdiv64 (a b : Int) : Int := wrap64 (a.sign * b.sign * (a.natAbs / b.natAbs : Nat))

/-- `udiv32(a, b)`: unsigned division rounding down. -/
def udiv32 (a b : Int) : Int := a / b

end Sys2Proof.Machine
end

