-- ==== Sys2Proof/Machine/Flags.lean ====
section
/-! DEFINITION. The block has no status flag, condition code or predicate register
(spec/10_state.md rule R15). The conditions its rules test are computed and consumed inside one step;
these are all of them but the four tests of `CDEC`, which select the rows of the opcode table and
are made by the decoder (Sys2Proof/Decode.lean's `decodeFrame`, rules R57, R105). -/

namespace Sys2Proof.Machine

/-- Step B2: `id != CHIP_ID_EXPECT`, an equality on all 8 bits (rule R80). -/
def chipIdDiffers (c : Params) (id : Byte) : Bool := id != c.chipIdExpect

/-- `v1 == 0`, before the division (rules R95, R97). -/
def zeroDivisor (v1 : Int) : Bool := v1 == 0

/-- `p < 0x80000000`, only in the alternative routine (rule R97). -/
def belowTopBit (p : Int) : Bool := decide (p < 0x80000000)

end Sys2Proof.Machine
end

