-- ==== Sys2Proof/Machine/Compensation.lean ====
section
/-! DEFINITION. The compensation arithmetic (spec/42_compensation.md rules R91, R92, R95, R97), line by
line in the primitives of rule R8, with every intermediate kept so that a claim can name it. -/

namespace Sys2Proof.Machine

/-- The variables of `COMP_T` (rule R92). -/
structure TempCalc where
  a : Int
  m1 : Int
  var1 : Int
  d : Int
  sq : Int
  m2 : Int
  var2 : Int
  tFine : Int
  t : Int
  deriving DecidableEq, Repr

/-- `COMP_T(T1, T2, T3, adc_T)` (rule R92). -/
def compT (t1 t2 t3 adcT : Int) : TempCalc :=
  let a := sub32 (asr adcT 3) (shl32 t1 1)
  let m1 := mul32 a t2
  let var1 := asr m1 11
  let d := sub32 (asr adcT 4) t1
  let sq := mul32 d d
  let m2 := mul32 (asr sq 12) t3
  let var2 := asr m2 14
  let tFine := add32 var1 var2
  let t := asr (add32 (mul32 tFine 5) 128) 8
  { a, m1, var1, d, sq, m2, var2, tFine, t }

/-- The variables of `COMP_P` after the zero-divisor test (rule R95). `p8` is `p` after line 8, `num`
the dividend of line 9, `p9` the quotient, `p` the last value. -/
structure PressTail where
  p8 : Int
  num : Int
  p9 : Int
  w1 : Int
  w2 : Int
  p : Int
  deriving DecidableEq, Repr

/-- The variables of `COMP_P` (rule R95): `v1` after lines 1, 5 and 6, `v2` after lines 2, 3 and 4. -/
structure PressCalc where
  v1a : Int
  v2a : Int
  v2b : Int
  v2 : Int
  v1b : Int
  v1 : Int
  deriving DecidableEq, Repr

/-- Lines 1 to 6 of `COMP_P` (rule R95). -/
def compPHead (p1 p2 p3 p4 p5 p6 tFine : Int) : PressCalc :=
  let v1a := sub64 tFine 128000
  let v2a := mul64 (mul64 v1a v1a) p6
  let v2b := add64 v2a (shl64 (mul64 v1a p5) 17)
  let v2 := add64 v2b (shl64 p4 35)
  let v1b := add64 (asr (mul64 (mul64 v1a v1a) p3) 8) (shl64 (mul64 v1a p2) 12)
  let v1 := asr (mul64 (add64 (2 ^ 47) v1b) p1) 33
  { v1a, v2a, v2b, v2, v1b, v1 }

/-- The lines of `COMP_P` after the zero-divisor test (rule R95). -/
def compPTail (v1 v2 p7 p8 p9 adcP : Int) : PressTail :=
  let d := sub64 1048576 adcP
  let num := mul64 (sub64 (shl64 d 31) v2) 3125
  let q := tdiv64 num v1
  let w1 := asr (mul64 (mul64 p9 (asr q 13)) (asr q 13)) 25
  let w2 := asr (mul64 p8 q) 19
  let p := add64 (asr (add64 (add64 q w1) w2) 8) (shl64 p7 4)
  { p8 := d, num, p9 := q, w1, w2, p }

/-- `COMP_P(P1, ..., P9, t_fine, adc_P)` (rule R95): unsigned, Q24.8 Pascal. -/
def compP (p1 p2 p3 p4 p5 p6 p7 p8 p9 tFine adcP : Int) : Int :=
  let h := compPHead p1 p2 p3 p4 p5 p6 tFine
  if zeroDivisor h.v1 then 0 else u32 (compPTail h.v1 h.v2 p7 p8 p9 adcP).p

/-- `COMP_P32(P1, ..., P9, t_fine, adc_P)`, the alternative routine (rule R97): whole Pascals. -/
def compP32 (p1 p2 p3 p4 p5 p6 p7 p8 p9 tFine adcP : Int) : Int :=
  let v1 := sub32 (asr tFine 1) 64000
  let q := asr v1 2
  let v2 := mul32 (asr (mul32 q q) 11) p6
  let v2 := add32 v2 (shl32 (mul32 v1 p5) 1)
  let v2 := add32 (asr v2 2) (shl32 p4 16)
  let v1 := asr (add32 (asr (mul32 p3 (asr (mul32 q q) 13)) 3) (asr (mul32 p2 v1) 1)) 18
  let v1 := asr (mul32 (add32 32768 v1) p1) 15
  if zeroDivisor v1 then 0
  else
    let p := u32 (u32 (u32 (1048576 - adcP) - asr v2 12) * 3125)
    let p := if belowTopBit p then udiv32 (u32 (p * 2)) (u32 v1) else u32 (udiv32 p (u32 v1) * 2)
    let w1 := asr (mul32 p9 (wrap32 (asr (u32 (asr p 3 * asr p 3)) 13))) 12
    let w2 := asr (mul32 (wrap32 (asr p 2)) p8) 13
    u32 (add32 (wrap32 p) (asr (add32 (add32 w1 w2) p7) 4))

/-- `COMP_T` of the first three coefficients and `adc_T` (rule R81 step F4). -/
def tempCalcOf (s : State) : TempCalc := compT (calInt s 0) (calInt s 1) (calInt s 2) s.adcT.toNat

/-- The working variables of `COMP_T` as it leaves them (rule R21). -/
def tempVarsOf (r : TempCalc) : TempVars :=
  { a := BitVec.ofInt 32 r.a, m1 := BitVec.ofInt 32 r.m1, var1 := BitVec.ofInt 32 r.var1,
    d := BitVec.ofInt 32 r.d, sq := BitVec.ofInt 32 r.sq, m2 := BitVec.ofInt 32 r.m2,
    var2 := BitVec.ofInt 32 r.var2 }

/-- The variables of a `COMP_T` are written. -/
def State.setTemp (s : State) (r : TempCalc) : State :=
  { s with tempVars := tempVarsOf r, tFine := BitVec.ofInt 32 r.tFine, tRes := BitVec.ofInt 32 r.t }

/-- Step F4 (rule R81). -/
def State.runCompT (s : State) : State := s.setTemp (tempCalcOf s)

/-- The working variables of `COMP_P` as it leaves them (rule R21); a zero divisor ends it before
`p`, `w1` and `w2` are written. DEDUCED, log entry 13. -/
def pressVarsOf (old : PressVars) (h : PressCalc) (t : PressTail) : PressVars :=
  if zeroDivisor h.v1 then { old with v1 := BitVec.ofInt 64 h.v1, v2 := BitVec.ofInt 64 h.v2 }
  else
    { v1 := BitVec.ofInt 64 h.v1, v2 := BitVec.ofInt 64 h.v2, p := BitVec.ofInt 64 t.p,
      w1 := BitVec.ofInt 64 t.w1, w2 := BitVec.ofInt 64 t.w2 }

/-- The pressure of the sample, by the variant the parameters select (rules R6, R95, R97). -/
def pressureOf (s : State) : Int :=
  match s.cfg.pressVariant with
  | .q24_8_int64 =>
    compP (calInt s 3) (calInt s 4) (calInt s 5) (calInt s 6) (calInt s 7) (calInt s 8) (calInt s 9)
      (calInt s 10) (calInt s 11) s.tFine.toInt s.adcP.toNat
  | .pa_int32 =>
    compP32 (calInt s 3) (calInt s 4) (calInt s 5) (calInt s 6) (calInt s 7) (calInt s 8)
      (calInt s 9) (calInt s 10) (calInt s 11) s.tFine.toInt s.adcP.toNat

/-- The working variables after step F5; the alternative routine has none of its own in rule R21. DEDUCED,
log entry 7. -/
def pressVarsAfter (s : State) : PressVars :=
  match s.cfg.pressVariant with
  | .q24_8_int64 =>
    let h := compPHead (calInt s 3) (calInt s 4) (calInt s 5) (calInt s 6) (calInt s 7) (calInt s 8)
      s.tFine.toInt
    pressVarsOf s.pressVars h
      (compPTail h.v1 h.v2 (calInt s 9) (calInt s 10) (calInt s 11) s.adcP.toNat)
  | .pa_int32 => s.pressVars

/-- The variables and the result of a `COMP_P` are written. -/
def State.setPress (s : State) (v : PressVars) (p : Int) : State :=
  { s with pressVars := v, pRes := BitVec.ofInt 32 p }

/-- Step F5 (rule R81): the pressure of `P1 .. P9`, the `t_fine` of the same sample and `adc_P`. -/
def State.runCompP (s : State) : State := s.setPress (pressVarsAfter s) (pressureOf s)

end Sys2Proof.Machine
end

