-- ==== Sys2Proof/Machine/Sequencer.lean ====
section
/-! DEFINITION. The steps of `BEGIN` and `FREAD` (spec/41_bmp280_commands.md rules R80, R81), and what
the machine does next. -/

namespace Sys2Proof.Machine

/-- Step B0: `SetMode(0)` (rule R72). -/
def State.stepB0 (s : State) : State :=
  s.capability fun t => (t.emit (.setMode Config.spiMode)).goto .b1

/-- Step B1, its read done: `id_byte <- b[0]`. -/
def State.stepB1 (s : State) : State := { s with idByte := s.rx.headD s.idByte }.goto .b2

/-- Step B2: the one check (rules R80, R115). -/
def State.stepB2 (s : State) : State :=
  if chipIdDiffers s.cfg s.idByte then s.chipIdMismatch else s.goto .b3

/-- Step B5, its read done: `cbuf <- b[0..23]`. -/
def State.stepB5 (s : State) : State := { s with cbuf := fillBuf s.cbuf s.rx }.goto .b6

/-- Step B6: the calibration file is loaded and `BEGIN` succeeds. -/
def State.stepB6 (s : State) : State :=
  { s with cal := unpackAll s.cfg.calByteOrder s.cbuf, statusOut := s.cfg.statusOk }.complete .beginOk

/-- Step F1: `Delay` (rule R73). -/
def State.stepF1 (s : State) : State := s.capability fun t => (t.emit .delay).goto .f2

/-- Step F2, its read done: `dbuf <- b[0..5]`. -/
def State.stepF2 (s : State) : State := { s with dbuf := fillBuf s.dbuf s.rx }.goto .f3

/-- Step F3: `UNPACK_ADC`. -/
def State.stepF3 (s : State) : State :=
  { s with
    adcP := (unpackAdc s.cfg.adcByteOrder s.dbuf).1
    adcT := (unpackAdc s.cfg.adcByteOrder s.dbuf).2 }.goto .f4

/-- Step F6: the results are written and `FREAD` completes. -/
def State.stepF6 (s : State) : State := { s with tOut := s.tRes, pOut := s.pRes }.complete .fread

/-- The step in hand, when no event of a transaction is due. A step that issues a transaction comes
here when the transaction is over. At `IDLE` the block waits (rule R147). That a move is one event, or one
step without an event, is a DESIGN CHOICE, log entry 8. -/
def State.seqStep (s : State) : State :=
  match s.seq with
  | .idle => s
  | .b0 => s.stepB0
  | .b1 => s.stepB1
  | .b2 => s.stepB2
  | .b3 => s.goto .b4
  | .b4 => s.goto .b5
  | .b5 => s.stepB5
  | .b6 => s.stepB6
  | .f0 => s.goto .f1
  | .f1 => s.stepF1
  | .f2 => s.stepF2
  | .f3 => s.stepF3
  | .f4 => s.runCompT.goto .f5
  | .f5 => s.runCompP.goto .f6
  | .f6 => s.stepF6

/-- What the block does by itself: nothing when a call has not returned (U5); the next event of the
transaction in hand; the transaction that is staged; else the step in hand. -/
def State.blockMove (s : State) : Fetch :=
  if s.hung then .own s
  else
    match s.pending with
    | _ :: _ => .own s.busAdvance
    | [] =>
      match s.stage with
      | [] => .own s.seqStep
      | _ :: _ => .run (.bus s.stage) { s with stage := [] }

/-- What the next step does: the host's next act, or the block's own move (rules R135, R146). A
blocking call waits until the block is at `IDLE` (rule R139). -/
def State.fetch (s : State) : Fetch :=
  match s.host with
  | [] => s.blockMove
  | .tick :: rest => { s with host := rest }.blockMove
  | .reset :: rest => .own { s with host := rest }.assertReset
  | .present w :: rest => .run (.cw w) { s with host := rest }
  | .call w :: rest => if s.busy then s.blockMove else .run (.cw w) { s with host := rest }

/-- `s` with `c` placed where `fetch` finds it: a command word is presented by the host; the bytes of
a transaction are staged, with no event of another transaction due and the host letting the block
move. -/
def State.place (s : State) (c : Code) : State :=
  match c with
  | .cw w => { s with host := .present w :: s.host }
  | .bus bs => { s with stage := bs, pending := [], hung := false, host := .tick :: s.host }

end Sys2Proof.Machine
end

