-- ==== Sys2Proof/Machine/Step.lean ====
section
/-! DEFINITION. One step of the machine. -/

namespace Sys2Proof.Machine

/-- A step runs what `State.fetch` finds: the decoded instruction, or the machine's own move. The command
codes are the parameters'. -/
def step (s : State) : Host.Outcome State Fault Refusal :=
  match s.fetch with
  | .own t => .next t
  | .run c t =>
    match decode s.cfg c with
    | .ok i => exec i t
    | .error e => .refused (.undecodable e)

/-- `s` with the row's word placed where the next step fetches it. -/
def State.withFetchWord (s : State) (nbits w : Nat) : State :=
  match tableCode nbits w with
  | some c => s.place c
  | none => s

end Sys2Proof.Machine
end

