-- ==== Sys2Proof/Safety.lean ====
section
/-! DEFINITION. What claims about the machine are stated in: the history predicates, the end of a run,
the quiet environment, the event sequences, the discipline of the bus, the premises of the
arithmetic. -/

namespace Sys2Proof.Machine

/-! ### History (rules R12, R147, U3) -/

/-- The last `BEGIN` completed with `STATUS_OK` and no reset followed (rule R12). -/
def calLoadedIn (h : List Done) : Bool :=
  match h with
  | [] => false
  | .beginOk :: _ => true
  | .beginFail :: _ => false
  | .reset :: _ => false
  | .fread :: rest => calLoadedIn rest
  | .cdec :: rest => calLoadedIn rest

/-- `CalLoaded` (rule R12): a fact about the history, not a register. -/
def CalLoaded (s : State) : Bool := calLoadedIn s.history

/-- A command of the kind `p` has completed since the last reset (U3). -/
def doneSinceReset (p : Done → Bool) (h : List Done) : Bool :=
  match h with
  | [] => false
  | d :: rest => if d = .reset then false else p d || doneSinceReset p rest

/-- The premises of U3 for the result registers of each command. -/
def BeginDone (s : State) : Bool := doneSinceReset (fun d => d == .beginOk || d == .beginFail) s.history
def FreadDone (s : State) : Bool := doneSinceReset (fun d => d == .fread) s.history
def CdecDone (s : State) : Bool := doneSinceReset (fun d => d == .cdec) s.history

/-- The run has ended: every command has been accepted and `seq = IDLE` (rule R147). -/
def RunEnded (s : State) : Bool := s.host.isEmpty && !s.busy

/-- Nothing from outside happens: the host does not act, and every call of a capability returns
(the duty of rule R146). The bytes the transport returns stay free. -/
def Quiet (s : State) : Prop := s.host = [] ∧ s.hangs = [] ∧ s.hung = false

/-- No transaction is staged or in hand and the select line is high: how the block stands at `IDLE`
and between transactions (rule R17). -/
def BusFree (s : State) : Prop := s.stage = [] ∧ s.pending = [] ∧ s.sel = .high

/-- The premise of rule R141 on the sensor, "the delay outlasts the conversion": its next conversion ends
with the first event after the one that triggers it, which in `FREAD` is `Delay`. -/
def DelayOutlasts (x : Sensor) : Prop := ∃ more, x.lasts = 0 :: more

/-- The other case of rule R141, `T_MEAS` too short: the next conversion lasts longer. -/
def DelayTooShort (x : Sensor) : Prop := ∃ k more, x.lasts = (k + 1) :: more

/-- A register that the end of a conversion can change: `ctrl_meas` and the six data registers (rules R18,
R33), where no parameter puts them on one the sensor keeps. -/
def conversionReg (c : Params) (a : Nat) : Bool :=
  (a == c.ctrlMeasAddr || dataReg c a) && writableReg c a

/-- The address parameters place the registers of rule R18 inside the register space, no two at one address:
`id`, `ctrl_meas`, `config`, the six data registers, the 24 of the calibration block. So do the defaults. -/
def mapApart (c : Params) : Bool :=
  let blocks := [(c.idAddr, 1), (c.ctrlMeasAddr, 1), (c.configAddr, 1), (c.dataAddr, 6), (c.calibAddr, 24)]
  blocks.all (fun b => decide (b.1 + b.2 ≤ 128)) &&
    decide (blocks.Pairwise fun p q => p.1 + p.2 ≤ q.1 ∨ q.1 + q.2 ≤ p.1)

/-- From `s`, `k` steps answer next states, the last of them `u`. -/
def RunsTo (k : Nat) (s u : State) : Prop :=
  match k with
  | 0 => s = u
  | k + 1 => ∃ t, step s = .next t ∧ RunsTo k t u

/-! ### Event sequences (rules R70, R71, R80, R81) -/

/-- The events of `RREG ra, n`; `h` is the byte received with the header, `bs` the data bytes. -/
def readEvents (ra : RegAddr) (h : Byte) (bs : List Byte) : List Event :=
  .select :: .xfer (header true ra) h :: (bs.map (Event.xfer Config.dummy) ++ [.deselect])

/-- The events of `WREG ra, v`; `h` and `r` are the discarded bytes. -/
def writeEvents (ra : RegAddr) (h v r : Byte) : List Event :=
  [.select, .xfer (header false ra) h, .xfer v r, .deselect]

/-- The select line after a list of events, from `l` on (rules R17, R30). -/
def levelAfter (l : Level) (es : List Event) : Level := es.foldl (fun l e => e.level l) l

/-! ### The discipline of the bus (rules R17, R31, R36) -/

/-- The select line after a bus event of a transaction. -/
def BusOp.level (op : BusOp) (l : Level) : Level :=
  match op with
  | .select => .low
  | .xfer _ _ => l
  | .deselect => .high

/-- The bus events of the transaction a step issues (rule R36); the other steps issue none. -/
def opsOf (c : Params) : Seq → List BusOp
  | .b1 => readOps (regOf c.chipIdReg) 1
  | .b3 => writeOps (regOf c.configReg) c.configValue
  | .b4 => writeOps (regOf c.ctrlMeasReg) c.ctrlIdleValue
  | .b5 => readOps (regOf c.calibBase) 24
  | .f0 => writeOps (regOf c.ctrlMeasReg) c.ctrlForcedValue
  | .f2 => readOps (regOf c.dataBase) 6
  | .idle | .b0 | .b2 | .b6 | .f1 | .f3 | .f4 | .f5 | .f6 => []

/-- How many data bytes a list of bus events keeps. -/
def keptIn (ops : List BusOp) : Nat :=
  ops.countP fun op => match op with
    | .xfer _ keep => keep
    | .select => false
    | .deselect => false

/-- The step in hand issues a read. -/
def readStep : Seq → Bool
  | .b1 | .b5 | .f2 => true
  | .idle | .b0 | .b2 | .b3 | .b4 | .b6 | .f0 | .f1 | .f3 | .f4 | .f5 | .f6 => false

/-- Where the bus stands in the step in hand. Either the step's transaction is staged and the bus is
free, or the part `done` of its events has happened, the rest is due, the select line is where `done`
left it, and a read has received as many bytes as `done` keeps. A step without a transaction finds
the bus free. At `IDLE` no call is outstanding. -/
def BusDiscipline (s : State) : Prop :=
  (s.seq = .idle → s.hung = false) ∧
  ((s.stage = stageOf s.cfg s.seq ∧ s.pending = [] ∧ s.sel = .high) ∨
    (s.stage = [] ∧ ∃ done : List BusOp,
      opsOf s.cfg s.seq = done ++ s.pending ∧
      s.sel = done.foldl (fun l op => op.level l) .high ∧
      (readStep s.seq = true → s.rx.length = keptIn done)))

/-- The select line is where the events issued so far left it (rule R17). -/
def SelectLineInv (s : State) : Prop := s.sel = levelAfter .high s.trace

/-! ### The result registers (U3) -/

/-- A temperature `COMP_T` can give (rule R93). -/
def TempInRange (w : Word) : Prop := -23040 ≤ w.toInt ∧ w.toInt ≤ 23040

/-- At the signedness of rule R10: after an `FREAD` has completed `T_OUT` is in the range of rule R93,
and so is the `T` that waits between steps F4 and F6. -/
def TemperatureInv (s : State) : Prop :=
  s.cfg.calSigned = Config.calSigned ∧ (FreadDone s = true → TempInRange s.tOut) ∧
  (s.seq = .f5 ∨ s.seq = .f6 → TempInRange s.tRes)

/-- After a `CDEC` has completed `DP_OUT` is one of the four values of rule R108. -/
def DecimalPlacesInv (s : State) : Prop :=
  CdecDone s = true → s.dpOut = 0#3 ∨ s.dpOut = 2#3 ∨ s.dpOut = 3#3 ∨ s.dpOut = 4#3

/-- After a `BEGIN` has completed `STATUS_OUT` is one of the two codes of rule R115, and `STATUS_OK` where
`CalLoaded` holds. -/
def StatusInv (s : State) : Prop :=
  (BeginDone s = true → s.statusOut = s.cfg.statusOk ∨ s.statusOut = s.cfg.statusFail) ∧
  (CalLoaded s = true → s.statusOut = s.cfg.statusOk)

/-! ### The premises of the arithmetic (rules R93, R96) -/

/-- `NoWrapT` (rule R93): `m1`, `sq` and `m2` equal their unbounded-integer values. -/
def NoWrapT (t1 t2 t3 adcT : Int) : Prop :=
  let r := compT t1 t2 t3 adcT
  r.m1 = r.a * t2 ∧ r.sq = r.d * r.d ∧ r.m2 = asr r.sq 12 * t3

/-- The named values of rule R95 equal their unbounded-integer values and the final `p` is in
`0 .. 2^32 - 1`: less than `NoWrapP` asks for, so that a claim under it says more. -/
def NamedNoWrapP (p1 p2 p3 p4 p5 p6 p7 p8 p9 tFine adcP : Int) : Prop :=
  let h := compPHead p1 p2 p3 p4 p5 p6 tFine
  let r := compPTail h.v1 h.v2 p7 p8 p9 adcP
  h.v1a = tFine - 128000 ∧ h.v2a = h.v1a * h.v1a * p6 ∧
  h.v2b = h.v2a + h.v1a * p5 * 2 ^ 17 ∧ h.v2 = h.v2b + p4 * 2 ^ 35 ∧
  h.v1b = asr (h.v1a * h.v1a * p3) 8 + h.v1a * p2 * 2 ^ 12 ∧
  h.v1 = asr ((2 ^ 47 + h.v1b) * p1) 33 ∧
  (h.v1 ≠ 0 →
    r.p8 = 1048576 - adcP ∧ r.num = (r.p8 * 2 ^ 31 - h.v2) * 3125 ∧
    r.p9 = r.num.tdiv h.v1 ∧
    r.w1 = asr (p9 * asr r.p9 13 * asr r.p9 13) 25 ∧ r.w2 = asr (p8 * r.p9) 19 ∧
    r.p = asr (r.p9 + r.w1 + r.w2) 8 + p7 * 2 ^ 4 ∧ 0 ≤ r.p ∧ r.p < 2 ^ 32)

/-- The operation of the exact result `x` equals it: 64 bits hold `x` (rule R8). -/
def Fits64 (x : Int) : Prop := wrap64 x = x

/-- The part of `NoWrapP` (rule R96) over lines 1 to 6 of rule R95: every `mul64`, `add64`, `sub64` and
`shl64` equals its unbounded-integer value. -/
def NoWrapHead (p1 p2 p3 p4 p5 p6 tFine : Int) : Prop :=
  let h := compPHead p1 p2 p3 p4 p5 p6 tFine
  Fits64 (tFine - 128000) ∧
  Fits64 (h.v1a * h.v1a) ∧ Fits64 (mul64 h.v1a h.v1a * p6) ∧
  Fits64 (h.v1a * p5) ∧ Fits64 (mul64 h.v1a p5 * 2 ^ 17) ∧
  Fits64 (h.v2a + shl64 (mul64 h.v1a p5) 17) ∧
  Fits64 (p4 * 2 ^ 35) ∧ Fits64 (h.v2b + shl64 p4 35) ∧
  Fits64 (mul64 h.v1a h.v1a * p3) ∧ Fits64 (h.v1a * p2) ∧ Fits64 (mul64 h.v1a p2 * 2 ^ 12) ∧
  Fits64 (asr (mul64 (mul64 h.v1a h.v1a) p3) 8 + shl64 (mul64 h.v1a p2) 12) ∧
  Fits64 (2 ^ 47 + h.v1b) ∧ Fits64 (add64 (2 ^ 47) h.v1b * p1)

/-- The part of `NoWrapP` (rule R96) over the rest: every such operation of the lines after the zero-divisor test equals
its unbounded-integer value, and the final `p` is in `0 .. 2^32 - 1`. The rule does not name the quotient;
that it fits as well follows for every 16-bit `P7`. -/
def NoWrapTail (v1 v2 p7 p8 p9 adcP : Int) : Prop :=
  let r := compPTail v1 v2 p7 p8 p9 adcP
  let q := asr r.p9 13
  Fits64 (1048576 - adcP) ∧ Fits64 (r.p8 * 2 ^ 31) ∧ Fits64 (shl64 r.p8 31 - v2) ∧
  Fits64 (sub64 (shl64 r.p8 31) v2 * 3125) ∧
  Fits64 (p9 * q) ∧ Fits64 (mul64 p9 q * q) ∧ Fits64 (p8 * r.p9) ∧
  Fits64 (r.p9 + r.w1) ∧ Fits64 (add64 r.p9 r.w1 + r.w2) ∧ Fits64 (p7 * 2 ^ 4) ∧
  Fits64 (asr (add64 (add64 r.p9 r.w1) r.w2) 8 + shl64 p7 4) ∧ 0 ≤ r.p ∧ r.p < 2 ^ 32

/-- `NoWrapP` (rule R96): every `mul64`, `add64`, `sub64` and `shl64` of rule R95 that is run equals its
unbounded-integer value, and the final `p` is in `0 .. 2^32 - 1`. -/
def NoWrapP (p1 p2 p3 p4 p5 p6 p7 p8 p9 tFine adcP : Int) : Prop :=
  NoWrapHead p1 p2 p3 p4 p5 p6 tFine ∧
  ((compPHead p1 p2 p3 p4 p5 p6 tFine).v1 ≠ 0 →
    NoWrapTail (compPHead p1 p2 p3 p4 p5 p6 tFine).v1 (compPHead p1 p2 p3 p4 p5 p6 tFine).v2 p7 p8 p9
      adcP)

/-- `T` in the unbounded integers with floor shifts (rules R92, R93). -/
def exactT (t1 t2 t3 adcT : Int) : Int :=
  let a := asr adcT 3 - t1 * 2
  let d := asr adcT 4 - t1
  asr ((asr (a * t2) 11 + asr (asr (d * d) 12 * t3) 14) * 5 + 128) 8

/-- `P` in the unbounded integers with floor shifts and a division rounding toward zero (rules R95,
R96). -/
def exactP (p1 p2 p3 p4 p5 p6 p7 p8 p9 tFine adcP : Int) : Int :=
  let x := tFine - 128000
  let v2 := x * x * p6 + x * p5 * 2 ^ 17 + p4 * 2 ^ 35
  let v1 := asr ((2 ^ 47 + (asr (x * x * p3) 8 + x * p2 * 2 ^ 12)) * p1) 33
  if v1 = 0 then 0
  else
    let q := (((1048576 - adcP) * 2 ^ 31 - v2) * 3125).tdiv v1
    asr (q + asr (p9 * asr q 13 * asr q 13) 25 + asr (p8 * q) 19) 8 + p7 * 2 ^ 4

/-! ### The float (rules R106, R107) -/

/-- The rational a finite binary32 pattern stands for. -/
def f32Value (b : Word) : Rat :=
  (if f32Sign b then -1 else 1) * ((f32Frac b).1 : Rat) / (f32Frac b).2

/-- A finite pattern: the exponent field is not all ones. -/
def F32Finite (b : Word) : Prop := b.extractLsb' 23 8 ≠ 0xFF#8

/-- `b` is the binary32 nearest to `x`, ties to even: no finite pattern lies nearer, and where another
lies as near `b` is the even one. -/
def F32Nearest (b : Word) (x : Rat) : Prop :=
  F32Finite b ∧
  ∀ c : Word, F32Finite c →
    |f32Value b - x| < |f32Value c - x| ∨
    (|f32Value b - x| = |f32Value c - x| ∧ (f32Value c = f32Value b ∨ b.getLsbD 0 = false))

end Sys2Proof.Machine
end

