-- ==== Sys2Proof/Certificates/Slice0/Obligations.lean ====
section
/-! DEFINITION. The statements for the provers. Each docstring names the rule of spec/ it formalises. -/

open Sys2Proof Sys2Proof.Machine

/-! ### Encoding -/

/-- Rules R6, R50, R51, R52, R55, R57: the decoder reads back every well-formed instruction the encoder
writes, with every operand at every value, at all parameters whose three command codes differ. -/
def Obligations.DecodeInvertsEncode : Prop :=
  ∀ (c : Params) (i : Instr), c.codesDiffer = true → i.wf = true → decode c (encode c i) = .ok i

/-- Rules R50 to R57, R59: no bit of a code is lost by decoding. -/
def Obligations.EncodeInvertsDecode : Prop :=
  ∀ (c : Params) (k : Code) (i : Instr), c.codesDiffer = true → decode c k = .ok i →
    encode c i = k ∧ i.wf = true

/-- Rules R6, R50, R52, R57: the complete list of bit patterns that select behaviour. The command codes are
parameters (rule R6), all different; at their defaults `op` is 0, 1, 2 and, reserved, 3. That at other codes
the reserved one is the code no command has is the model's choice, log entry 7. -/
def Obligations.OpcodeMapSelectsRows : Prop :=
  (Params.default.cmdBegin = 0#2 ∧ Params.default.cmdFread = 1#2 ∧ Params.default.cmdCdec = 2#2 ∧
    Params.default.cmdReserved = 3#2 ∧ Params.default.codesDiffer = true) ∧
  (∀ (c : Params) (w : CmdWord) (op : BitVec 2) (f : Word), c.codesDiffer = true →
    op = w.extractLsb' 32 2 → f = w.extractLsb' 0 32 →
    (op = c.cmdBegin → decode c (.cw w) = .ok (.begin f)) ∧
    (op = c.cmdFread → decode c (.cw w) = .ok (.fread f)) ∧
    (op = c.cmdCdec → f = 0xFFFFFFFF#32 → decode c (.cw w) = .ok .cdecNodata) ∧
    (op = c.cmdCdec → f.getLsbD 23 = false → decode c (.cw w) = .ok (.cdecMm (f.extractLsb' 24 8)
      (f.extractLsb' 21 2) (f.getLsbD 20) (f.extractLsb' 0 20))) ∧
    (op = c.cmdCdec → f.getLsbD 23 = true → f.getLsbD 0 = false → decode c (.cw w) =
      .ok (.cdecIn (f.extractLsb' 24 8) (f.extractLsb' 21 2) (f.getLsbD 20) (f.extractLsb' 1 19))) ∧
    (op = c.cmdCdec → f.getLsbD 23 = true → f.getLsbD 0 = true → f ≠ 0xFFFFFFFF#32 →
      decode c (.cw w) = .ok (.cdecInh (f.extractLsb' 24 8) (f.extractLsb' 21 2) (f.getLsbD 20)
        (f.extractLsb' 1 19))) ∧
    (op = c.cmdReserved ↔ op ≠ c.cmdBegin ∧ op ≠ c.cmdFread ∧ op ≠ c.cmdCdec) ∧
    (op = c.cmdReserved → decode c (.cw w) = .ok (.reservedOp3 f))) ∧
  (∀ (c : Params) (ra : RegAddr) (n : Nat), 1 ≤ n →
    decode c (.bus ((1#1 ++ ra : Byte) :: List.replicate n 0x00#8)) = .ok (.rreg ra n)) ∧
  (∀ (c : Params) (ra : RegAddr) (v : Byte), decode c (.bus [(0#1 ++ ra : Byte), v]) =
    .ok (.wreg ra v)) ∧
  (∀ (c : Params) (bs : List Byte) (i : Instr), decode c (.bus bs) = .ok i →
    (∃ (ra : RegAddr) (n : Nat), 1 ≤ n ∧ bs = (1#1 ++ ra : Byte) :: List.replicate n 0x00#8) ∨
      (∃ (ra : RegAddr) (v : Byte), bs = [(0#1 ++ ra : Byte), v]))

/-- Words written out bit by bit from the spec's encodings (rules R50 to R52, R55, R62), at the default
command codes. -/
def Obligations.SpecWordsDecode : Prop :=
  decode Params.default (.cw 0x000000000#34) = .ok (.begin 0#32) ∧
  decode Params.default (.cw 0x100000000#34) = .ok (.fread 0#32) ∧
  decode Params.default (.cw 0x2FFFFFFFF#34) = .ok .cdecNodata ∧
  decode Params.default (.cw 0x200003039#34) = .ok (.cdecMm 0#8 0#2 false 12345#20) ∧
  decode Params.default (.cw 0x2008009A4#34) = .ok (.cdecIn 0#8 0#2 false 1234#19) ∧
  decode Params.default (.cw 0x2009009A5#34) = .ok (.cdecInh 0#8 0#2 true 1234#19) ∧
  decode Params.default (.cw 0x300000000#34) = .ok (.reservedOp3 0#32) ∧
  decode Params.default (.bus [0xD0#8, 0x00#8]) = .ok (.rreg 0x50#7 1) ∧
  decode Params.default (.bus [0x74#8, 0x25#8]) = .ok (.wreg 0x74#7 0x25#8)

/-- U11: a write of more than one byte has no meaning and is refused by name (log entry 8). -/
def Obligations.MultiByteWriteRefused : Prop :=
  ∀ (c : Params) (ra : RegAddr) (v v' : Byte) (vs : List Byte),
    decode c (.bus ((0#1 ++ ra : Byte) :: v :: v' :: vs)) = .error .multiByteWrite

/-! ### A step runs the decoded instruction -/

/-- Rules R36, R84, R146: a step at a state whose host presents a command word (at any moment, or by
a blocking call at `IDLE`) runs the decoded command on the state without that act; a step at a quiet
state whose staged bytes decode runs that transaction on the state with nothing staged. How a word comes
to the machine is the model's choice: log entries 1 and 8. -/
def Obligations.StepRunsDecodedInstruction : Prop :=
  (∀ (s : State) (w : CmdWord) (rest : List HostAct) (i : Instr), decode s.cfg (.cw w) = .ok i →
    s.host = .present w :: rest → step s = exec i { s with host := rest }) ∧
  (∀ (s : State) (w : CmdWord) (rest : List HostAct) (i : Instr), decode s.cfg (.cw w) = .ok i →
    s.host = .call w :: rest → s.seq = .idle → step s = exec i { s with host := rest }) ∧
  (∀ (s : State) (i : Instr), s.host = [] → s.hung = false → s.pending = [] →
    decode s.cfg (.bus s.stage) = .ok i → step s = exec i { s with stage := [] })

/-- The interface `withFetchWord`: `decodeTableWord` is the decoder at the default parameters, and the very
next step runs the instruction the decoder reads at the state's own parameters, a command on the state itself, a transaction on the state with the bus unit cleared (log entries 1 and 8). -/
def Obligations.PlacedRowRunsNext : Prop :=
  (∀ (nbits w : Nat) (i : Instr), decodeTableWord nbits w = some i ↔
    ∃ k : Code, tableCode nbits w = some k ∧ decode Params.default k = .ok i) ∧
  ∀ (s : State) (nbits w : Nat) (k : Code) (i : Instr), tableCode nbits w = some k →
    decode s.cfg k = .ok i →
    (8 < nbits → step (s.withFetchWord nbits w) = exec i s) ∧
    (nbits ≤ 8 → step (s.withFetchWord nbits w) =
      exec i { s with stage := [], pending := [], hung := false })

/-! ### The commands of unit B -/

/-- Rules R80, R84, R85: from `IDLE`, with a bus that is free and a quiet environment, `BEGIN` is
accepted and runs every step to its end. It reads the chip ID; on a match it issues 40 events, loads
`cal` from the 24 bytes received and ends with `STATUS_OK`; on a mismatch it issues 5 events and ends
with `STATUS_FAIL`, and `cal` is unspecified. Nothing else changes but the hidden registers of the
command, the sensor and the count of draws. The bytes received are the scripted ones where there are
any, and free where not. -/
def Obligations.BeginRunsToCompletion : Prop :=
  ∀ (s : State) (frame : Word), s.seq = .idle → BusFree s → Quiet s →
    exec (.begin frame) s = .next { s with seq := .b0 } ∧
    ∃ h1 id : Byte, s.miso.take 2 <+: [h1, id] ∧
      if id = s.cfg.chipIdExpect then
        ∃ (h2 r2 h3 r3 h4 : Byte) (cs : Vector Byte 24) (u : State),
          s.miso.take 31 <+: [h1, id, h2, r2, h3, r3, h4] ++ cs.toList ∧
          RunsTo 46 { s with seq := .b0 } u ∧
          u = { s with
            statusOut := s.cfg.statusOk
            cal := unpackAll s.cfg.calByteOrder cs
            idByte := id
            cbuf := cs
            rx := cs.toList
            spiMode := 0#2
            miso := s.miso.drop 31
            trace := s.trace ++ (.setMode 0#2 :: (readEvents (regOf s.cfg.chipIdReg) h1 [id] ++
              writeEvents (regOf s.cfg.configReg) h2 s.cfg.configValue r2 ++
              writeEvents (regOf s.cfg.ctrlMeasReg) h3 s.cfg.ctrlIdleValue r3 ++
              readEvents (regOf s.cfg.calibBase) h4 cs.toList))
            history := .beginOk :: s.history
            sensor := u.sensor
            draws := u.draws }
      else
        ∃ u : State,
          RunsTo 7 { s with seq := .b0 } u ∧
          u = { s with
            statusOut := s.cfg.statusFail
            cal := u.cal
            idByte := id
            rx := [id]
            spiMode := 0#2
            miso := s.miso.drop 2
            trace := s.trace ++ (.setMode 0#2 :: readEvents (regOf s.cfg.chipIdReg) h1 [id])
            history := .beginFail :: s.history
            sensor := u.sensor
            draws := u.draws }

/-- Rules R81, R84, R85, R138: from `IDLE`, with a bus that is free and a quiet environment, `FREAD` is
accepted and runs every step to its end, issuing 14 events, whether or not `cal` was ever loaded. Its
results are `COMP_T` and `COMP_P` over the coefficients held, the sample received and the `t_fine` of that
same sample. That `COMP_P32` of rule R97 stands in for `COMP_P` where `PRESS_VARIANT` says so is the model's
choice, log entry 7: rule R81 names `COMP_P` alone. -/
def Obligations.FreadRunsToCompletion : Prop :=
  ∀ (s : State) (frame : Word), s.seq = .idle → BusFree s → Quiet s →
    ∃ t : State, t = { s with
        seq := .f0
        stage := writeBytes (regOf s.cfg.ctrlMeasReg) s.cfg.ctrlForcedValue } ∧
      exec (.fread frame) s = .next t ∧
      ∃ (h1 r1 h2 : Byte) (ds : Vector Byte 6) (aP aT : Sample) (r : TempCalc) (u : State),
        s.miso.take 9 <+: [h1, r1, h2] ++ ds.toList ∧
        (aP, aT) = unpackAdc s.cfg.adcByteOrder ds ∧
        r = compT (calInt s 0) (calInt s 1) (calInt s 2) aT.toNat ∧
        RunsTo 20 t u ∧
        (s.cfg.pressVariant = .q24_8_int64 → u.pOut = BitVec.ofInt 32 (compP (calInt s 3) (calInt s 4)
          (calInt s 5) (calInt s 6) (calInt s 7) (calInt s 8) (calInt s 9) (calInt s 10) (calInt s 11)
          r.tFine aP.toNat)) ∧
        (s.cfg.pressVariant = .pa_int32 → u.pOut = BitVec.ofInt 32 (compP32 (calInt s 3) (calInt s 4)
          (calInt s 5) (calInt s 6) (calInt s 7) (calInt s 8) (calInt s 9) (calInt s 10) (calInt s 11)
          r.tFine aP.toNat)) ∧
        u = { s with
          tOut := BitVec.ofInt 32 r.t
          pOut := u.pOut
          dbuf := ds
          adcP := aP
          adcT := aT
          tFine := BitVec.ofInt 32 r.tFine
          tempVars := tempVarsOf r
          pressVars := u.pressVars
          tRes := BitVec.ofInt 32 r.t
          pRes := u.pOut
          rx := ds.toList
          miso := s.miso.drop 9
          trace := s.trace ++ (writeEvents (regOf s.cfg.ctrlMeasReg) h1 s.cfg.ctrlForcedValue r1 ++
            [.delay] ++ readEvents (regOf s.cfg.dataBase) h2 ds.toList)
          history := .fread :: s.history
          sensor := u.sensor
          draws := u.draws }

/-- Rules R84, R117, U7: a command word presented while `seq` is not `IDLE` has no effect. -/
def Obligations.CommandWhileBusyHasNoEffect : Prop :=
  ∀ (s : State) (w : CmdWord), s.seq ≠ .idle → exec (decodeCommand s.cfg w) s = .next s

/-- Rule R58, U6 (the hardware reading, log entry 10; that at other parameters than the defaults the reserved
code is the one no command has, log entry 7): the reserved code is not accepted at any step,
no state changes, no event is issued. -/
def Obligations.ReservedCodeHasNoEffect : Prop :=
  (∀ f : Word, decode Params.default (.cw (3#2 ++ f : CmdWord)) = .ok (.reservedOp3 f)) ∧
  ∀ (s : State) (op : BitVec 2) (f : Word), op ≠ s.cfg.cmdBegin → op ≠ s.cfg.cmdFread →
    op ≠ s.cfg.cmdCdec → decode s.cfg (.cw (op ++ f : CmdWord)) = .ok (.reservedOp3 f) ∧
      exec (.reservedOp3 f) s = .next s

/-- Rules R13, R80 steps B2 to B6: the sequencer moves only along its two step lists, `B2` branching
by the chip-ID compare, unless the host asserts reset. -/
def Obligations.SequencerFollowsStepLists : Prop :=
  ∀ s t : State, step s = .next t →
    t.seq = s.seq ∨ ((∃ rest, s.host = .reset :: rest) ∧ t.seq = .idle) ∨
    (s.seq = .idle ∧ (t.seq = .b0 ∨ t.seq = .f0)) ∨
    (s.seq = .b2 ∧ s.idByte = s.cfg.chipIdExpect ∧ t.seq = .b3) ∨
    (s.seq = .b2 ∧ s.idByte ≠ s.cfg.chipIdExpect ∧ t.seq = .idle) ∨
    (s.seq, t.seq) ∈ ([(.b0, .b1), (.b1, .b2), (.b3, .b4), (.b4, .b5), (.b5, .b6), (.b6, .idle),
      (.f0, .f1), (.f1, .f2), (.f2, .f3), (.f3, .f4), (.f4, .f5), (.f5, .f6), (.f6, .idle)] :
      List (Seq × Seq))

/-- Rules R11, R80: no step but `B6` of `BEGIN` (all twelve registers, from the block read) and a failed
`B2` writes `cal`, unless the host asserts reset. -/
def Obligations.OnlyBeginWritesCal : Prop :=
  ∀ s t : State, step s = .next t →
    t.cal = s.cal ∨ (∃ rest, s.host = .reset :: rest) ∨
    (s.seq = .b6 ∧ t.cal = unpackAll s.cfg.calByteOrder s.cbuf ∧ t.statusOut = s.cfg.statusOk) ∨
    (s.seq = .b2 ∧ s.idByte ≠ s.cfg.chipIdExpect ∧ t.statusOut = s.cfg.statusFail)

/-- Rule R16: each result register is written by one command only: `STATUS_OUT` by the last step of
`BEGIN`, `T_OUT` and `P_OUT` by step `F6`, `VAL_OUT` and `DP_OUT` by a command word presented at
`IDLE`; or the host asserts reset. -/
def Obligations.ResultRegistersHaveOneWriter : Prop :=
  ∀ s t : State, step s = .next t → (∀ rest, s.host ≠ .reset :: rest) →
    (t.statusOut = s.statusOut ∨ s.seq = .b2 ∨ s.seq = .b6) ∧
    ((t.tOut = s.tOut ∧ t.pOut = s.pOut) ∨ (s.seq = .f6 ∧ t.tOut = s.tRes ∧ t.pOut = s.pRes)) ∧
    ((t.valOut = s.valOut ∧ t.dpOut = s.dpOut) ∨ (s.seq = .idle ∧
      ∃ (w : CmdWord) (rest : List HostAct), w.extractLsb' 32 2 = s.cfg.cmdCdec ∧
        (s.host = .call w :: rest ∨ s.host = .present w :: rest)))

/-! ### Unit C -/

/-- Rule R105 step 1: the sentinel gives `(+0.0, 0)` and changes nothing else. -/
def Obligations.CdecNodataResult : Prop :=
  ∀ s : State, s.seq = .idle →
    exec .cdecNodata s =
      .next { s with valOut := 0x00000000#32, dpOut := 0#3, history := .cdec :: s.history }

/-- Rules R105, R106, R107: a metric frame gives the binary32 nearest to `mag / 100`, rounded once, its
sign bit the frame's, and two decimal places; nothing else changes. -/
def Obligations.CdecMetricResult : Prop :=
  ∀ (s : State) (hi : BitVec 8) (mid : BitVec 2) (sign : Bool) (mag : BitVec 20), s.seq = .idle →
    exec (.cdecMm hi mid sign mag) s =
      .next { s with
        valOut := BitVec.ofBool sign ++ (f32Round mag.toNat 100).extractLsb' 0 31
        dpOut := 2#3
        history := .cdec :: s.history }

/-- Rules R105, R106, R107: an imperial frame with the half bit clear gives the binary32 nearest to
`count / 1000`, rounded once, and three decimal places; nothing else changes. -/
def Obligations.CdecImperialResult : Prop :=
  ∀ (s : State) (hi : BitVec 8) (mid : BitVec 2) (sign : Bool) (count : BitVec 19), s.seq = .idle →
    exec (.cdecIn hi mid sign count) s =
      .next { s with
        valOut := BitVec.ofBool sign ++ (f32Round count.toNat 1000).extractLsb' 0 31
        dpOut := 3#3
        history := .cdec :: s.history }

/-- Rules R105, R106: an imperial frame with the half bit set rounds twice: the exact sum of the
binary32 nearest to `count / 1000` and of `lit(0.0005) = 8589935 / 2^34`, rounded, and four decimal
places; nothing else changes. -/
def Obligations.CdecImperialHalfResult : Prop :=
  ∀ (s : State) (hi : BitVec 8) (mid : BitVec 2) (sign : Bool) (count : BitVec 19), s.seq = .idle →
    exec (.cdecInh hi mid sign count) s =
      .next { s with
        valOut := BitVec.ofBool sign ++
          (f32Round ((f32Frac (f32Round count.toNat 1000)).1 * 2 ^ 34 +
            8589935 * (f32Frac (f32Round count.toNat 1000)).2)
            ((f32Frac (f32Round count.toNat 1000)).2 * 2 ^ 34)).extractLsb' 0 31
        dpOut := 4#3
        history := .cdec :: s.history }

/-- Rule R105, its pseudocode on the whole frame, for every command word whose `op` is `CMD_CDEC` presented
at `IDLE`. -/
def Obligations.CdecFollowsPseudocode : Prop :=
  ∀ (s : State) (frame : Word) (flt : Flt) (mag : Nat) (v : Word) (dp : BitVec 3), s.seq = .idle →
    s.cfg.codesDiffer = true → flt = s.cfg.flt → mag = (frame &&& 0xFFFFF#32).toNat →
    (v, dp) = (if frame = 0xFFFFFFFF#32 then (0x00000000#32, 0#3)
      else
        let vd : Word × BitVec 3 :=
          if frame.getLsbD 23 = false then (fdiv flt (u2f flt mag) (lit flt 100 1), 2#3)
          else if mag % 2 = 1 then
            (fadd flt (fdiv flt (u2f flt (mag / 2)) (lit flt 1000 1)) (lit flt 5 10000), 4#3)
          else (fdiv flt (u2f flt (mag / 2)) (lit flt 1000 1), 3#3)
        (if frame.getLsbD 20 then fneg flt vd.1 else vd.1, vd.2)) →
    exec (decodeCommand s.cfg (s.cfg.cmdCdec ++ frame : CmdWord)) s =
      .next { s with valOut := v, dpOut := dp, history := .cdec :: s.history }

/-- Rule R59: frame bits 31:24 and 22:21 are don't-care for every frame other than the sentinel; a frame
with all of bits 23, 20 and 19:0 set and any other bit clear decodes as imperial, negative, magnitude
1048575; no frame faults. -/
def Obligations.UnexaminedFrameBitsIgnored : Prop :=
  (∀ (c : Params) (s : State) (f g : Word), c.codesDiffer = true → f ≠ 0xFFFFFFFF#32 → g ≠ 0xFFFFFFFF#32 →
    f &&& 0x009FFFFF#32 = g &&& 0x009FFFFF#32 →
    exec (decodeCommand c (c.cmdCdec ++ f : CmdWord)) s =
      exec (decodeCommand c (c.cmdCdec ++ g : CmdWord)) s) ∧
  (∀ (c : Params) (f : Word), c.codesDiffer = true → f ≠ 0xFFFFFFFF#32 → f &&& 0x009FFFFF#32 = 0x009FFFFF#32 →
    decode c (.cw (c.cmdCdec ++ f : CmdWord)) =
      .ok (.cdecInh (f.extractLsb' 24 8) (f.extractLsb' 21 2) true 0x7FFFF#19)) ∧
  (∀ (c : Params) (s : State) (f : Word),
    ∃ t, exec (decodeCommand c (c.cmdCdec ++ f : CmdWord)) s = .next t)

/-- The source's property S5 (rule R105 step 5; spec/95_test_vectors.md): a frame with the sign bit set,
unless it is the sentinel, gives the result of the frame without it, with bit 31 of the value flipped. -/
def Obligations.SignBitNegates : Prop :=
  ∀ (s : State) (f : Word), s.seq = .idle → s.cfg.codesDiffer = true →
    f ||| 0x00100000#32 ≠ 0xFFFFFFFF#32 →
    ∃ v dp, exec (decodeCommand s.cfg (s.cfg.cmdCdec ++ (f &&& 0xFFEFFFFF#32) : CmdWord)) s =
        .next { s with valOut := v, dpOut := dp, history := .cdec :: s.history } ∧
      exec (decodeCommand s.cfg (s.cfg.cmdCdec ++ (f ||| 0x00100000#32) : CmdWord)) s =
        .next { s with valOut := v ^^^ 0x80000000#32, dpOut := dp, history := .cdec :: s.history }

/-- Rule R106: the rounding behind `u2f`, `lit`, `fdiv` and `fadd` gives the binary32 nearest to the
exact result, ties to even, for every non-negative fraction below `2^127`. -/
def Obligations.RoundingIsNearestEven : Prop :=
  ∀ num den : Nat, 0 < den → num < 2 ^ 127 * den →
    F32Nearest (f32Round num den) ((num : Rat) / (den : Rat))

/-- Rule R106: `u2f` is exact for every `n` below `2^20`, and the three literals have the patterns of
the table. -/
def Obligations.FloatConstantsAndIntegersExact : Prop :=
  (∀ n : Nat, n < 2 ^ 20 → f32Value (u2f .binary32 n) = n) ∧ u2f .binary32 0 = 0x00000000#32 ∧
  lit .binary32 100 1 = 0x42C80000#32 ∧ lit .binary32 1000 1 = 0x447A0000#32 ∧
  lit .binary32 5 10000 = 0x3A03126F#32 ∧
  f32Value 0x3A03126F#32 = 8589935 / 2 ^ 34 ∧
  (∀ a : Word, fneg .binary32 a = a ^^^ 0x80000000#32)

/-- Rules R1, R105, R136: the two units share no state: what a `CDEC` gives depends on nothing of the
state but the float format. -/
def Obligations.UnitCReadsNoState : Prop :=
  ∀ (c : Params) (s s' t t' : State) (f : Word), c.codesDiffer = true → s.seq = .idle →
    s'.seq = .idle → s.cfg.flt = s'.cfg.flt →
    exec (decodeCommand c (c.cmdCdec ++ f : CmdWord)) s = .next t →
    exec (decodeCommand c (c.cmdCdec ++ f : CmdWord)) s' = .next t' →
    t.valOut = t'.valOut ∧ t.dpOut = t'.dpOut

/-! ### Bus transactions -/

/-- Rule R70: `RREG a, n` with no event of another transaction due, in a quiet environment: its `Select`
at once, then the header `a | 0x80`, `n` dummy bytes whose answers are the result, and `Deselect`,
one event a step; nothing else changes but the sensor and the count of draws. -/
def Obligations.RregRunsItsTransaction : Prop :=
  ∀ (s : State) (a : Byte) (n : Nat), 1 ≤ n → Quiet s →
    ∃ (t u : State) (h : Byte) (bs : List Byte),
      exec (.rreg (regOf a) n) s = .next t ∧ t.sel = .low ∧ t.trace = s.trace ++ [.select] ∧
      RunsTo (n + 2) t u ∧ bs.length = n ∧ s.miso.take (n + 1) <+: h :: bs ∧
      u = { s with
        pending := []
        rx := bs
        sel := .high
        miso := s.miso.drop (n + 1)
        trace := s.trace ++ ([.select, .xfer (a ||| 0x80#8) h] ++ bs.map (Event.xfer 0x00#8) ++
          [.deselect])
        sensor := u.sensor
        draws := u.draws }

/-- Rule R71: `WREG a, v`, likewise: `Select`, the header `a & 0x7F`, the value byte, `Deselect`; both
received bytes are discarded. -/
def Obligations.WregRunsItsTransaction : Prop :=
  ∀ (s : State) (a v : Byte), Quiet s →
    ∃ (t u : State) (h r : Byte),
      exec (.wreg (regOf a) v) s = .next t ∧ t.sel = .low ∧ t.trace = s.trace ++ [.select] ∧
      RunsTo 3 t u ∧ s.miso.take 2 <+: [h, r] ∧
      u = { s with
        pending := []
        sel := .high
        miso := s.miso.drop 2
        trace := s.trace ++ [.select, .xfer (a &&& 0x7F#8) h, .xfer v r, .deselect]
        sensor := u.sensor
        draws := u.draws }

/-- Rules R31, R33, R18: a complete `WREG` stores its byte in the register it addresses (in the bits that
register has) and in no other; the registers the sensor keeps (`id`, the calibration block) and, by anything
but its reset code, every other register are as before, but for `ctrl_meas` and the data registers where a
conversion in progress may end; with no reference sensor nothing is stored. The reference sensor is a
premise R33 takes from general knowledge; its details are log entry 4. That the addressed register reads the
byte also where a conversion is in progress, one that ends at the same `Deselect` among them, is log entry 14.
The sensor's reset code is `WregResetsSensor`. The registers are where the parameters of rule R6 place them. -/
def Obligations.WregStoresOneRegister : Prop :=
  ∀ (s t u : State) (ra : RegAddr) (v : Byte), Quiet s →
    exec (.wreg ra v) s = .next t → RunsTo 3 t u →
    ¬ (resetReg s.cfg ra.toNat = true ∧ v = 0xB6#8) →
    (∀ x : Nat, x ≠ ra.toNat → s.sensor.conversions = [] ∨ conversionReg s.cfg x = false →
      u.sensor.regs.read s.cfg x = s.sensor.regs.read s.cfg x) ∧
    u.sensor.regs.read s.cfg ra.toNat =
      if s.sensor.present ∧ readOnlyReg s.cfg ra.toNat = false then regBits s.cfg ra.toNat v
      else s.sensor.regs.read s.cfg ra.toNat

/-- Rules R18, R33: with the reference sensor and no scripted byte, a complete `RREG` receives the content of
the registers from the one addressed on, one by one, all of one and the same conversion, bits 3:0 of the
`xlsb` registers as 0; of `status` it receives in bit 3, `measuring`, whether a conversion is in progress, and
free values in the other bits. No register changes but by a conversion that was in progress and ends after
it. The registers are where the parameters of rule R6 place them (log entries 4 and 14). -/
def Obligations.RregReadsSensorRegisters : Prop :=
  ∀ (s t u : State) (ra : RegAddr) (n : Nat), 1 ≤ n → Quiet s → s.sensor.present = true →
    s.miso = [] → ra.toNat + n ≤ 128 → exec (.rreg ra n) s = .next t → RunsTo (n + 2) t u →
    u.rx.length = n ∧
    (∀ k < n, ∃ b : Byte, u.rx[k]? = some b ∧
      if statusReg s.cfg (ra.toNat + k) then b.getLsbD 3 = !s.sensor.conversions.isEmpty
      else b = s.sensor.regs.read s.cfg (ra.toNat + k)) ∧
    (∀ x : Nat, x = s.cfg.dataAddr + 2 ∨ x = s.cfg.dataAddr + 5 →
      (s.sensor.regs.read s.cfg x).extractLsb' 0 4 = 0#4) ∧
    ∀ x : Nat, s.sensor.conversions = [] ∨ conversionReg s.cfg x = false →
      u.sensor.regs.read s.cfg x = s.sensor.regs.read s.cfg x

/-- What `exec` of an instruction leaves unchanged: every register of unit B, every result register (a
`CDEC` its own two apart; rules R16, R105) and every byte of the sensor's memory; only `RREG` and `WREG`
touch the bus. That `exec` of these two is the `Select` alone, so that no byte is received and none stored
yet, is the model's choice, log entry 8; `RregRunsItsTransaction`, `WregRunsItsTransaction` and
`WregStoresOneRegister` say what the whole transaction does. -/
def Obligations.InstructionFrame : Prop :=
  ∀ (i : Instr) (s t : State), exec i s = .next t →
    (t.cfg = s.cfg ∧ t.cal = s.cal ∧ t.statusOut = s.statusOut ∧ t.tOut = s.tOut ∧ t.pOut = s.pOut ∧
      t.idByte = s.idByte ∧ t.cbuf = s.cbuf ∧ t.dbuf = s.dbuf ∧ t.adcP = s.adcP ∧ t.adcT = s.adcT ∧
      t.tFine = s.tFine ∧ t.tempVars = s.tempVars ∧ t.pressVars = s.pressVars ∧ t.tRes = s.tRes ∧
      t.pRes = s.pRes ∧ t.spiMode = s.spiMode ∧ t.miso = s.miso ∧ t.host = s.host) ∧
    (∀ a : Nat, t.sensor.regs.read s.cfg a = s.sensor.regs.read s.cfg a) ∧
    ((t.valOut = s.valOut ∧ t.dpOut = s.dpOut ∧ t.history = s.history) ∨ i = .cdecNodata ∨
      (∃ hi mid sign mag, i = .cdecMm hi mid sign mag) ∨
      (∃ hi mid sign count, i = .cdecIn hi mid sign count) ∨
      (∃ hi mid sign count, i = .cdecInh hi mid sign count)) ∧
    ((t.sel = s.sel ∧ t.trace = s.trace ∧ t.rx = s.rx ∧ t.pending = s.pending ∧ t.hung = s.hung ∧
        t.hangs = s.hangs ∧ t.sensor = s.sensor ∧ t.draws = s.draws) ∨
      (∃ ra n, i = .rreg ra n) ∨ (∃ ra v, i = .wreg ra v)) ∧
    ((t.seq = s.seq ∧ (t.stage = s.stage)) ∨ (∃ f, i = .begin f) ∨ (∃ f, i = .fread f))

/-- With the reference sensor holding the expected chip id and no scripted byte, wherever the parameters place
its registers apart, `BEGIN` succeeds and loads each coefficient from its two registers, at the default
`CAL_BYTE_ORDER` the lower address the low byte; `ctrl_meas` then holds `CTRL_IDLE_VALUE`, a sleep-mode value
as its default is, and `config` holds `CONFIG_VALUE` (rules R6, R18, R33, R53, R80; log entry 4). -/
def Obligations.BeginLoadsReferenceSensor : Prop :=
  ∀ (s : State) (frame : Word), mapApart s.cfg = true → s.cfg.ctrlIdleValue.extractLsb' 0 2 = 0#2 →
    s.seq = .idle → BusFree s → Quiet s → s.sensor.present = true → s.miso = [] →
    s.sensor.regs.read s.cfg s.cfg.idAddr = s.cfg.chipIdExpect →
    ∃ t u : State, exec (.begin frame) s = .next t ∧ RunsTo 46 t u ∧ u.seq = .idle ∧
      u.statusOut = s.cfg.statusOk ∧ CalLoaded u = true ∧
      (∀ (i : Fin 12) (first second : Byte),
        first = s.sensor.regs.read s.cfg (s.cfg.calibAddr + 2 * i.val) →
        second = s.sensor.regs.read s.cfg (s.cfg.calibAddr + 2 * i.val + 1) →
        (s.cfg.calByteOrder = .lowByteFirst → (u.cal[i]).toNat = first.toNat + 256 * second.toNat) ∧
        (s.cfg.calByteOrder = .highByteFirst → (u.cal[i]).toNat = second.toNat + 256 * first.toNat)) ∧
      u.sensor.regs.read s.cfg s.cfg.ctrlMeasAddr = s.cfg.ctrlIdleValue ∧
      u.sensor.regs.read s.cfg s.cfg.configAddr = s.cfg.configValue

/-- With the reference sensor and no scripted byte, wherever the parameters place its registers apart, `FREAD`
compensates the sample of the conversion it triggers, a channel of oversampling code 000 skipped (rule R18),
and `ctrl_meas` reads back in sleep mode, under the named premise of rule R141 that the delay outlasts the
conversion (`DelayOutlasts`), whatever other conversion is in progress. `CTRL_FORCED_VALUE` has a mode that
starts a conversion, as its default has (rules R6, R33, R40, R81, R92, R95; log entries 4 and 14). -/
def Obligations.FreadCompensatesNewSample : Prop :=
  ∀ (s : State) (frame : Word) (rawP rawT aP aT : Sample) (more : List (Sample × Sample)),
    mapApart s.cfg = true → forcedMode s.cfg.ctrlForcedValue = true →
    s.cfg.pressVariant = .q24_8_int64 → s.seq = .idle → BusFree s → Quiet s →
    s.sensor.present = true → s.miso = [] → s.sensor.samples = (rawP, rawT) :: more →
    DelayOutlasts s.sensor →
    aP = (if s.cfg.ctrlForcedValue.extractLsb' 2 3 = 0#3 then 0x80000#20 else rawP) →
    aT = (if s.cfg.ctrlForcedValue.extractLsb' 5 3 = 0#3 then 0x80000#20 else rawT) →
    ∃ t u : State, exec (.fread frame) s = .next t ∧ RunsTo 20 t u ∧ u.seq = .idle ∧
      u.adcP = aP ∧ u.adcT = aT ∧
      u.tOut = BitVec.ofInt 32 (compT (calInt s 0) (calInt s 1) (calInt s 2) aT.toNat).t ∧
      u.pOut = BitVec.ofInt 32 (compP (calInt s 3) (calInt s 4) (calInt s 5) (calInt s 6) (calInt s 7)
        (calInt s 8) (calInt s 9) (calInt s 10) (calInt s 11)
        (compT (calInt s 0) (calInt s 1) (calInt s 2) aT.toNat).tFine aP.toNat) ∧
      u.sensor.samples = more ∧
      u.sensor.regs.read s.cfg s.cfg.ctrlMeasAddr = s.cfg.ctrlForcedValue &&& 0xFC#8 ∧
      (∀ x : Nat, conversionReg s.cfg x = false →
        u.sensor.regs.read s.cfg x = s.sensor.regs.read s.cfg x)

/-! ### Operand assembly and arithmetic -/

/-- Rule R82: the pattern of coefficient `i` is `c[2i+1] ++ c[2i]`, and it reads as `zext_16` for `i` in
`{0, 3}` and as `sext_16` for the rest. -/
def Obligations.UnpackCalAssemblesCoefficients : Prop :=
  ∀ (buf : Vector Byte 24) (i : Fin 12) (s : State) (pattern : Nat), s.cfg = Params.default →
    s.cal = unpackAll s.cfg.calByteOrder buf →
    pattern = (buf[2 * i.val]).toNat + 256 * (buf[2 * i.val + 1]).toNat →
    (s.cal[i]).toNat = pattern ∧
    calInt s i = if i = 0 ∨ i = 3 then zextN 16 pattern else sextN 16 pattern

/-- Rule R83: the two samples; the low nibbles of `d[2]` and `d[5]` do not affect them. -/
def Obligations.UnpackAdcAssemblesSamples : Prop :=
  ∀ d : Vector Byte 6,
    (unpackAdc .msbFirst d).1.toNat = d[0].toNat * 2 ^ 12 + d[1].toNat * 2 ^ 4 + d[2].toNat / 2 ^ 4 ∧
    (unpackAdc .msbFirst d).2.toNat = d[3].toNat * 2 ^ 12 + d[4].toNat * 2 ^ 4 + d[5].toNat / 2 ^ 4

/-- Rule R92: `COMP_T` in 32-bit two's complement words, shift by shift. -/
def Obligations.CompTIsTheWordFormula : Prop :=
  ∀ (t1 t2 t3 : Half) (adcT : Sample) (T1 T2 T3 a d var1 var2 tFine t : Word),
    T1 = t1.zeroExtend 32 → T2 = t2.signExtend 32 → T3 = t3.signExtend 32 →
    a = (adcT.zeroExtend 32 >>> 3) - (T1 <<< 1) → d = (adcT.zeroExtend 32 >>> 4) - T1 →
    var1 = (a * T2).sshiftRight 11 →
    var2 = ((d * d).sshiftRight 12 * T3).sshiftRight 14 →
    tFine = var1 + var2 → t = (tFine * 5#32 + 128#32).sshiftRight 8 →
    (compT t1.toNat t2.toInt t3.toInt adcT.toNat).tFine = tFine.toInt ∧
    (compT t1.toNat t2.toInt t3.toInt adcT.toNat).t = t.toInt

/-- Rule R93: the ranges of `COMP_T` over every operand, where its intermediates can wrap, and the exact
value under `NoWrapT`. -/
def Obligations.CompTRanges : Prop :=
  ∀ (t1 t2 t3 adcT : Int) (r : TempCalc), 0 ≤ t1 → t1 ≤ 65535 → -32768 ≤ t2 → t2 ≤ 32767 →
    -32768 ≤ t3 → t3 ≤ 32767 → 0 ≤ adcT → adcT < 2 ^ 20 → r = compT t1 t2 t3 adcT →
    (r.a = adcT / 8 - 2 * t1 ∧ -131070 ≤ r.a ∧ r.a ≤ 131071) ∧
    (r.d = adcT / 16 - t1 ∧ -65535 ≤ r.d ∧ r.d ≤ 65535) ∧
    (|r.a| ≤ 65535 → r.m1 = r.a * t2) ∧ (r.sq ≠ r.d * r.d ↔ 46341 ≤ |r.d|) ∧
    (|t3| ≤ 4095 → r.m2 = asr r.sq 12 * t3) ∧
    (-2 ^ 20 ≤ r.var1 ∧ r.var1 ≤ 2 ^ 20 - 1) ∧ (-2 ^ 17 ≤ r.var2 ∧ r.var2 ≤ 2 ^ 17 - 1) ∧
    (-1179648 ≤ r.tFine ∧ r.tFine ≤ 1179646) ∧ r.tFine = r.var1 + r.var2 ∧
    r.t = asr (r.tFine * 5 + 128) 8 ∧ -23040 ≤ r.t ∧ r.t ≤ 23040 ∧
    (NoWrapT t1 t2 t3 adcT → r.t = exactT t1 t2 t3 adcT)

/-- Rule R95: `COMP_P` in 64-bit two's complement words, line by line; the division rounds toward zero,
a zero divisor gives 0, and the result is the low 32 bits. -/
def Obligations.CompPIsTheWordFormula : Prop :=
  ∀ (p1 p2 p3 p4 p5 p6 p7 p8 p9 : Half) (tFine : Word) (adcP : Sample)
    (P1 P2 P3 P4 P5 P6 P7 P8 P9 x v2 v1 q w1 w2 p : DWord),
    P1 = p1.zeroExtend 64 → P2 = p2.signExtend 64 → P3 = p3.signExtend 64 → P4 = p4.signExtend 64 →
    P5 = p5.signExtend 64 → P6 = p6.signExtend 64 → P7 = p7.signExtend 64 → P8 = p8.signExtend 64 →
    P9 = p9.signExtend 64 → x = tFine.signExtend 64 - 128000#64 →
    v2 = x * x * P6 + ((x * P5) <<< 17) + (P4 <<< 35) →
    v1 = (((1#64 <<< 47) + ((x * x * P3).sshiftRight 8 + ((x * P2) <<< 12))) * P1).sshiftRight 33 →
    q = ((((1048576#64 - adcP.zeroExtend 64) <<< 31) - v2) * 3125#64).sdiv v1 →
    w1 = (P9 * q.sshiftRight 13 * q.sshiftRight 13).sshiftRight 25 →
    w2 = (P8 * q).sshiftRight 19 →
    p = (q + w1 + w2).sshiftRight 8 + (P7 <<< 4) →
    BitVec.ofInt 32 (compP p1.toNat p2.toInt p3.toInt p4.toInt p5.toInt p6.toInt p7.toInt p8.toInt
      p9.toInt tFine.toInt adcP.toNat) = if v1 = 0#64 then 0#32 else p.extractLsb' 0 32

/-- Rule R95 corner case 1: `P1 = 0` gives 0, whatever the other inputs. -/
def Obligations.ZeroP1GivesZeroPressure : Prop :=
  ∀ p2 p3 p4 p5 p6 p7 p8 p9 tFine adcP : Int,
    compP 0 p2 p3 p4 p5 p6 p7 p8 p9 tFine adcP = 0

/-- Rule R96: under `NoWrapP` the pressure is the formula in the integers with floor shifts and a
truncating division; and already so where the named values alone are exact (`NamedNoWrapP`), which `NoWrapP`
gives for every 16-bit `P7`. -/
def Obligations.CompPExactWithoutWrap : Prop :=
  ∀ p1 p2 p3 p4 p5 p6 p7 p8 p9 tFine adcP : Int,
    (NamedNoWrapP p1 p2 p3 p4 p5 p6 p7 p8 p9 tFine adcP →
      compP p1 p2 p3 p4 p5 p6 p7 p8 p9 tFine adcP = exactP p1 p2 p3 p4 p5 p6 p7 p8 p9 tFine adcP) ∧
    (-32768 ≤ p7 → p7 ≤ 32767 → NoWrapP p1 p2 p3 p4 p5 p6 p7 p8 p9 tFine adcP →
      NamedNoWrapP p1 p2 p3 p4 p5 p6 p7 p8 p9 tFine adcP ∧
      compP p1 p2 p3 p4 p5 p6 p7 p8 p9 tFine adcP = exactP p1 p2 p3 p4 p5 p6 p7 p8 p9 tFine adcP)

/-- Rule R97: the alternative routine `COMP_P32` in 32-bit words. -/
def Obligations.CompP32IsTheWordFormula : Prop :=
  ∀ (p1 p2 p3 p4 p5 p6 p7 p8 p9 : Half) (tFine : Word) (adcP : Sample)
    (P1 P2 P3 P4 P5 P6 P7 P8 P9 x q v2a v2b v2 v1 pa p w1 w2 : Word),
    P1 = p1.zeroExtend 32 → P2 = p2.signExtend 32 → P3 = p3.signExtend 32 → P4 = p4.signExtend 32 →
    P5 = p5.signExtend 32 → P6 = p6.signExtend 32 → P7 = p7.signExtend 32 → P8 = p8.signExtend 32 →
    P9 = p9.signExtend 32 → x = tFine.sshiftRight 1 - 64000#32 → q = x.sshiftRight 2 →
    v2a = (q * q).sshiftRight 11 * P6 → v2b = v2a + ((x * P5) <<< 1) →
    v2 = v2b.sshiftRight 2 + (P4 <<< 16) →
    v1 = ((32768#32 + ((P3 * (q * q).sshiftRight 13).sshiftRight 3 +
      (P2 * x).sshiftRight 1).sshiftRight 18) * P1).sshiftRight 15 →
    pa = (1048576#32 - adcP.zeroExtend 32 - v2.sshiftRight 12) * 3125#32 →
    p = (if pa < 0x80000000#32 then (pa <<< 1) / v1 else (pa / v1) * 2#32) →
    w1 = (P9 * (((p >>> 3) * (p >>> 3)) >>> 13)).sshiftRight 12 →
    w2 = ((p >>> 2) * P8).sshiftRight 13 →
    BitVec.ofInt 32 (compP32 p1.toNat p2.toInt p3.toInt p4.toInt p5.toInt p6.toInt p7.toInt p8.toInt
      p9.toInt tFine.toInt adcP.toNat) =
      if v1 = 0#32 then 0#32 else p + (w1 + w2 + P7).sshiftRight 4

/-! ### Reset, stuck calls, and the whole machine -/

/-- Rule R22, R12: the values the spec gives for reset; every other register holds a free value
(log entry 5), of which nothing is stated. -/
def Obligations.ResetState : Prop :=
  State.reset.seq = .idle ∧ State.reset.busy = false ∧ State.reset.sel = .high ∧
  CalLoaded State.reset = false ∧ RunEnded State.reset = true ∧ State.reset.cfg = Params.default

/-- Rule R135: reset, at any time, in the middle of a command or a transaction too: the block is at
`IDLE`, the select line is deasserted, and that deassertion is the only event; the parameters, and
outside a transaction the sensor, are as before (in one, what the sensor makes of it is any value: U8, log
entry 4). -/
def Obligations.ResetAtAnyTime : Prop :=
  ∀ (s : State) (rest : List HostAct), s.host = .reset :: rest →
    ∃ t : State, step s = .next t ∧ t.seq = .idle ∧ t.sel = .high ∧ t.busy = false ∧
      CalLoaded t = false ∧ t.stage = [] ∧ t.pending = [] ∧ t.hung = false ∧ t.cfg = s.cfg ∧
      t.spiMode = s.spiMode ∧ t.host = rest ∧
      (s.sel = .low → t.trace = s.trace ++ [.deselect]) ∧
      (s.sel = .high → t.trace = s.trace ∧ t.sensor = s.sensor)

/-- Rule R85, U5: when a call has not returned in the middle of a command, no step but reset changes
anything except that the host's acts pass (the stutter is the model's form of U5's stuck: log
entry 3). -/
def Obligations.StuckUntilReset : Prop :=
  ∀ s t : State, s.hung = true → s.seq ≠ .idle → (∀ rest, s.host ≠ .reset :: rest) →
    step s = .next t → t = { s with host := t.host }

/-- Rules R85, R126, U5: a capability call that never returns leaves the block stuck at the step it is in,
with no event, no change of the select line and no result: in the `Select` of a transaction, in any
later event of one, in the `SetMode` of `B0`, in the `Delay` of `F1` (that such a call records no event is log
entry 3). -/
def Obligations.UnreturnedCallSticks : Prop :=
  (∀ (s : State) (rest : List Nat) (ra : RegAddr) (n : Nat), s.hangs = 0 :: rest →
    exec (.rreg ra n) s = .next { s with
      rx := [], pending := readOps ra n, hangs := rest, hung := true }) ∧
  (∀ (s : State) (rest : List Nat) (ra : RegAddr) (v : Byte), s.hangs = 0 :: rest →
    exec (.wreg ra v) s = .next { s with pending := writeOps ra v, hangs := rest, hung := true }) ∧
  (∀ (s : State) (rest : List Nat), s.host = [] → s.hung = false → s.hangs = 0 :: rest →
    (s.pending ≠ [] ∨ (s.pending = [] ∧ s.stage = [] ∧ (s.seq = .b0 ∨ s.seq = .f1))) →
    step s = .next { s with hangs := rest, hung := true })

/-- Rule R147: with no act of the host to come, the block waits at `IDLE` for ever. -/
def Obligations.IdleBlockWaits : Prop :=
  ∀ s : State, s.host = [] → s.seq = .idle → BusFree s → step s = .next s

/-- A step never faults, which is the model's reading of rules R115 to R117 (log entry 12: the type of faults
is empty, and of U1's fault or draw the draw is taken); and where the discipline of the bus holds every step
answers a next state. -/
def Obligations.MachineNeverStops : Prop :=
  (∀ (s : State) (r : Fault), step s ≠ .fault r) ∧
  ∀ s : State, BusDiscipline s → ∃ t, step s = .next t

/-- Rules R30, R39: at most one bus event a step, appended to those before (log entry 8). -/
def Obligations.OneBusEventAStep : Prop :=
  ∀ s t : State, step s = .next t → t.trace = s.trace ∨ ∃ e, t.trace = s.trace ++ [e]

/-- Rule R23 (log entry 7): no step changes a parameter. -/
def Obligations.NoStepChangesParameters : Prop :=
  ∀ s t : State, step s = .next t → t.cfg = s.cfg

/-! ### Invariants every step keeps -/

/-- Rules R17, R31, R36, R39: the discipline of the bus (`BusDiscipline`): a step's transaction is one of
the six accesses, its events follow one another, the select line is low exactly between `Select` and
`Deselect`, a read receives the bytes it asks for, and the bus is free at `IDLE`. -/
def Obligations.BusDisciplineKept : Prop :=
  ∀ s t : State, BusDiscipline s → step s = .next t → BusDiscipline t

/-- Rule R17: the select line is where the events issued so far left it (`SelectLineInv`), low exactly
after a `Select` that no `Deselect` followed. -/
def Obligations.SelectLineFollowsTrace : Prop :=
  ∀ s t : State, SelectLineInv s → step s = .next t → SelectLineInv t

/-- The sensor's memory keeps its canonical form at whatever parameters (the model's own: log entry 6; rules
R20, R33). -/
def Obligations.MemoryStaysCanonical : Prop :=
  ∀ s t : State, s.sensor.regs.wf s.cfg = true → step s = .next t → t.sensor.regs.wf t.cfg = true

/-- Rules R10, R93, U3: after an `FREAD` has completed, whatever the coefficients, `T_OUT` is in
`-23040 .. 23040` (`TemperatureInv`). -/
def Obligations.TemperatureStaysInRange : Prop :=
  ∀ s t : State, TemperatureInv s → step s = .next t → TemperatureInv t

/-- Rule R108, U3: after a `CDEC` has completed, `DP_OUT` is 0, 2, 3 or 4 (`DecimalPlacesInv`). -/
def Obligations.DecimalPlacesStayLegal : Prop :=
  ∀ s t : State, DecimalPlacesInv s → step s = .next t → DecimalPlacesInv t

/-- Rules R12, R115, U3: after a `BEGIN` has completed, `STATUS_OUT` is `STATUS_OK` or `STATUS_FAIL`, and
`STATUS_OK` where `CalLoaded` holds (`StatusInv`). -/
def Obligations.StatusStaysLegal : Prop :=
  ∀ s t : State, StatusInv s → step s = .next t → StatusInv t

/-- The invariants above hold at reset. -/
def Obligations.InvariantsHoldAtReset : Prop :=
  BusDiscipline State.reset ∧ SelectLineInv State.reset ∧ State.reset.sensor.regs.wf State.reset.cfg = true ∧
  TemperatureInv State.reset ∧ DecimalPlacesInv State.reset ∧ StatusInv State.reset

/-! ### The conversion wait -/

/-- Rules R40, R141: with the reference sensor asleep and `T_MEAS` too short for the conversion triggered
(`DelayTooShort`), `FREAD` reads what the data registers held before, and gives a correctly computed
compensation of that sample, with no indication, wherever the parameters place the sensor's registers
apart (log entries 4 and 14). -/
def Obligations.ShortDelayGivesHeldSample : Prop :=
  ∀ (s : State) (frame : Word) (ds : Vector Byte 6) (aP aT : Sample), mapApart s.cfg = true →
    s.cfg.pressVariant = .q24_8_int64 → s.seq = .idle → BusFree s → Quiet s → s.sensor.present = true →
    s.miso = [] → s.sensor.conversions = [] → DelayTooShort s.sensor →
    ds = Vector.ofFn (fun i : Fin 6 => s.sensor.regs.read s.cfg (s.cfg.dataAddr + i.val)) →
    (aP, aT) = unpackAdc .msbFirst ds →
    ∃ t u : State, exec (.fread frame) s = .next t ∧ RunsTo 20 t u ∧ u.seq = .idle ∧ u.dbuf = ds ∧
      u.adcP = aP ∧ u.adcT = aT ∧
      u.tOut = BitVec.ofInt 32 (compT (calInt s 0) (calInt s 1) (calInt s 2) aT.toNat).t ∧
      u.pOut = BitVec.ofInt 32 (compP (calInt s 3) (calInt s 4) (calInt s 5) (calInt s 6) (calInt s 7)
        (calInt s 8) (calInt s 9) (calInt s 10) (calInt s 11)
        (compT (calInt s 0) (calInt s 1) (calInt s 2) aT.toNat).tFine aP.toNat) ∧
      u.statusOut = s.statusOut

/-! ### The sensor's own reset -/

/-- Rule R18 (`0xE0` `reset`: "writing `0xB6` resets the sensor"): a complete `WREG` of that code leaves every
register at its reset content, those the sensor keeps (`id`, the calibration block) as before, and no
conversion in progress; with no reference sensor nothing changes. What the sensor's reset leaves is the
model's choice, log entries 4, 6 and 14; the block itself never issues this write (rule R36). `reset` is
register 0x60 (0xE0) unless an address parameter puts another there (log entry 4). -/
def Obligations.WregResetsSensor : Prop :=
  ∀ (s t u : State) (ra : RegAddr), Quiet s → resetReg s.cfg ra.toNat = true →
    exec (.wreg ra 0xB6#8) s = .next t → RunsTo 3 t u →
    (s.sensor.present = true → u.sensor.conversions = [] ∧
      ∀ x : Nat, u.sensor.regs.read s.cfg x =
        if readOnlyReg s.cfg x then s.sensor.regs.read s.cfg x else Memory.unlisted s.cfg x) ∧
    (s.sensor.present = false → u.sensor = s.sensor)
end

