-- ==== Sys2Proof/Laws/Arith.lean ====
section
/-! SUPPORT. The laws of the integer primitives (spec/42_compensation.md rule R91). -/

namespace Sys2Proof.Machine

/-- `wrap32` lands in the signed 32-bit range. -/
theorem wrap32_range (x : Int) : -2 ^ 31 ≤ wrap32 x ∧ wrap32 x < 2 ^ 31 := by
  unfold wrap32 sextN zextN
  split <;> omega

/-- `wrap64` lands in the signed 64-bit range. -/
theorem wrap64_range (x : Int) : -2 ^ 63 ≤ wrap64 x ∧ wrap64 x < 2 ^ 63 := by
  unfold wrap64 sextN zextN
  split <;> omega

/-- A value in the signed 32-bit range is its own reduction. -/
theorem wrap32_of_range {x : Int} (h : -2 ^ 31 ≤ x ∧ x < 2 ^ 31) : wrap32 x = x := by
  unfold wrap32 sextN zextN
  split <;> omega

/-- A value in the signed 64-bit range is its own reduction. -/
theorem wrap64_of_range {x : Int} (h : -2 ^ 63 ≤ x ∧ x < 2 ^ 63) : wrap64 x = x := by
  unfold wrap64 sextN zextN
  split <;> omega

/-- `wrap32` is the integer a 32-bit word reads as in two's complement. -/
theorem wrap32_eq_toInt (x : Int) : wrap32 x = (BitVec.ofInt 32 x).toInt := by
  rw [BitVec.toInt_ofInt]
  unfold wrap32 sextN zextN Int.bmod
  split <;> (simp only []; split <;> omega)

/-- `wrap64` is the integer a 64-bit word reads as in two's complement. -/
theorem wrap64_eq_toInt (x : Int) : wrap64 x = (BitVec.ofInt 64 x).toInt := by
  rw [BitVec.toInt_ofInt]
  unfold wrap64 sextN zextN Int.bmod
  split <;> (simp only []; split <;> omega)

/-- The word of a 32-bit value reads back as that value. -/
theorem toInt_ofInt32 {x : Int} (h : -2 ^ 31 ≤ x ∧ x < 2 ^ 31) : (BitVec.ofInt 32 x).toInt = x := by
  rw [← wrap32_eq_toInt, wrap32_of_range h]

/-- `asr` is the arithmetic shift of the integer. -/
theorem asr_eq_shiftRight (x : Int) (n : Nat) : asr x n = x >>> n := by
  rw [Int.shiftRight_eq_div_pow, asr]; norm_cast

/-- `tdiv64` is the wrapped quotient rounded toward zero. -/
theorem tdiv64_eq (a b : Int) : tdiv64 a b = wrap64 (a.tdiv b) := by
  have habs : ∀ n : Nat, |(n : Int) + 1| = n + 1 := fun n => abs_of_nonneg (by positivity)
  unfold tdiv64
  congr 1
  cases a with
  | ofNat m => cases b with
    | ofNat n => rcases m with _ | m <;> rcases n with _ | n <;> simp [Int.tdiv, Int.sign, habs]
    | negSucc n => rcases m with _ | m <;> simp [Int.tdiv, Int.sign, habs]
  | negSucc m => cases b with
    | ofNat n => rcases n with _ | n <;> simp [Int.tdiv, Int.sign, habs]
    | negSucc n => simp [Int.tdiv, Int.sign]

end Sys2Proof.Machine
end

