-- ==== Sys2Proof/Laws/Codec.lean ====
section
/-! SUPPORT. The bits of the encoder's words, and the decoder on them (spec/30_encoding.md). -/

namespace Sys2Proof

theorem getLsbD_cmdWord (op : BitVec 2) (f : Word) (i : Nat) :
    (cmdWord op f).getLsbD i = if i < 32 then f.getLsbD i else op.getLsbD (i - 32) :=
  BitVec.getLsbD_append

theorem getLsbD_header (rd : Bool) (ra : RegAddr) (i : Nat) :
    (header rd ra).getLsbD i = if i < 7 then ra.getLsbD i else (decide (i = 7) && rd) := by
  have h : (header rd ra).getLsbD i =
      if i < 7 then ra.getLsbD i else (BitVec.ofBool rd).getLsbD (i - 7) := BitVec.getLsbD_append
  rw [h]
  split
  · rfl
  · rw [BitVec.getLsbD_ofBool]; congr 1; simp; omega

/-- The bits of a frame (rule R55). -/
theorem getLsbD_frameOf (hi : BitVec 8) (unit : Bool) (mid : BitVec 2) (sign : Bool)
    (mag : BitVec 20) (i : Nat) :
    (frameOf hi unit mid sign mag).getLsbD i =
      if i < 20 then mag.getLsbD i else if i = 20 then sign
      else if i < 23 then mid.getLsbD (i - 21)
      else if i = 23 then unit else hi.getLsbD (i - 24) := by
  unfold frameOf
  simp only [BitVec.getLsbD_append, BitVec.getLsbD_ofBool]
  split_ifs with h1 h2 h3 h4 h5 h6 h7 <;> first | omega | rfl | (simp; try omega)

@[simp] theorem cmdWord_op (op : BitVec 2) (f : Word) : (cmdWord op f).extractLsb' 32 2 = op := by
  apply BitVec.eq_of_getLsbD_eq
  intro i hi
  rw [BitVec.getLsbD_extractLsb', getLsbD_cmdWord, if_neg (by omega)]
  simp [hi]

@[simp] theorem cmdWord_frame (op : BitVec 2) (f : Word) :
    (cmdWord op f).extractLsb' 0 32 = f := by
  apply BitVec.eq_of_getLsbD_eq
  intro i hi
  rw [BitVec.getLsbD_extractLsb', getLsbD_cmdWord, if_pos (by omega)]
  simp [hi]

/-- A command word is its `op` and its `frame`. -/
theorem cmdWord_fields (w : CmdWord) : cmdWord (w.extractLsb' 32 2) (w.extractLsb' 0 32) = w := by
  apply BitVec.eq_of_getLsbD_eq
  intro i hi
  rw [getLsbD_cmdWord]
  split
  · rename_i h; rw [BitVec.getLsbD_extractLsb']; simp [h]
  · rw [BitVec.getLsbD_extractLsb']
    have h1 : i - 32 < 2 := by omega
    have h2 : 32 + (i - 32) = i := by omega
    simp [h1, h2]

/-! ### The command codes (rules R6, R50, R58) -/

theorem Params.codesDiffer_iff (c : Params) :
    c.codesDiffer = true ↔ c.cmdBegin ≠ c.cmdFread ∧ c.cmdBegin ≠ c.cmdCdec ∧ c.cmdFread ≠ c.cmdCdec := by
  simp [Params.codesDiffer, and_assoc]

/-- Of three different codes of two bits, a code is none of them exactly when it is their exclusive or. -/
theorem Params.reserved_iff {c : Params} (h : c.codesDiffer = true) (op : BitVec 2) :
    op = c.cmdReserved ↔ op ≠ c.cmdBegin ∧ op ≠ c.cmdFread ∧ op ≠ c.cmdCdec := by
  have key : ∀ a b d e : BitVec 2, a ≠ b → a ≠ d → b ≠ d →
      (e = a ^^^ b ^^^ d ↔ e ≠ a ∧ e ≠ b ∧ e ≠ d) := by decide +kernel
  obtain ⟨h1, h2, h3⟩ := (Params.codesDiffer_iff c).mp h
  exact key _ _ _ op h1 h2 h3

theorem decodeCommand_cdec {c : Params} (h : c.codesDiffer = true) (f : Word) :
    decodeCommand c (cmdWord c.cmdCdec f) = decodeFrame f := by
  obtain ⟨_, h2, h3⟩ := (Params.codesDiffer_iff c).mp h
  simp [decodeCommand, h2.symm, h3.symm]

theorem decodeCommand_reserved {c : Params} (h : c.codesDiffer = true) (f : Word) :
    decodeCommand c (cmdWord c.cmdReserved f) = .reservedOp3 f := by
  obtain ⟨h1, h2, h3⟩ := (Params.reserved_iff h _).mp rfl
  simp [decodeCommand, h1, h2, h3]

/-! ### Transactions -/

theorem header_flag (rd : Bool) (ra : RegAddr) : (header rd ra).getLsbD 7 = rd := by
  rw [getLsbD_header]; rfl

@[simp] theorem header_getElem_flag (rd : Bool) (ra : RegAddr) : (header rd ra)[7] = rd := by
  rw [← BitVec.getLsbD_eq_getElem, header_flag]

@[simp] theorem header_reg (rd : Bool) (ra : RegAddr) : (header rd ra).extractLsb' 0 7 = ra := by
  apply BitVec.eq_of_getLsbD_eq
  intro i hi
  rw [BitVec.getLsbD_extractLsb', Nat.zero_add, getLsbD_header, if_pos hi]
  simp [hi]

@[simp] theorem regOf_header (rd : Bool) (ra : RegAddr) : regOf (header rd ra) = ra :=
  header_reg rd ra

/-- The header byte of a byte's read flag and address is the byte. -/
theorem header_fields (b : Byte) : header (b.getLsbD 7) (b.extractLsb' 0 7) = b := by
  apply BitVec.eq_of_getLsbD_eq
  intro i hi
  rw [getLsbD_header, BitVec.getLsbD_extractLsb', Nat.zero_add]
  split
  · rename_i h; simp [h]
  · have : i = 7 := by omega
    subst this; simp

/-- The read header is the listed address with bit 7 set (rule R31). -/
theorem read_header_eq (a : Byte) : header true (regOf a) = a ||| 0x80#8 := by
  revert a; decide +kernel

/-- The write header is the listed address with bit 7 clear (rule R31). -/
theorem write_header_eq (a : Byte) : header false (regOf a) = a &&& 0x7F#8 := by
  revert a; decide +kernel

theorem decodeBus_readBytes (ra : RegAddr) {n : Nat} (h : 1 ≤ n) :
    decodeBus (readBytes ra n) = .ok (.rreg ra n) := by
  obtain ⟨m, rfl⟩ : ∃ m, n = m + 1 := ⟨n - 1, by omega⟩
  simp [readBytes, List.replicate_succ, decodeBus]

@[simp] theorem decodeBus_writeBytes (ra : RegAddr) (v : Byte) :
    decodeBus (writeBytes ra v) = .ok (.wreg ra v) := by
  simp [writeBytes, decodeBus]

/-- What a byte string that decodes is (rules R51, R52). -/
theorem decodeBus_cases {bs : List Byte} {i : Instr} (h : decodeBus bs = .ok i) :
    (∃ ra n, 1 ≤ n ∧ bs = readBytes ra n ∧ i = .rreg ra n) ∨
      (∃ ra v, bs = writeBytes ra v ∧ i = .wreg ra v) := by
  match bs, h with
  | [], h => simp [decodeBus] at h
  | [_], h => simp [decodeBus] at h
  | b :: d :: ds, h =>
    by_cases hb : b.getLsbD 7 = true
    · by_cases hd : (d :: ds).all (· == Config.dummy) = true
      · left
        simp only [decodeBus, hb, hd, if_true] at h
        have hrep : d :: ds = List.replicate (ds.length + 1) Config.dummy := by
          rw [List.eq_replicate_iff]
          refine ⟨by simp, fun x hx => ?_⟩
          simpa using List.all_eq_true.mp hd x hx
        refine ⟨b.extractLsb' 0 7, ds.length + 1, by omega, ?_, by simpa using h.symm⟩
        rw [readBytes, ← hrep]
        have := header_fields b
        rw [hb] at this
        rw [this]
      · simp only [decodeBus, hb, hd, if_true, if_false, Bool.false_eq_true] at h
        cases h
    · cases ds with
      | nil =>
        right
        simp only [decodeBus, hb, Bool.false_eq_true, if_false] at h
        refine ⟨b.extractLsb' 0 7, d, ?_, by simpa using h.symm⟩
        have := header_fields b
        rw [Bool.not_eq_true] at hb
        rw [hb] at this
        rw [writeBytes, this]
      | cons _ _ =>
        simp only [decodeBus, hb, Bool.false_eq_true, if_false] at h
        cases h

@[simp] theorem frameOf_hi (hi unit mid sign mag) :
    (frameOf hi unit mid sign mag).extractLsb' 24 8 = hi := by
  apply BitVec.eq_of_getLsbD_eq
  intro i h
  rw [BitVec.getLsbD_extractLsb', getLsbD_frameOf, if_neg (by omega), if_neg (by omega),
    if_neg (by omega), if_neg (by omega)]
  simp [h]

@[simp] theorem frameOf_mid (hi unit mid sign mag) :
    (frameOf hi unit mid sign mag).extractLsb' 21 2 = mid := by
  apply BitVec.eq_of_getLsbD_eq
  intro i h
  rw [BitVec.getLsbD_extractLsb', getLsbD_frameOf, if_neg (by omega), if_neg (by omega),
    if_pos (by omega)]
  simp [h]

@[simp] theorem frameOf_mag (hi unit mid sign mag) :
    (frameOf hi unit mid sign mag).extractLsb' 0 20 = mag := by
  apply BitVec.eq_of_getLsbD_eq
  intro i h
  rw [BitVec.getLsbD_extractLsb', getLsbD_frameOf, if_pos (by omega)]
  simp [h]

theorem frameOf_unit (hi unit mid sign mag) :
    (frameOf hi unit mid sign mag).getLsbD 23 = unit := by
  rw [getLsbD_frameOf]; rfl

theorem frameOf_sign (hi unit mid sign mag) :
    (frameOf hi unit mid sign mag).getLsbD 20 = sign := by
  rw [getLsbD_frameOf]; rfl

/-- Bit 0 of an imperial frame is the half flag, bits 19:1 the whole count (rule R56). -/
theorem frameOf_half (hi unit mid sign) (count : BitVec 19) (half : BitVec 1) :
    (frameOf hi unit mid sign (count ++ half)).getLsbD 0 = half.getLsbD 0 := by
  rw [getLsbD_frameOf, if_pos (by omega)]
  exact BitVec.getLsbD_append

@[simp] theorem frameOf_count (hi unit mid sign) (count : BitVec 19) (half : BitVec 1) :
    (frameOf hi unit mid sign (count ++ half)).extractLsb' 1 19 = count := by
  apply BitVec.eq_of_getLsbD_eq
  intro i h
  have happ : (count ++ half : BitVec 20).getLsbD (1 + i) = count.getLsbD i := by
    have : (count ++ half : BitVec 20).getLsbD (1 + i) =
        if 1 + i < 1 then half.getLsbD (1 + i) else count.getLsbD (1 + i - 1) :=
      BitVec.getLsbD_append
    rw [this, if_neg (by omega), Nat.add_sub_cancel_left]
  rw [BitVec.getLsbD_extractLsb', getLsbD_frameOf, if_pos (by omega), happ]
  simp [h]

/-- A frame is its fields. -/
theorem frameOf_fields (f : Word) :
    frameOf (f.extractLsb' 24 8) (f.getLsbD 23) (f.extractLsb' 21 2) (f.getLsbD 20)
      (f.extractLsb' 0 20) = f := by
  apply BitVec.eq_of_getLsbD_eq
  intro i h
  rw [getLsbD_frameOf]
  simp only [BitVec.getLsbD_extractLsb']
  split_ifs with h1 h2 h3 h4
  · simp [h1]
  · rw [h2]
  · have : i - 21 < 2 := by omega
    have h' : 21 + (i - 21) = i := by omega
    simp [this, h']
  · rw [h4]
  · have : i - 24 < 8 := by omega
    have h' : 24 + (i - 24) = i := by omega
    simp [this, h']

/-- The magnitude is its whole count and its low bit (rule R56). -/
theorem mag_fields (f : Word) :
    (f.extractLsb' 1 19 ++ BitVec.ofBool (f.getLsbD 0) : BitVec 20) = f.extractLsb' 0 20 := by
  apply BitVec.eq_of_getLsbD_eq
  intro i h
  have : (f.extractLsb' 1 19 ++ BitVec.ofBool (f.getLsbD 0) : BitVec 20).getLsbD i =
      if i < 1 then (BitVec.ofBool (f.getLsbD 0)).getLsbD i
      else (f.extractLsb' 1 19).getLsbD (i - 1) := BitVec.getLsbD_append
  rw [this]
  split
  · have : i = 0 := by omega
    subst this; simp
  · have h1 : i - 1 < 19 := by omega
    have h2 : 1 + (i - 1) = i := by omega
    simp [h, h1, h2]

/-- A frame with a unit bit of 0 is not the sentinel. -/
theorem frameOf_metric_ne_sentinel (hi mid sign mag) :
    frameOf hi false mid sign mag ≠ Config.sentinel := fun h => by
  have := congrArg (fun f : Word => f.getLsbD 23) h
  simp only [frameOf_unit] at this
  exact absurd this (by decide)

theorem frameOf_inNoHalf_ne_sentinel (hi mid sign) (count : BitVec 19) :
    frameOf hi true mid sign (count ++ 0#1) ≠ Config.sentinel := fun h => by
  have := congrArg (fun f : Word => f.getLsbD 0) h
  simp only [frameOf_half] at this
  exact absurd this (by decide)

/-- A `CDEC.INH` frame that is the sentinel has every field all ones. -/
theorem frameOf_half_sentinel {hi : BitVec 8} {mid : BitVec 2} {sign : Bool} {count : BitVec 19}
    (h : frameOf hi true mid sign (count ++ 1#1) = Config.sentinel) :
    hi = 0xFF#8 ∧ mid = 3#2 ∧ sign = true ∧ count = 0x7FFFF#19 := by
  have h1 := congrArg (fun f : Word => f.extractLsb' 24 8) h
  have h2 := congrArg (fun f : Word => f.extractLsb' 21 2) h
  have h3 := congrArg (fun f : Word => f.getLsbD 20) h
  have h4 := congrArg (fun f : Word => f.extractLsb' 1 19) h
  simp only [frameOf_hi] at h1
  simp only [frameOf_mid] at h2
  simp only [frameOf_sign] at h3
  simp only [frameOf_count] at h4
  refine ⟨h1.trans ?_, h2.trans ?_, h3.trans ?_, h4.trans ?_⟩ <;> decide

end Sys2Proof
end

