-- ==== Sys2Proof/Laws/Memory.lean ====
section
/-! SUPPORT. The laws of the sensor's registers: a read after a write, the canonical form, which every
operation keeps, and what an event, a store and the end of a conversion do to them. -/

namespace Sys2Proof.Machine

variable {c : Params}

/-! ### What is listed -/

@[simp] theorem Memory.lookup_nil (a : Nat) : Memory.lookup [] c a = Memory.unlisted c a := rfl

theorem Memory.lookup_cons (k : Nat) (b : Byte) (m : Memory) (a : Nat) :
    Memory.lookup ((k, b) :: m) c a = if k = a then b else Memory.lookup m c a := rfl

@[simp] theorem Memory.erase_nil (a : Nat) : Memory.erase [] a = [] := rfl

theorem Memory.erase_cons (k : Nat) (b : Byte) (m : Memory) (a : Nat) :
    Memory.erase ((k, b) :: m) a = if k = a then Memory.erase m a else (k, b) :: Memory.erase m a := by
  by_cases h : k = a <;> simp [Memory.erase, h]

theorem Memory.lookup_erase_self (m : Memory) (a : Nat) :
    (m.erase a).lookup c a = Memory.unlisted c a := by
  induction m with
  | nil => rfl
  | cons e m ih =>
    obtain ⟨k, b⟩ := e
    rw [Memory.erase_cons]
    split
    · exact ih
    · rename_i h
      rw [Memory.lookup_cons, if_neg h, ih]

theorem Memory.lookup_erase_other (m : Memory) {a x : Nat} (h : x ≠ a) :
    (m.erase a).lookup c x = m.lookup c x := by
  induction m with
  | nil => rfl
  | cons e m ih =>
    obtain ⟨k, b⟩ := e
    rw [Memory.erase_cons, Memory.lookup_cons]
    split
    · subst k; rw [if_neg (fun e => h e.symm), ih]
    · rw [Memory.lookup_cons, ih]

theorem Memory.lookup_put_self (m : Memory) (a : Nat) (b : Byte) : (m.put a b).lookup c a = b := by
  induction m with
  | nil => simp [Memory.put, Memory.lookup]
  | cons e m ih =>
    obtain ⟨k, d⟩ := e
    unfold Memory.put
    split_ifs with h1 h2
    · simp [Memory.lookup]
    · simp [Memory.lookup]
    · rw [Memory.lookup_cons, if_neg (fun e => h2 e.symm), ih]

theorem Memory.lookup_put_other (m : Memory) {a x : Nat} (b : Byte) (h : x ≠ a) :
    (m.put a b).lookup c x = m.lookup c x := by
  have ha : a ≠ x := fun e => h e.symm
  induction m with
  | nil => simp [Memory.put, Memory.lookup, ha]
  | cons e m ih =>
    obtain ⟨k, d⟩ := e
    unfold Memory.put
    split_ifs with h1 h2
    · rw [Memory.lookup_cons, if_neg ha]
    · subst h2; rw [Memory.lookup_cons, Memory.lookup_cons, if_neg ha, if_neg ha]
    · rw [Memory.lookup_cons, Memory.lookup_cons, ih]

/-! ### The bits a register has, and which can be written (rule R18) -/

theorem regBits_idem (a : Nat) (b : Byte) : regBits c a (regBits c a b) = regBits c a b := by
  unfold regBits
  split
  · rw [BitVec.and_assoc, BitVec.and_self]
  · rfl

/-- A register other than the two `xlsb` ones has all its bits. -/
theorem regBits_of_ne {a : Nat} (h1 : a ≠ c.dataAddr + 2) (h2 : a ≠ c.dataAddr + 5) (b : Byte) :
    regBits c a b = b :=
  if_neg (by omega)

theorem regBits_unlisted (a : Nat) : regBits c a (Memory.unlisted c a) = Memory.unlisted c a :=
  regBits_idem ..

/-- Bits 3:0 of the two `xlsb` registers read as 0, whatever is listed (rule R18). -/
theorem Memory.read_xlsb (m : Memory) {a : Nat} (h : a = c.dataAddr + 2 ∨ a = c.dataAddr + 5) :
    (m.read c a).extractLsb' 0 4 = 0#4 := by
  unfold Memory.read regBits
  rw [if_pos h]
  generalize m.lookup c a = b
  revert b; decide +kernel

theorem writableReg_iff (a : Nat) : writableReg c a = true ↔ a < 128 ∧ readOnlyReg c a = false := by
  simp [writableReg]

/-- A register of the 7-bit address space can be written but for the ones the sensor keeps. -/
theorem writableReg_toNat {a : RegAddr} (h : readOnlyReg c a.toNat = false) :
    writableReg c a.toNat = true := (writableReg_iff _).mpr ⟨a.isLt, h⟩

/-! ### Reading -/

@[simp] theorem Memory.read_nil (a : Nat) : Memory.read [] c a = Memory.unlisted c a :=
  regBits_unlisted a

theorem Memory.regBits_read (m : Memory) (a : Nat) : regBits c a (m.read c a) = m.read c a :=
  regBits_idem ..

/-- A write to a register that cannot be written changes nothing. -/
theorem Memory.write_of_not_writable (m : Memory) {a : Nat} (b : Byte) (h : writableReg c a = false) :
    m.write c a b = m := if_neg (by simp [h])

/-- A register reads as what was last written to it, as far as it has the bits. -/
theorem Memory.read_write_self (m : Memory) {a : Nat} (b : Byte) (h : writableReg c a = true) :
    (m.write c a b).read c a = regBits c a b := by
  unfold Memory.write Memory.read
  rw [if_pos h]
  split
  · rename_i h; rw [Memory.lookup_erase_self, regBits_unlisted, h]
  · rw [Memory.lookup_put_self, regBits_idem]

/-- A write leaves every other register alone. -/
theorem Memory.read_write_other (m : Memory) {a x : Nat} (b : Byte) (h : x ≠ a) :
    (m.write c a b).read c x = m.read c x := by
  unfold Memory.write Memory.read
  split
  · split
    · rw [Memory.lookup_erase_other m h]
    · rw [Memory.lookup_put_other m _ h]
  · rfl

/-- All that a write does to a reading: the written register holds the byte if it can be written, and every
other register is as before. -/
theorem Memory.read_write (m : Memory) (a x : Nat) (b : Byte) :
    (m.write c a b).read c x =
      if x = a ∧ writableReg c a = true then regBits c a b else m.read c x := by
  by_cases hx : x = a
  · subst hx
    cases hw : writableReg c x with
    | true => simp [Memory.read_write_self m b hw]
    | false => simp [Memory.write_of_not_writable m b hw]
  · rw [Memory.read_write_other m b hx, if_neg fun h => hx h.1]

/-- No write changes a register that cannot be written. -/
theorem Memory.read_write_kept (m : Memory) (a : Nat) {x : Nat} (b : Byte)
    (h : writableReg c x = false) : (m.write c a b).read c x = m.read c x := by
  rw [Memory.read_write, if_neg]
  rintro ⟨rfl, hw⟩
  rw [h] at hw; cases hw

/-! ### The canonical form -/

theorem Memory.wfFrom_cons (lo k : Nat) (b : Byte) (m : Memory) :
    Memory.wfFrom c lo ((k, b) :: m) = true ↔
      lo ≤ k ∧ k < 128 ∧ regBits c k b = b ∧ b ≠ Memory.unlisted c k ∧
        Memory.wfFrom c (k + 1) m = true := by
  simp [Memory.wfFrom, and_assoc]

theorem Memory.wfFrom_mono {lo lo' : Nat} {m : Memory} (hl : lo' ≤ lo)
    (h : Memory.wfFrom c lo m = true) : Memory.wfFrom c lo' m = true := by
  cases m with
  | nil => rfl
  | cons e m =>
    obtain ⟨k, b⟩ := e
    rw [Memory.wfFrom_cons] at h ⊢
    exact ⟨hl.trans h.1, h.2⟩

theorem Memory.wfFrom_filter {lo : Nat} {m : Memory} (p : Host.Cell → Bool)
    (h : Memory.wfFrom c lo m = true) : Memory.wfFrom c lo (m.filter p) = true := by
  induction m generalizing lo with
  | nil => rfl
  | cons e m ih =>
    obtain ⟨k, b⟩ := e
    rw [Memory.wfFrom_cons] at h
    rw [List.filter_cons]
    split
    · exact (Memory.wfFrom_cons ..).mpr ⟨h.1, h.2.1, h.2.2.1, h.2.2.2.1, ih h.2.2.2.2⟩
    · exact ih (Memory.wfFrom_mono (by omega) h.2.2.2.2)

theorem Memory.wfFrom_put {lo : Nat} {m : Memory} {a : Nat} {b : Byte}
    (h : Memory.wfFrom c lo m = true) (hlo : lo ≤ a) (ha : a < 128) (hr : regBits c a b = b)
    (hb : b ≠ Memory.unlisted c a) : Memory.wfFrom c lo (m.put a b) = true := by
  induction m generalizing lo with
  | nil => exact (Memory.wfFrom_cons ..).mpr ⟨hlo, ha, hr, hb, rfl⟩
  | cons e m ih =>
    obtain ⟨k, d⟩ := e
    have hc := (Memory.wfFrom_cons ..).mp h
    unfold Memory.put
    split_ifs with h1 h2
    · exact (Memory.wfFrom_cons ..).mpr
        ⟨hlo, ha, hr, hb, (Memory.wfFrom_cons ..).mpr ⟨h1, hc.2⟩⟩
    · subst h2
      exact (Memory.wfFrom_cons ..).mpr ⟨hlo, ha, hr, hb, hc.2.2.2.2⟩
    · exact (Memory.wfFrom_cons ..).mpr ⟨hc.1, hc.2.1, hc.2.2.1, hc.2.2.2.1, ih hc.2.2.2.2 (by omega)⟩

/-- Dropping entries keeps the canonical form. -/
theorem Memory.wf_filter {m : Memory} (p : Host.Cell → Bool) (h : m.wf c = true) :
    Memory.wf (m.filter p) c = true :=
  Memory.wfFrom_filter p h

/-- A write keeps the canonical form. -/
theorem Memory.wf_write {m : Memory} (a : Nat) (b : Byte) (h : m.wf c = true) :
    (m.write c a b).wf c = true := by
  unfold Memory.write
  split_ifs with ha hb
  · exact Memory.wfFrom_filter _ h
  · exact Memory.wfFrom_put h (Nat.zero_le a) ((writableReg_iff a).mp ha).1 (regBits_idem ..) hb
  · exact h

/-- Two registers apart from a sample's three keep their content. -/
theorem Memory.read_writeSample_other (m : Memory) {a x : Nat} (v : Sample)
    (h : x < a ∨ a + 2 < x) : (m.writeSample c a v).read c x = m.read c x := by
  unfold Memory.writeSample
  rw [Memory.read_write_other _ _ (by omega), Memory.read_write_other _ _ (by omega),
    Memory.read_write_other _ _ (by omega)]

theorem Memory.wf_writeSample {m : Memory} (a : Nat) (v : Sample) (h : m.wf c = true) :
    (m.writeSample c a v).wf c = true :=
  Memory.wf_write _ _ (Memory.wf_write _ _ (Memory.wf_write _ _ h))

/-- Two memories in canonical form that list the same are the same list. -/
theorem Memory.ext_of_lookup {lo : Nat} {m n : Memory} (hm : Memory.wfFrom c lo m = true) (hn : Memory.wfFrom c lo n = true)
    (h : ∀ a, m.lookup c a = n.lookup c a) : m = n := by
  have below : ∀ {lo : Nat} {m : Memory}, Memory.wfFrom c lo m = true → ∀ a < lo, m.lookup c a = Memory.unlisted c a := by
    intro lo m
    induction m generalizing lo with
    | nil => intro _ a _; rfl
    | cons e m ih =>
      obtain ⟨k, b⟩ := e
      intro hw a ha
      have hc := (Memory.wfFrom_cons ..).mp hw
      rw [Memory.lookup_cons, if_neg (by omega)]
      exact ih hc.2.2.2.2 a (by omega)
  induction m generalizing lo n with
  | nil =>
    cases n with
    | nil => rfl
    | cons e n =>
      obtain ⟨k, b⟩ := e
      have hc := (Memory.wfFrom_cons ..).mp hn
      have := h k
      rw [Memory.lookup_nil, Memory.lookup_cons, if_pos rfl] at this
      exact absurd this.symm hc.2.2.2.1
  | cons e m ih =>
    obtain ⟨k, b⟩ := e
    have hc := (Memory.wfFrom_cons ..).mp hm
    cases n with
    | nil =>
      have := h k
      rw [Memory.lookup_nil, Memory.lookup_cons, if_pos rfl] at this
      exact absurd this hc.2.2.2.1
    | cons e n =>
      obtain ⟨l, d⟩ := e
      have he := (Memory.wfFrom_cons ..).mp hn
      have hkl : k = l := by
        rcases Nat.lt_trichotomy k l with hlt | heq | hgt
        · have := h k
          rw [Memory.lookup_cons, if_pos rfl, Memory.lookup_cons, if_neg (by omega),
            below he.2.2.2.2 k (by omega)] at this
          exact absurd this hc.2.2.2.1
        · exact heq
        · have := h l
          rw [Memory.lookup_cons, if_neg (by omega), Memory.lookup_cons, if_pos rfl,
            below hc.2.2.2.2 l (by omega)] at this
          exact absurd this.symm he.2.2.2.1
      subst hkl
      have hbd : b = d := by
        have := h k
        rwa [Memory.lookup_cons, if_pos rfl, Memory.lookup_cons, if_pos rfl] at this
      subst hbd
      congr 1
      refine ih hc.2.2.2.2 he.2.2.2.2 fun a => ?_
      by_cases ha : a = k
      · subst ha; rw [below hc.2.2.2.2 a (by omega), below he.2.2.2.2 a (by omega)]
      · have := h a
        rwa [Memory.lookup_cons, if_neg (fun e => ha e.symm), Memory.lookup_cons,
          if_neg (fun e => ha e.symm)] at this

/-- What is listed in the canonical form has only bits the register has. -/
theorem Memory.regBits_lookup {lo : Nat} {m : Memory} (h : Memory.wfFrom c lo m = true) (a : Nat) :
    regBits c a (m.lookup c a) = m.lookup c a := by
  induction m generalizing lo with
  | nil => exact regBits_unlisted a
  | cons e m ih =>
    obtain ⟨k, b⟩ := e
    have hc := (Memory.wfFrom_cons ..).mp h
    rw [Memory.lookup_cons]
    split
    · rename_i e; exact e ▸ hc.2.2.1
    · exact ih hc.2.2.2.2

/-- Two memories in canonical form that read the same are the same list. -/
theorem Memory.ext_of_wf {m n : Memory} (hm : m.wf c = true) (hn : n.wf c = true)
    (h : ∀ a, m.read c a = n.read c a) : m = n :=
  Memory.ext_of_lookup hm hn fun a => by
    rw [← Memory.regBits_lookup hm a, ← Memory.regBits_lookup hn a]; exact h a

/-! ### Conversions and events of the reference sensor -/

/-- The end of a conversion leaves every register alone but `ctrl_meas` and the data registers. -/
theorem Memory.read_endConversion_other (m : Memory) (k : Conversion) {x : Nat}
    (h : x ≠ c.ctrlMeasAddr) (h' : dataReg c x = false) :
    (Memory.endConversion c m k).read c x = m.read c x := by
  have hd : x < c.dataAddr ∨ c.dataAddr + 5 < x := by
    simp only [dataReg, Bool.and_eq_false_iff, decide_eq_false_iff_not] at h'; omega
  unfold Memory.endConversion
  rw [Memory.read_write_other _ _ h, Memory.read_writeSample_other _ _ (by omega),
    Memory.read_writeSample_other _ _ (by omega)]

/-- The end of a conversion changes no register that cannot be written. -/
theorem Memory.read_endConversion_kept (m : Memory) (k : Conversion) {x : Nat}
    (h : writableReg c x = false) : (Memory.endConversion c m k).read c x = m.read c x := by
  simp only [Memory.endConversion, Memory.writeSample, Memory.read_write_kept _ _ _ h]

theorem Memory.wf_endConversion {m : Memory} (k : Conversion) (h : m.wf c = true) :
    (Memory.endConversion c m k).wf c = true :=
  Memory.wf_write _ _ (Memory.wf_writeSample _ _ (Memory.wf_writeSample _ _ h))

/-- In a transaction an event changes no register (rule R33: a burst is of one conversion). -/
theorem Sensor.pass_regs_busy (x : Sensor) {p : SensorPhase} (h : p ≠ .off) :
    (x.pass c p).regs = x.regs := by
  simp [Sensor.pass, h]

/-- With no conversion in progress an event changes no register. -/
theorem Sensor.pass_regs_asleep {x : Sensor} (h : x.conversions = []) (p : SensorPhase) :
    (x.pass c p).regs = x.regs := by
  by_cases hp : p = .off <;> simp [Sensor.pass, h, hp]

@[simp] theorem Sensor.pass_phase (x : Sensor) (p : SensorPhase) : (x.pass c p).phase = p := rfl
@[simp] theorem Sensor.pass_present (x : Sensor) (p : SensorPhase) :
    (x.pass c p).present = x.present := rfl
@[simp] theorem Sensor.pass_samples (x : Sensor) (p : SensorPhase) :
    (x.pass c p).samples = x.samples := rfl
@[simp] theorem Sensor.pass_lasts (x : Sensor) (p : SensorPhase) : (x.pass c p).lasts = x.lasts := rfl

/-- What is true of the registers, and stays true when a conversion ends, is true after an event. -/
theorem Sensor.pass_regs_induction (P : Memory → Prop) (x : Sensor) (p : SensorPhase)
    (step : ∀ m k, P m → P (Memory.endConversion c m k)) (h : P x.regs) : P (x.pass c p).regs := by
  have fold : ∀ (ks : List Conversion) (m : Memory), P m → P (ks.foldl (Memory.endConversion c) m) := by
    intro ks
    induction ks with
    | nil => intro m hm; exact hm
    | cons k ks ih => intro m hm; exact ih _ (step m k hm)
  exact fold _ _ h

/-- An event changes no register but those a conversion can change. -/
theorem Sensor.read_pass_other (x : Sensor) (p : SensorPhase) {a : Nat} (h : a ≠ c.ctrlMeasAddr)
    (h' : dataReg c a = false) : (x.pass c p).regs.read c a = x.regs.read c a :=
  Sensor.pass_regs_induction (fun m => m.read c a = x.regs.read c a) x p
    (fun m k hm => (Memory.read_endConversion_other m k h h').trans hm) rfl

/-- An event changes no register that cannot be written. -/
theorem Sensor.read_pass_kept (x : Sensor) (p : SensorPhase) {a : Nat} (h : writableReg c a = false) :
    (x.pass c p).regs.read c a = x.regs.read c a :=
  Sensor.pass_regs_induction (fun m => m.read c a = x.regs.read c a) x p
    (fun m k hm => (Memory.read_endConversion_kept m k h).trans hm) rfl

theorem Sensor.wf_pass {x : Sensor} (p : SensorPhase) (h : x.regs.wf c = true) :
    (x.pass c p).regs.wf c = true :=
  Sensor.pass_regs_induction (fun m => m.wf c = true) x p (fun _ k => Memory.wf_endConversion k) h

/-- A store that starts a conversion changes the addressed register as any other store. -/
@[simp] theorem Sensor.startConversion_regs (x : Sensor) (ctrl : Byte) (n : Nat) :
    (x.startConversion ctrl n).regs = x.regs := rfl
@[simp] theorem Sensor.startConversion_present (x : Sensor) (ctrl : Byte) (n : Nat) :
    (x.startConversion ctrl n).present = x.present := rfl
@[simp] theorem Sensor.startConversion_phase (x : Sensor) (ctrl : Byte) (n : Nat) :
    (x.startConversion ctrl n).phase = x.phase := rfl

/-- What a store can do: nothing to a register the sensor keeps, its own reset, or the write of the
addressed register. -/
theorem Sensor.store_regs (x : Sensor) (a : RegAddr) (v : Byte) (n : Nat) :
    (readOnlyReg c a.toNat = true ∧ (x.store c a v n).regs = x.regs) ∨
    (readOnlyReg c a.toNat = false ∧ resetReg c a.toNat = true ∧ v = 0xB6#8 ∧
      (x.store c a v n).regs = x.regs.filter fun k => readOnlyReg c k.1) ∨
    (readOnlyReg c a.toNat = false ∧ ¬ (resetReg c a.toNat = true ∧ v = 0xB6#8) ∧
      (x.store c a v n).regs = x.regs.write c a.toNat v) := by
  unfold Sensor.store
  split_ifs with h1 h2 h3
  · exact .inl ⟨h1, rfl⟩
  · exact .inr (.inl ⟨by simpa using h1, h2.1, h2.2, rfl⟩)
  · exact .inr (.inr ⟨by simpa using h1, h2, rfl⟩)
  · exact .inr (.inr ⟨by simpa using h1, h2, rfl⟩)

/-- The sensor's own reset keeps the constant registers and leaves every other at its reset content. -/
theorem Memory.read_filter_readOnly (m : Memory) (x : Nat) :
    Memory.read (m.filter fun k => readOnlyReg c k.1) c x =
      if readOnlyReg c x then m.read c x else Memory.unlisted c x := by
  have key : Memory.lookup (m.filter fun k => readOnlyReg c k.1) c x =
      if readOnlyReg c x then m.lookup c x else Memory.unlisted c x := by
    induction m with
    | nil => simp [Memory.lookup]
    | cons e m ih =>
      obtain ⟨k, b⟩ := e
      by_cases hk : k = x
      · subst hk
        cases hr : readOnlyReg c k <;> simp_all [Memory.lookup]
      · cases hr : readOnlyReg c k <;> simp_all [Memory.lookup]
  unfold Memory.read
  rw [key]
  split
  · rfl
  · exact regBits_unlisted x

/-- A store keeps the canonical form. -/
theorem Sensor.wf_store {x : Sensor} (a : RegAddr) (v : Byte) (n : Nat) (h : x.regs.wf c = true) :
    (x.store c a v n).regs.wf c = true := by
  rcases Sensor.store_regs (c := c) x a v n with ⟨_, e⟩ | ⟨_, _, _, e⟩ | ⟨_, _, e⟩ <;> rw [e]
  · exact h
  · exact Memory.wf_filter _ h
  · exact Memory.wf_write _ _ h

/-- Bit 3 of `status` says whether a conversion is in progress (rule R18). -/
theorem Sensor.status_measuring (x : Sensor) (n : Nat) :
    (x.status n).getLsbD 3 = !x.conversions.isEmpty := by
  unfold Sensor.status
  cases x.conversions <;> simp

/-- What a present sensor answers in a read: `status` is formed at the read, any other register of the
space gives its content. -/
theorem Sensor.reply_reading {x : Sensor} {a : Nat} (h : x.phase = .reading a) (ha : a < 128) (n : Nat) :
    x.reply c n = some (if statusReg c a then x.status n else x.regs.read c a) := by
  unfold Sensor.reply
  rw [h]
  by_cases hs : statusReg c a = true <;> simp [hs, ha]

/-- An absent sensor sees nothing. -/
theorem Sensor.observe_absent {x : Sensor} (h : x.present = false) (e : Event) (n : Nat) :
    x.observe c e n = x := by
  simp [Sensor.observe, h]

/-- What an event can do to a present sensor: it goes by, or it ends a write, which is stored. -/
theorem Sensor.observe_present {x : Sensor} (h : x.present = true) (e : Event) (n : Nat) :
    (x.observe c e n = x.pass c (x.phase.after e)) ∨
      (e = .deselect ∧ ∃ a v, x.phase = .written a v ∧
        x.observe c e n = (x.pass c .off).store c a v n) := by
  unfold Sensor.observe
  rw [if_pos h]
  split
  · rename_i a v hp; exact .inr ⟨rfl, a, v, hp, rfl⟩
  · exact .inl rfl

/-- An event keeps the canonical form of the sensor's registers. -/
theorem Sensor.wf_observe {x : Sensor} (e : Event) (n : Nat) (h : x.regs.wf c = true) :
    (x.observe c e n).regs.wf c = true := by
  cases hp : x.present with
  | false => rw [Sensor.observe_absent hp]; exact h
  | true =>
    rcases Sensor.observe_present (c := c) hp e n with he | ⟨_, a, v, _, he⟩ <;> rw [he]
    · exact Sensor.wf_pass _ h
    · exact Sensor.wf_store a v n (Sensor.wf_pass _ h)

/-- A transaction cut short keeps the canonical form of the sensor's registers. -/
theorem Sensor.wf_cutShort {x : Sensor} (n : Nat) (h : x.regs.wf c = true) :
    (x.cutShort c n).regs.wf c = true := by
  unfold Sensor.cutShort
  split
  · split
    · exact Sensor.wf_store _ _ _ (Sensor.wf_pass _ h)
    · exact Sensor.wf_store _ _ _ (Sensor.wf_pass _ h)
    · exact Sensor.wf_pass _ h
  · exact h

end Sys2Proof.Machine
end

