-- ==== Sys2Proof/Laws/State.lean ====
section
/-! SUPPORT. For each named update of the state, one lemma per field: the value of the field after the
update. All hold by rfl; they are the simp set through which no later proof unfolds an update. -/

namespace Sys2Proof.Machine

variable (s : State)

/-! ### `State.emit` -/

@[simp] theorem State.emit_cfg (e : Event) : (s.emit e).cfg = s.cfg := rfl
@[simp] theorem State.emit_seq (e : Event) : (s.emit e).seq = s.seq := rfl
@[simp] theorem State.emit_cal (e : Event) : (s.emit e).cal = s.cal := rfl
@[simp] theorem State.emit_sel (e : Event) : (s.emit e).sel = e.level s.sel := rfl
@[simp] theorem State.emit_statusOut (e : Event) : (s.emit e).statusOut = s.statusOut := rfl
@[simp] theorem State.emit_tOut (e : Event) : (s.emit e).tOut = s.tOut := rfl
@[simp] theorem State.emit_pOut (e : Event) : (s.emit e).pOut = s.pOut := rfl
@[simp] theorem State.emit_valOut (e : Event) : (s.emit e).valOut = s.valOut := rfl
@[simp] theorem State.emit_dpOut (e : Event) : (s.emit e).dpOut = s.dpOut := rfl
@[simp] theorem State.emit_idByte (e : Event) : (s.emit e).idByte = s.idByte := rfl
@[simp] theorem State.emit_cbuf (e : Event) : (s.emit e).cbuf = s.cbuf := rfl
@[simp] theorem State.emit_dbuf (e : Event) : (s.emit e).dbuf = s.dbuf := rfl
@[simp] theorem State.emit_adcP (e : Event) : (s.emit e).adcP = s.adcP := rfl
@[simp] theorem State.emit_adcT (e : Event) : (s.emit e).adcT = s.adcT := rfl
@[simp] theorem State.emit_tFine (e : Event) : (s.emit e).tFine = s.tFine := rfl
@[simp] theorem State.emit_tempVars (e : Event) : (s.emit e).tempVars = s.tempVars := rfl
@[simp] theorem State.emit_pressVars (e : Event) : (s.emit e).pressVars = s.pressVars := rfl
@[simp] theorem State.emit_tRes (e : Event) : (s.emit e).tRes = s.tRes := rfl
@[simp] theorem State.emit_pRes (e : Event) : (s.emit e).pRes = s.pRes := rfl
@[simp] theorem State.emit_spiMode (e : Event) : (s.emit e).spiMode = e.mode s.spiMode := rfl
@[simp] theorem State.emit_stage (e : Event) : (s.emit e).stage = s.stage := rfl
@[simp] theorem State.emit_pending (e : Event) : (s.emit e).pending = s.pending := rfl
@[simp] theorem State.emit_rx (e : Event) : (s.emit e).rx = s.rx := rfl
@[simp] theorem State.emit_hung (e : Event) : (s.emit e).hung = s.hung := rfl
@[simp] theorem State.emit_miso (e : Event) : (s.emit e).miso = s.miso := rfl
@[simp] theorem State.emit_hangs (e : Event) : (s.emit e).hangs = s.hangs := rfl
@[simp] theorem State.emit_sensor (e : Event) :
    (s.emit e).sensor = s.sensor.observe s.cfg e s.draws := rfl
@[simp] theorem State.emit_host (e : Event) : (s.emit e).host = s.host := rfl
@[simp] theorem State.emit_trace (e : Event) : (s.emit e).trace = s.trace ++ [e] := rfl
@[simp] theorem State.emit_history (e : Event) : (s.emit e).history = s.history := rfl
@[simp] theorem State.emit_draws (e : Event) : (s.emit e).draws = s.draws + 2 := rfl

/-! ### `State.transfer` -/

@[simp] theorem State.transfer_cfg (o : Byte) (keep : Bool) : (s.transfer o keep).cfg = s.cfg := rfl
@[simp] theorem State.transfer_seq (o : Byte) (keep : Bool) : (s.transfer o keep).seq = s.seq := rfl
@[simp] theorem State.transfer_cal (o : Byte) (keep : Bool) : (s.transfer o keep).cal = s.cal := rfl
@[simp] theorem State.transfer_sel (o : Byte) (keep : Bool) : (s.transfer o keep).sel = s.sel := rfl
@[simp] theorem State.transfer_statusOut (o : Byte) (keep : Bool) :
    (s.transfer o keep).statusOut = s.statusOut := rfl
@[simp] theorem State.transfer_tOut (o : Byte) (keep : Bool) :
    (s.transfer o keep).tOut = s.tOut := rfl
@[simp] theorem State.transfer_pOut (o : Byte) (keep : Bool) :
    (s.transfer o keep).pOut = s.pOut := rfl
@[simp] theorem State.transfer_valOut (o : Byte) (keep : Bool) :
    (s.transfer o keep).valOut = s.valOut := rfl
@[simp] theorem State.transfer_dpOut (o : Byte) (keep : Bool) :
    (s.transfer o keep).dpOut = s.dpOut := rfl
@[simp] theorem State.transfer_idByte (o : Byte) (keep : Bool) :
    (s.transfer o keep).idByte = s.idByte := rfl
@[simp] theorem State.transfer_cbuf (o : Byte) (keep : Bool) :
    (s.transfer o keep).cbuf = s.cbuf := rfl
@[simp] theorem State.transfer_dbuf (o : Byte) (keep : Bool) :
    (s.transfer o keep).dbuf = s.dbuf := rfl
@[simp] theorem State.transfer_adcP (o : Byte) (keep : Bool) :
    (s.transfer o keep).adcP = s.adcP := rfl
@[simp] theorem State.transfer_adcT (o : Byte) (keep : Bool) :
    (s.transfer o keep).adcT = s.adcT := rfl
@[simp] theorem State.transfer_tFine (o : Byte) (keep : Bool) :
    (s.transfer o keep).tFine = s.tFine := rfl
@[simp] theorem State.transfer_tempVars (o : Byte) (keep : Bool) :
    (s.transfer o keep).tempVars = s.tempVars := rfl
@[simp] theorem State.transfer_pressVars (o : Byte) (keep : Bool) :
    (s.transfer o keep).pressVars = s.pressVars := rfl
@[simp] theorem State.transfer_tRes (o : Byte) (keep : Bool) :
    (s.transfer o keep).tRes = s.tRes := rfl
@[simp] theorem State.transfer_pRes (o : Byte) (keep : Bool) :
    (s.transfer o keep).pRes = s.pRes := rfl
@[simp] theorem State.transfer_spiMode (o : Byte) (keep : Bool) :
    (s.transfer o keep).spiMode = s.spiMode := rfl
@[simp] theorem State.transfer_stage (o : Byte) (keep : Bool) :
    (s.transfer o keep).stage = s.stage := rfl
@[simp] theorem State.transfer_pending (o : Byte) (keep : Bool) :
    (s.transfer o keep).pending = s.pending := rfl
@[simp] theorem State.transfer_rx (o : Byte) (keep : Bool) :
    (s.transfer o keep).rx = if keep then s.rx ++ [s.nextByte] else s.rx := rfl
@[simp] theorem State.transfer_hung (o : Byte) (keep : Bool) :
    (s.transfer o keep).hung = s.hung := rfl
@[simp] theorem State.transfer_miso (o : Byte) (keep : Bool) :
    (s.transfer o keep).miso = s.miso.tail := rfl
@[simp] theorem State.transfer_hangs (o : Byte) (keep : Bool) :
    (s.transfer o keep).hangs = s.hangs := rfl
@[simp] theorem State.transfer_sensor (o : Byte) (keep : Bool) :
    (s.transfer o keep).sensor = s.sensor.observe s.cfg (.xfer o s.nextByte) s.draws := rfl
@[simp] theorem State.transfer_host (o : Byte) (keep : Bool) :
    (s.transfer o keep).host = s.host := rfl
@[simp] theorem State.transfer_trace (o : Byte) (keep : Bool) :
    (s.transfer o keep).trace = s.trace ++ [.xfer o s.nextByte] := rfl
@[simp] theorem State.transfer_history (o : Byte) (keep : Bool) :
    (s.transfer o keep).history = s.history := rfl
@[simp] theorem State.transfer_draws (o : Byte) (keep : Bool) :
    (s.transfer o keep).draws = s.draws + 2 := rfl

/-! ### `State.goto` -/

@[simp] theorem State.goto_cfg (q : Seq) : (s.goto q).cfg = s.cfg := rfl
@[simp] theorem State.goto_seq (q : Seq) : (s.goto q).seq = q := rfl
@[simp] theorem State.goto_cal (q : Seq) : (s.goto q).cal = s.cal := rfl
@[simp] theorem State.goto_sel (q : Seq) : (s.goto q).sel = s.sel := rfl
@[simp] theorem State.goto_statusOut (q : Seq) : (s.goto q).statusOut = s.statusOut := rfl
@[simp] theorem State.goto_tOut (q : Seq) : (s.goto q).tOut = s.tOut := rfl
@[simp] theorem State.goto_pOut (q : Seq) : (s.goto q).pOut = s.pOut := rfl
@[simp] theorem State.goto_valOut (q : Seq) : (s.goto q).valOut = s.valOut := rfl
@[simp] theorem State.goto_dpOut (q : Seq) : (s.goto q).dpOut = s.dpOut := rfl
@[simp] theorem State.goto_idByte (q : Seq) : (s.goto q).idByte = s.idByte := rfl
@[simp] theorem State.goto_cbuf (q : Seq) : (s.goto q).cbuf = s.cbuf := rfl
@[simp] theorem State.goto_dbuf (q : Seq) : (s.goto q).dbuf = s.dbuf := rfl
@[simp] theorem State.goto_adcP (q : Seq) : (s.goto q).adcP = s.adcP := rfl
@[simp] theorem State.goto_adcT (q : Seq) : (s.goto q).adcT = s.adcT := rfl
@[simp] theorem State.goto_tFine (q : Seq) : (s.goto q).tFine = s.tFine := rfl
@[simp] theorem State.goto_tempVars (q : Seq) : (s.goto q).tempVars = s.tempVars := rfl
@[simp] theorem State.goto_pressVars (q : Seq) : (s.goto q).pressVars = s.pressVars := rfl
@[simp] theorem State.goto_tRes (q : Seq) : (s.goto q).tRes = s.tRes := rfl
@[simp] theorem State.goto_pRes (q : Seq) : (s.goto q).pRes = s.pRes := rfl
@[simp] theorem State.goto_spiMode (q : Seq) : (s.goto q).spiMode = s.spiMode := rfl
@[simp] theorem State.goto_stage (q : Seq) : (s.goto q).stage = stageOf s.cfg q := rfl
@[simp] theorem State.goto_pending (q : Seq) : (s.goto q).pending = s.pending := rfl
@[simp] theorem State.goto_rx (q : Seq) : (s.goto q).rx = s.rx := rfl
@[simp] theorem State.goto_hung (q : Seq) : (s.goto q).hung = s.hung := rfl
@[simp] theorem State.goto_miso (q : Seq) : (s.goto q).miso = s.miso := rfl
@[simp] theorem State.goto_hangs (q : Seq) : (s.goto q).hangs = s.hangs := rfl
@[simp] theorem State.goto_sensor (q : Seq) : (s.goto q).sensor = s.sensor := rfl
@[simp] theorem State.goto_host (q : Seq) : (s.goto q).host = s.host := rfl
@[simp] theorem State.goto_trace (q : Seq) : (s.goto q).trace = s.trace := rfl
@[simp] theorem State.goto_history (q : Seq) : (s.goto q).history = s.history := rfl
@[simp] theorem State.goto_draws (q : Seq) : (s.goto q).draws = s.draws := rfl

/-! ### `State.complete` -/

@[simp] theorem State.complete_cfg (d : Done) : (s.complete d).cfg = s.cfg := rfl
@[simp] theorem State.complete_seq (d : Done) : (s.complete d).seq = .idle := rfl
@[simp] theorem State.complete_cal (d : Done) : (s.complete d).cal = s.cal := rfl
@[simp] theorem State.complete_sel (d : Done) : (s.complete d).sel = s.sel := rfl
@[simp] theorem State.complete_statusOut (d : Done) : (s.complete d).statusOut = s.statusOut := rfl
@[simp] theorem State.complete_tOut (d : Done) : (s.complete d).tOut = s.tOut := rfl
@[simp] theorem State.complete_pOut (d : Done) : (s.complete d).pOut = s.pOut := rfl
@[simp] theorem State.complete_valOut (d : Done) : (s.complete d).valOut = s.valOut := rfl
@[simp] theorem State.complete_dpOut (d : Done) : (s.complete d).dpOut = s.dpOut := rfl
@[simp] theorem State.complete_idByte (d : Done) : (s.complete d).idByte = s.idByte := rfl
@[simp] theorem State.complete_cbuf (d : Done) : (s.complete d).cbuf = s.cbuf := rfl
@[simp] theorem State.complete_dbuf (d : Done) : (s.complete d).dbuf = s.dbuf := rfl
@[simp] theorem State.complete_adcP (d : Done) : (s.complete d).adcP = s.adcP := rfl
@[simp] theorem State.complete_adcT (d : Done) : (s.complete d).adcT = s.adcT := rfl
@[simp] theorem State.complete_tFine (d : Done) : (s.complete d).tFine = s.tFine := rfl
@[simp] theorem State.complete_tempVars (d : Done) : (s.complete d).tempVars = s.tempVars := rfl
@[simp] theorem State.complete_pressVars (d : Done) : (s.complete d).pressVars = s.pressVars := rfl
@[simp] theorem State.complete_tRes (d : Done) : (s.complete d).tRes = s.tRes := rfl
@[simp] theorem State.complete_pRes (d : Done) : (s.complete d).pRes = s.pRes := rfl
@[simp] theorem State.complete_spiMode (d : Done) : (s.complete d).spiMode = s.spiMode := rfl
@[simp] theorem State.complete_stage (d : Done) : (s.complete d).stage = [] := rfl
@[simp] theorem State.complete_pending (d : Done) : (s.complete d).pending = s.pending := rfl
@[simp] theorem State.complete_rx (d : Done) : (s.complete d).rx = s.rx := rfl
@[simp] theorem State.complete_hung (d : Done) : (s.complete d).hung = s.hung := rfl
@[simp] theorem State.complete_miso (d : Done) : (s.complete d).miso = s.miso := rfl
@[simp] theorem State.complete_hangs (d : Done) : (s.complete d).hangs = s.hangs := rfl
@[simp] theorem State.complete_sensor (d : Done) : (s.complete d).sensor = s.sensor := rfl
@[simp] theorem State.complete_host (d : Done) : (s.complete d).host = s.host := rfl
@[simp] theorem State.complete_trace (d : Done) : (s.complete d).trace = s.trace := rfl
@[simp] theorem State.complete_history (d : Done) : (s.complete d).history = d :: s.history := rfl
@[simp] theorem State.complete_draws (d : Done) : (s.complete d).draws = s.draws := rfl

/-! ### `State.setCaliper` -/

@[simp] theorem State.setCaliper_cfg (v : Word) (dp : BitVec 3) :
    (s.setCaliper v dp).cfg = s.cfg := rfl
@[simp] theorem State.setCaliper_seq (v : Word) (dp : BitVec 3) :
    (s.setCaliper v dp).seq = s.seq := rfl
@[simp] theorem State.setCaliper_cal (v : Word) (dp : BitVec 3) :
    (s.setCaliper v dp).cal = s.cal := rfl
@[simp] theorem State.setCaliper_sel (v : Word) (dp : BitVec 3) :
    (s.setCaliper v dp).sel = s.sel := rfl
@[simp] theorem State.setCaliper_statusOut (v : Word) (dp : BitVec 3) :
    (s.setCaliper v dp).statusOut = s.statusOut := rfl
@[simp] theorem State.setCaliper_tOut (v : Word) (dp : BitVec 3) :
    (s.setCaliper v dp).tOut = s.tOut := rfl
@[simp] theorem State.setCaliper_pOut (v : Word) (dp : BitVec 3) :
    (s.setCaliper v dp).pOut = s.pOut := rfl
@[simp] theorem State.setCaliper_valOut (v : Word) (dp : BitVec 3) :
    (s.setCaliper v dp).valOut = v := rfl
@[simp] theorem State.setCaliper_dpOut (v : Word) (dp : BitVec 3) :
    (s.setCaliper v dp).dpOut = dp := rfl
@[simp] theorem State.setCaliper_idByte (v : Word) (dp : BitVec 3) :
    (s.setCaliper v dp).idByte = s.idByte := rfl
@[simp] theorem State.setCaliper_cbuf (v : Word) (dp : BitVec 3) :
    (s.setCaliper v dp).cbuf = s.cbuf := rfl
@[simp] theorem State.setCaliper_dbuf (v : Word) (dp : BitVec 3) :
    (s.setCaliper v dp).dbuf = s.dbuf := rfl
@[simp] theorem State.setCaliper_adcP (v : Word) (dp : BitVec 3) :
    (s.setCaliper v dp).adcP = s.adcP := rfl
@[simp] theorem State.setCaliper_adcT (v : Word) (dp : BitVec 3) :
    (s.setCaliper v dp).adcT = s.adcT := rfl
@[simp] theorem State.setCaliper_tFine (v : Word) (dp : BitVec 3) :
    (s.setCaliper v dp).tFine = s.tFine := rfl
@[simp] theorem State.setCaliper_tempVars (v : Word) (dp : BitVec 3) :
    (s.setCaliper v dp).tempVars = s.tempVars := rfl
@[simp] theorem State.setCaliper_pressVars (v : Word) (dp : BitVec 3) :
    (s.setCaliper v dp).pressVars = s.pressVars := rfl
@[simp] theorem State.setCaliper_tRes (v : Word) (dp : BitVec 3) :
    (s.setCaliper v dp).tRes = s.tRes := rfl
@[simp] theorem State.setCaliper_pRes (v : Word) (dp : BitVec 3) :
    (s.setCaliper v dp).pRes = s.pRes := rfl
@[simp] theorem State.setCaliper_spiMode (v : Word) (dp : BitVec 3) :
    (s.setCaliper v dp).spiMode = s.spiMode := rfl
@[simp] theorem State.setCaliper_stage (v : Word) (dp : BitVec 3) :
    (s.setCaliper v dp).stage = s.stage := rfl
@[simp] theorem State.setCaliper_pending (v : Word) (dp : BitVec 3) :
    (s.setCaliper v dp).pending = s.pending := rfl
@[simp] theorem State.setCaliper_rx (v : Word) (dp : BitVec 3) :
    (s.setCaliper v dp).rx = s.rx := rfl
@[simp] theorem State.setCaliper_hung (v : Word) (dp : BitVec 3) :
    (s.setCaliper v dp).hung = s.hung := rfl
@[simp] theorem State.setCaliper_miso (v : Word) (dp : BitVec 3) :
    (s.setCaliper v dp).miso = s.miso := rfl
@[simp] theorem State.setCaliper_hangs (v : Word) (dp : BitVec 3) :
    (s.setCaliper v dp).hangs = s.hangs := rfl
@[simp] theorem State.setCaliper_sensor (v : Word) (dp : BitVec 3) :
    (s.setCaliper v dp).sensor = s.sensor := rfl
@[simp] theorem State.setCaliper_host (v : Word) (dp : BitVec 3) :
    (s.setCaliper v dp).host = s.host := rfl
@[simp] theorem State.setCaliper_trace (v : Word) (dp : BitVec 3) :
    (s.setCaliper v dp).trace = s.trace := rfl
@[simp] theorem State.setCaliper_history (v : Word) (dp : BitVec 3) :
    (s.setCaliper v dp).history = .cdec :: s.history := rfl
@[simp] theorem State.setCaliper_draws (v : Word) (dp : BitVec 3) :
    (s.setCaliper v dp).draws = s.draws := rfl

/-! ### `State.chipIdMismatch` -/

@[simp] theorem State.chipIdMismatch_cfg : (s.chipIdMismatch).cfg = s.cfg := rfl
@[simp] theorem State.chipIdMismatch_seq : (s.chipIdMismatch).seq = .idle := rfl
@[simp] theorem State.chipIdMismatch_cal : (s.chipIdMismatch).cal = drawCal s.draws := rfl
@[simp] theorem State.chipIdMismatch_sel : (s.chipIdMismatch).sel = s.sel := rfl
@[simp] theorem State.chipIdMismatch_statusOut :
    (s.chipIdMismatch).statusOut = s.cfg.statusFail := rfl
@[simp] theorem State.chipIdMismatch_tOut : (s.chipIdMismatch).tOut = s.tOut := rfl
@[simp] theorem State.chipIdMismatch_pOut : (s.chipIdMismatch).pOut = s.pOut := rfl
@[simp] theorem State.chipIdMismatch_valOut : (s.chipIdMismatch).valOut = s.valOut := rfl
@[simp] theorem State.chipIdMismatch_dpOut : (s.chipIdMismatch).dpOut = s.dpOut := rfl
@[simp] theorem State.chipIdMismatch_idByte : (s.chipIdMismatch).idByte = s.idByte := rfl
@[simp] theorem State.chipIdMismatch_cbuf : (s.chipIdMismatch).cbuf = s.cbuf := rfl
@[simp] theorem State.chipIdMismatch_dbuf : (s.chipIdMismatch).dbuf = s.dbuf := rfl
@[simp] theorem State.chipIdMismatch_adcP : (s.chipIdMismatch).adcP = s.adcP := rfl
@[simp] theorem State.chipIdMismatch_adcT : (s.chipIdMismatch).adcT = s.adcT := rfl
@[simp] theorem State.chipIdMismatch_tFine : (s.chipIdMismatch).tFine = s.tFine := rfl
@[simp] theorem State.chipIdMismatch_tempVars : (s.chipIdMismatch).tempVars = s.tempVars := rfl
@[simp] theorem State.chipIdMismatch_pressVars : (s.chipIdMismatch).pressVars = s.pressVars := rfl
@[simp] theorem State.chipIdMismatch_tRes : (s.chipIdMismatch).tRes = s.tRes := rfl
@[simp] theorem State.chipIdMismatch_pRes : (s.chipIdMismatch).pRes = s.pRes := rfl
@[simp] theorem State.chipIdMismatch_spiMode : (s.chipIdMismatch).spiMode = s.spiMode := rfl
@[simp] theorem State.chipIdMismatch_stage : (s.chipIdMismatch).stage = [] := rfl
@[simp] theorem State.chipIdMismatch_pending : (s.chipIdMismatch).pending = s.pending := rfl
@[simp] theorem State.chipIdMismatch_rx : (s.chipIdMismatch).rx = s.rx := rfl
@[simp] theorem State.chipIdMismatch_hung : (s.chipIdMismatch).hung = s.hung := rfl
@[simp] theorem State.chipIdMismatch_miso : (s.chipIdMismatch).miso = s.miso := rfl
@[simp] theorem State.chipIdMismatch_hangs : (s.chipIdMismatch).hangs = s.hangs := rfl
@[simp] theorem State.chipIdMismatch_sensor : (s.chipIdMismatch).sensor = s.sensor := rfl
@[simp] theorem State.chipIdMismatch_host : (s.chipIdMismatch).host = s.host := rfl
@[simp] theorem State.chipIdMismatch_trace : (s.chipIdMismatch).trace = s.trace := rfl
@[simp] theorem State.chipIdMismatch_history :
    (s.chipIdMismatch).history = .beginFail :: s.history := rfl
@[simp] theorem State.chipIdMismatch_draws : (s.chipIdMismatch).draws = s.draws + 12 := rfl

/-! ### `State.setTemp` -/

@[simp] theorem State.setTemp_cfg (r : TempCalc) : (s.setTemp r).cfg = s.cfg := rfl
@[simp] theorem State.setTemp_seq (r : TempCalc) : (s.setTemp r).seq = s.seq := rfl
@[simp] theorem State.setTemp_cal (r : TempCalc) : (s.setTemp r).cal = s.cal := rfl
@[simp] theorem State.setTemp_sel (r : TempCalc) : (s.setTemp r).sel = s.sel := rfl
@[simp] theorem State.setTemp_statusOut (r : TempCalc) :
    (s.setTemp r).statusOut = s.statusOut := rfl
@[simp] theorem State.setTemp_tOut (r : TempCalc) : (s.setTemp r).tOut = s.tOut := rfl
@[simp] theorem State.setTemp_pOut (r : TempCalc) : (s.setTemp r).pOut = s.pOut := rfl
@[simp] theorem State.setTemp_valOut (r : TempCalc) : (s.setTemp r).valOut = s.valOut := rfl
@[simp] theorem State.setTemp_dpOut (r : TempCalc) : (s.setTemp r).dpOut = s.dpOut := rfl
@[simp] theorem State.setTemp_idByte (r : TempCalc) : (s.setTemp r).idByte = s.idByte := rfl
@[simp] theorem State.setTemp_cbuf (r : TempCalc) : (s.setTemp r).cbuf = s.cbuf := rfl
@[simp] theorem State.setTemp_dbuf (r : TempCalc) : (s.setTemp r).dbuf = s.dbuf := rfl
@[simp] theorem State.setTemp_adcP (r : TempCalc) : (s.setTemp r).adcP = s.adcP := rfl
@[simp] theorem State.setTemp_adcT (r : TempCalc) : (s.setTemp r).adcT = s.adcT := rfl
@[simp] theorem State.setTemp_tFine (r : TempCalc) :
    (s.setTemp r).tFine = BitVec.ofInt 32 r.tFine := rfl
@[simp] theorem State.setTemp_tempVars (r : TempCalc) : (s.setTemp r).tempVars = tempVarsOf r := rfl
@[simp] theorem State.setTemp_pressVars (r : TempCalc) :
    (s.setTemp r).pressVars = s.pressVars := rfl
@[simp] theorem State.setTemp_tRes (r : TempCalc) : (s.setTemp r).tRes = BitVec.ofInt 32 r.t := rfl
@[simp] theorem State.setTemp_pRes (r : TempCalc) : (s.setTemp r).pRes = s.pRes := rfl
@[simp] theorem State.setTemp_spiMode (r : TempCalc) : (s.setTemp r).spiMode = s.spiMode := rfl
@[simp] theorem State.setTemp_stage (r : TempCalc) : (s.setTemp r).stage = s.stage := rfl
@[simp] theorem State.setTemp_pending (r : TempCalc) : (s.setTemp r).pending = s.pending := rfl
@[simp] theorem State.setTemp_rx (r : TempCalc) : (s.setTemp r).rx = s.rx := rfl
@[simp] theorem State.setTemp_hung (r : TempCalc) : (s.setTemp r).hung = s.hung := rfl
@[simp] theorem State.setTemp_miso (r : TempCalc) : (s.setTemp r).miso = s.miso := rfl
@[simp] theorem State.setTemp_hangs (r : TempCalc) : (s.setTemp r).hangs = s.hangs := rfl
@[simp] theorem State.setTemp_sensor (r : TempCalc) : (s.setTemp r).sensor = s.sensor := rfl
@[simp] theorem State.setTemp_host (r : TempCalc) : (s.setTemp r).host = s.host := rfl
@[simp] theorem State.setTemp_trace (r : TempCalc) : (s.setTemp r).trace = s.trace := rfl
@[simp] theorem State.setTemp_history (r : TempCalc) : (s.setTemp r).history = s.history := rfl
@[simp] theorem State.setTemp_draws (r : TempCalc) : (s.setTemp r).draws = s.draws := rfl

/-! ### `State.setPress` -/

@[simp] theorem State.setPress_cfg (v : PressVars) (p : Int) : (s.setPress v p).cfg = s.cfg := rfl
@[simp] theorem State.setPress_seq (v : PressVars) (p : Int) : (s.setPress v p).seq = s.seq := rfl
@[simp] theorem State.setPress_cal (v : PressVars) (p : Int) : (s.setPress v p).cal = s.cal := rfl
@[simp] theorem State.setPress_sel (v : PressVars) (p : Int) : (s.setPress v p).sel = s.sel := rfl
@[simp] theorem State.setPress_statusOut (v : PressVars) (p : Int) :
    (s.setPress v p).statusOut = s.statusOut := rfl
@[simp] theorem State.setPress_tOut (v : PressVars) (p : Int) :
    (s.setPress v p).tOut = s.tOut := rfl
@[simp] theorem State.setPress_pOut (v : PressVars) (p : Int) :
    (s.setPress v p).pOut = s.pOut := rfl
@[simp] theorem State.setPress_valOut (v : PressVars) (p : Int) :
    (s.setPress v p).valOut = s.valOut := rfl
@[simp] theorem State.setPress_dpOut (v : PressVars) (p : Int) :
    (s.setPress v p).dpOut = s.dpOut := rfl
@[simp] theorem State.setPress_idByte (v : PressVars) (p : Int) :
    (s.setPress v p).idByte = s.idByte := rfl
@[simp] theorem State.setPress_cbuf (v : PressVars) (p : Int) :
    (s.setPress v p).cbuf = s.cbuf := rfl
@[simp] theorem State.setPress_dbuf (v : PressVars) (p : Int) :
    (s.setPress v p).dbuf = s.dbuf := rfl
@[simp] theorem State.setPress_adcP (v : PressVars) (p : Int) :
    (s.setPress v p).adcP = s.adcP := rfl
@[simp] theorem State.setPress_adcT (v : PressVars) (p : Int) :
    (s.setPress v p).adcT = s.adcT := rfl
@[simp] theorem State.setPress_tFine (v : PressVars) (p : Int) :
    (s.setPress v p).tFine = s.tFine := rfl
@[simp] theorem State.setPress_tempVars (v : PressVars) (p : Int) :
    (s.setPress v p).tempVars = s.tempVars := rfl
@[simp] theorem State.setPress_pressVars (v : PressVars) (p : Int) :
    (s.setPress v p).pressVars = v := rfl
@[simp] theorem State.setPress_tRes (v : PressVars) (p : Int) :
    (s.setPress v p).tRes = s.tRes := rfl
@[simp] theorem State.setPress_pRes (v : PressVars) (p : Int) :
    (s.setPress v p).pRes = BitVec.ofInt 32 p := rfl
@[simp] theorem State.setPress_spiMode (v : PressVars) (p : Int) :
    (s.setPress v p).spiMode = s.spiMode := rfl
@[simp] theorem State.setPress_stage (v : PressVars) (p : Int) :
    (s.setPress v p).stage = s.stage := rfl
@[simp] theorem State.setPress_pending (v : PressVars) (p : Int) :
    (s.setPress v p).pending = s.pending := rfl
@[simp] theorem State.setPress_rx (v : PressVars) (p : Int) : (s.setPress v p).rx = s.rx := rfl
@[simp] theorem State.setPress_hung (v : PressVars) (p : Int) :
    (s.setPress v p).hung = s.hung := rfl
@[simp] theorem State.setPress_miso (v : PressVars) (p : Int) :
    (s.setPress v p).miso = s.miso := rfl
@[simp] theorem State.setPress_hangs (v : PressVars) (p : Int) :
    (s.setPress v p).hangs = s.hangs := rfl
@[simp] theorem State.setPress_sensor (v : PressVars) (p : Int) :
    (s.setPress v p).sensor = s.sensor := rfl
@[simp] theorem State.setPress_host (v : PressVars) (p : Int) :
    (s.setPress v p).host = s.host := rfl
@[simp] theorem State.setPress_trace (v : PressVars) (p : Int) :
    (s.setPress v p).trace = s.trace := rfl
@[simp] theorem State.setPress_history (v : PressVars) (p : Int) :
    (s.setPress v p).history = s.history := rfl
@[simp] theorem State.setPress_draws (v : PressVars) (p : Int) :
    (s.setPress v p).draws = s.draws := rfl

/-! ### `State.assertReset` -/

@[simp] theorem State.assertReset_cfg : (s.assertReset).cfg = s.cfg := rfl
@[simp] theorem State.assertReset_seq : (s.assertReset).seq = .idle := rfl
@[simp] theorem State.assertReset_sel : (s.assertReset).sel = .high := rfl
@[simp] theorem State.assertReset_spiMode : (s.assertReset).spiMode = s.spiMode := rfl
@[simp] theorem State.assertReset_stage : (s.assertReset).stage = [] := rfl
@[simp] theorem State.assertReset_pending : (s.assertReset).pending = [] := rfl
@[simp] theorem State.assertReset_rx : (s.assertReset).rx = [] := rfl
@[simp] theorem State.assertReset_hung : (s.assertReset).hung = false := rfl
@[simp] theorem State.assertReset_miso : (s.assertReset).miso = s.miso := rfl
@[simp] theorem State.assertReset_hangs : (s.assertReset).hangs = s.hangs := rfl
@[simp] theorem State.assertReset_sensor :
    (s.assertReset).sensor = if s.sel = .low then s.sensor.cutShort s.cfg s.draws else s.sensor := rfl
@[simp] theorem State.assertReset_host : (s.assertReset).host = s.host := rfl
@[simp] theorem State.assertReset_trace :
    (s.assertReset).trace = if s.sel = .low then s.trace ++ [.deselect] else s.trace := rfl
@[simp] theorem State.assertReset_history : (s.assertReset).history = .reset :: s.history := rfl

end Sys2Proof.Machine
end

