-- ==== Sys2Proof/Laws/Ops.lean ====
section
/-! SUPPORT. For each shared operation, one lemma that says everything it can do; how a step is found;
what a step can do, once, for every invariant. -/

namespace Sys2Proof.Machine

/-! ### Where the parameters place the sensor's registers (rules R6, R18) -/

/-- Registers placed apart: the block can write `ctrl_meas` and `config`, each keeps every bit, a conversion
can write the data registers, and of the placed registers it changes `ctrl_meas` and those alone. -/
theorem mapApart_spec {c : Params} (h : mapApart c = true) :
    writableReg c c.ctrlMeasAddr = true ∧ writableReg c c.configAddr = true ∧
    (∀ i < 6, writableReg c (c.dataAddr + i) = true) ∧
    (∀ b, regBits c c.ctrlMeasAddr b = b) ∧ (∀ b, regBits c c.configAddr b = b) ∧
    c.ctrlMeasAddr ≠ c.configAddr ∧ dataReg c c.ctrlMeasAddr = false ∧
    conversionReg c c.configAddr = false ∧ conversionReg c c.idAddr = false ∧
    (∀ i < 24, conversionReg c (c.calibAddr + i) = false ∧ c.calibAddr + i < 128) := by
  simp only [mapApart, List.all_cons, List.all_nil, List.pairwise_cons, List.mem_cons, List.not_mem_nil,
    forall_eq_or_imp, Bool.and_eq_true, decide_eq_true_eq] at h
  simp only [writableReg_iff, conversionReg, dataReg, readOnlyReg, regBits, Bool.and_eq_false_iff,
    Bool.or_eq_false_iff, decide_eq_false_iff_not, beq_eq_false_iff_ne, ne_eq]
  refine ⟨?_, ?_, fun i hi => ?_, fun b => if_neg ?_, fun b => if_neg ?_, ?_, ?_, .inl ?_, .inl ?_,
    fun i hi => ⟨.inl ?_, ?_⟩⟩ <;> omega

/-- No register a parameter places is the sensor's `status` or `reset`. -/
theorem special_of_placed {c : Params} {a : Nat} (h : placedReg c a = true) :
    statusReg c a = false ∧ resetReg c a = false := by
  simp [statusReg, resetReg, h]

/-! ### Acceptance and the meanings -/

/-- A command presented at `IDLE` takes its effect (rule R84). -/
theorem State.accept_idle {s : State} (h : s.seq = .idle) (f : State → State) :
    s.accept f = .next (f s) := by
  simp [State.accept, State.busy, h]

/-- A command presented at any other step has no effect (rule R84). -/
theorem State.accept_busy {s : State} (h : s.seq ≠ .idle) (f : State → State) :
    s.accept f = .next s := by
  simp [State.accept, State.busy, h]

/-- What a command word can do: nothing, or at `IDLE` one of the three acceptances. -/
theorem exec_command_cases {c : Params} {w : CmdWord} {s t : State}
    (h : exec (decodeCommand c w) s = .next t) :
    t = s ∨ (s.seq = .idle ∧ (t = s.goto .b0 ∨ t = s.goto .f0 ∨
      ∃ v dp, (dp = 0#3 ∨ dp = 2#3 ∨ dp = 3#3 ∨ dp = 4#3) ∧ t = s.setCaliper v dp)) := by
  have acc : ∀ f : State → State, s.accept f = .next t → t = s ∨ (s.seq = .idle ∧ t = f s) := by
    intro f hf
    by_cases hb : s.seq = .idle
    · rw [State.accept_idle hb] at hf; injection hf with hf; exact .inr ⟨hb, hf.symm⟩
    · rw [State.accept_busy hb] at hf; injection hf with hf; exact .inl hf.symm
  have frame : ∀ f : Word, exec (decodeFrame f) s = .next t → t = s ∨ (s.seq = .idle ∧
      ∃ v dp, (dp = 0#3 ∨ dp = 2#3 ∨ dp = 3#3 ∨ dp = 4#3) ∧ t = s.setCaliper v dp) := by
    intro f hf
    unfold decodeFrame at hf
    split_ifs at hf <;>
      simp only [exec, execCdecNodata, execCdecMm, execCdecIn, execCdecInh] at hf <;>
      rcases acc _ hf with h | ⟨hi, h⟩ <;>
      first | exact .inl h | exact .inr ⟨hi, _, _, by simp, h⟩
  unfold decodeCommand at h
  simp only [] at h
  split_ifs at h <;> (try simp only [exec, execBegin, execFread, execReservedOp3] at h)
  · rcases acc _ h with h | ⟨hi, h⟩
    · exact .inl h
    · exact .inr ⟨hi, .inl h⟩
  · rcases acc _ h with h | ⟨hi, h⟩
    · exact .inl h
    · exact .inr ⟨hi, .inr (.inl h)⟩
  · rcases frame _ h with h | ⟨hi, h⟩
    · exact .inl h
    · exact .inr ⟨hi, .inr (.inr h)⟩
  · injection h with h; exact .inl h.symm

/-- Every instruction answers a next state, in every state. -/
theorem exec_next (i : Instr) (s : State) : ∃ t, exec i s = .next t := by
  have acc : ∀ f : State → State, ∃ t, s.accept f = .next t := by
    intro f; unfold State.accept; split <;> exact ⟨_, rfl⟩
  cases i <;> simp only [exec, execBegin, execFread, execCdecNodata, execCdecMm, execCdecIn,
    execCdecInh, execReservedOp3, execRreg, execWreg] <;> first | exact acc _ | exact ⟨_, rfl⟩

/-! ### Capability calls (rule R126, U5) -/

/-- A call returns and has its effect, in a state in which only the list `hangs` may be another; or it
does not return and the block is stuck. -/
theorem State.capability_cases (s : State) (f : State → State) :
    (∃ hs, s.capability f = f { s with hangs := hs }) ∨
      (∃ hs, s.capability f = { s with hangs := hs, hung := true }) := by
  unfold State.capability
  split
  · exact .inl ⟨s.hangs, rfl⟩
  · exact .inr ⟨_, rfl⟩
  · exact .inl ⟨_, rfl⟩

theorem State.capability_returns {s : State} (h : s.hangs = []) (f : State → State) :
    s.capability f = f s := by
  simp [State.capability, h]

theorem State.capability_stuck {s : State} {hs : List Nat} (h : s.hangs = 0 :: hs)
    (f : State → State) : s.capability f = { s with hangs := hs, hung := true } := by
  simp [State.capability, h]

/-! ### How a step is found -/

/-- A presented command word is decoded and runs (rule R84). -/
theorem step_present {s : State} {w : CmdWord} {rest : List HostAct} (h : s.host = .present w :: rest) :
    step s = exec (decodeCommand s.cfg w) { s with host := rest } := by
  simp [step, State.fetch, h, decode]

/-- A blocking call at `IDLE` is presented. -/
theorem step_call_idle {s : State} {w : CmdWord} {rest : List HostAct} (h : s.host = .call w :: rest)
    (hi : s.seq = .idle) : step s = exec (decodeCommand s.cfg w) { s with host := rest } := by
  simp [step, State.fetch, h, decode, State.busy, hi]

theorem step_reset {s : State} {rest : List HostAct} (h : s.host = .reset :: rest) :
    step s = .next { s with host := rest }.assertReset := by
  simp [step, State.fetch, h]

/-- A step with no host act is the block's own move. -/
theorem fetch_of_no_host {s : State} (h : s.host = []) : s.fetch = s.blockMove := by
  simp [State.fetch, h]

theorem step_hung {s : State} (h : s.host = []) (hh : s.hung = true) : step s = .next s := by
  simp [step, fetch_of_no_host h, State.blockMove, hh]

theorem step_pending {s : State} (h : s.host = []) (hh : s.hung = false) {op : BusOp}
    {rest : List BusOp} (hp : s.pending = op :: rest) : step s = .next s.busAdvance := by
  simp [step, fetch_of_no_host h, State.blockMove, hh, hp]

theorem step_seq {s : State} (h : s.host = []) (hh : s.hung = false) (hp : s.pending = [])
    (hs : s.stage = []) : step s = .next s.seqStep := by
  simp [step, fetch_of_no_host h, State.blockMove, hh, hp, hs]

/-- The staged bytes of a transaction are decoded and run. -/
theorem step_stage {s : State} (h : s.host = []) (hh : s.hung = false) (hp : s.pending = [])
    {i : Instr} (hs : decodeBus s.stage = .ok i) : step s = exec i { s with stage := [] } := by
  have hne : s.stage ≠ [] := fun e => by rw [e] at hs; cases hs
  obtain ⟨b, bs, hb⟩ := List.exists_cons_of_ne_nil hne
  rw [hb] at hs
  simp [step, fetch_of_no_host h, State.blockMove, hh, hp, hb, decode, hs]

/-! ### What a step can do -/

/-- A block move that answers a next state: stuck, an event, a transaction begun, or the step in
hand. -/
theorem blockMove_cases {c : Params} {s t : State}
    (h : (match s.blockMove with
      | .own u => (Host.Outcome.next u : Host.Outcome State Fault Refusal)
      | .run k u => match decode c k with
        | .ok i => exec i u
        | .error e => .refused (.undecodable e)) = .next t) :
    (s.hung = true ∧ t = s) ∨
    (s.hung = false ∧ s.pending ≠ [] ∧ t = s.busAdvance) ∨
    (s.hung = false ∧ s.pending = [] ∧
      ((∃ ra n, 1 ≤ n ∧ s.stage = readBytes ra n ∧
          t = { s with stage := [], rx := [] }.busBegin (readOps ra n)) ∨
        (∃ ra v, s.stage = writeBytes ra v ∧
          t = { s with stage := [] }.busBegin (writeOps ra v)))) ∨
    (s.hung = false ∧ s.pending = [] ∧ s.stage = [] ∧ t = s.seqStep) := by
  unfold State.blockMove at h
  cases hh : s.hung with
  | true =>
    simp only [hh, if_true] at h
    injection h with h
    exact .inl ⟨rfl, h.symm⟩
  | false =>
    simp only [hh, Bool.false_eq_true, if_false] at h
    cases hp : s.pending with
    | cons op rest =>
      simp only [hp] at h
      injection h with h
      exact .inr (.inl ⟨rfl, by simp, h.symm⟩)
    | nil =>
      simp only [hp] at h
      cases hs : s.stage with
      | nil =>
        simp only [hs] at h
        injection h with h
        exact .inr (.inr (.inr ⟨rfl, rfl, rfl, h.symm⟩))
      | cons b bs =>
        simp only [hs, decode] at h
        refine .inr (.inr (.inl ⟨rfl, rfl, ?_⟩))
        cases hd : decodeBus (b :: bs) with
        | error e => rw [hd] at h; cases h
        | ok i =>
          rw [hd] at h
          rcases decodeBus_cases hd with ⟨ra, n, hn, hb, rfl⟩ | ⟨ra, v, hb, rfl⟩
          · injection h with h
            exact .inl ⟨ra, n, hn, hb, h.symm⟩
          · injection h with h
            exact .inr ⟨ra, v, hb, h.symm⟩

/-- What every step does, once for all invariants: a property that is kept by dropping a host act, by
reset, by an acceptance, by a bus event, by the beginning of a transaction and by a step of the
sequencer is kept by every step. -/
theorem step_keeps {P : State → Prop}
    (host : ∀ s h, P s → P { s with host := h })
    (reset : ∀ s, P s → P s.assertReset)
    (begin : ∀ s, P s → s.seq = .idle → P (s.goto .b0))
    (fread : ∀ s, P s → s.seq = .idle → P (s.goto .f0))
    (cdec : ∀ s v dp, P s → s.seq = .idle → (dp = 0#3 ∨ dp = 2#3 ∨ dp = 3#3 ∨ dp = 4#3) →
      P (s.setCaliper v dp))
    (event : ∀ s, P s → s.hung = false → s.pending ≠ [] → P s.busAdvance)
    (read : ∀ s ra n, P s → s.hung = false → s.pending = [] → 1 ≤ n → s.stage = readBytes ra n →
      P ({ s with stage := [], rx := [] }.busBegin (readOps ra n)))
    (write : ∀ s ra v, P s → s.hung = false → s.pending = [] → s.stage = writeBytes ra v →
      P ({ s with stage := [] }.busBegin (writeOps ra v)))
    (seq : ∀ s, P s → s.hung = false → s.pending = [] → s.stage = [] → P s.seqStep)
    {s t : State} (hs : P s) (h : step s = .next t) : P t := by
  have move : ∀ {c : Params} {s t : State}, P s → (match s.blockMove with
      | .own u => (Host.Outcome.next u : Host.Outcome State Fault Refusal)
      | .run k u => match decode c k with
        | .ok i => exec i u
        | .error e => .refused (.undecodable e)) = .next t → P t := by
    intro c s t hs h
    rcases blockMove_cases h with ⟨_, rfl⟩ | ⟨hh, hp, rfl⟩ |
      ⟨hh, hp, ⟨ra, n, hn, hb, rfl⟩ | ⟨ra, v, hb, rfl⟩⟩ | ⟨hh, hp, hst, rfl⟩
    · exact hs
    · exact event s hs hh hp
    · exact read s ra n hs hh hp hn hb
    · exact write s ra v hs hh hp hb
    · exact seq s hs hh hp hst
  have cmd : ∀ {c : Params} {s t : State} {w : CmdWord}, P s → exec (decodeCommand c w) s = .next t → P t := by
    intro c s t w hs h
    rcases exec_command_cases h with rfl | ⟨hi, rfl | rfl | ⟨v, dp, hdp, rfl⟩⟩
    · exact hs
    · exact begin s hs hi
    · exact fread s hs hi
    · exact cdec s v dp hs hi hdp
  unfold step State.fetch at h
  cases hhost : s.host with
  | nil => simp only [hhost] at h; exact move hs h
  | cons a rest =>
    cases a with
    | tick => simp only [hhost] at h; exact move (host s rest hs) h
    | reset =>
      simp only [hhost] at h
      injection h with h
      exact h ▸ reset _ (host s rest hs)
    | present w => simp only [hhost, decode] at h; exact cmd (host s rest hs) h
    | call w =>
      simp only [hhost] at h
      cases hb : s.busy with
      | true => simp only [hb, if_true] at h; exact move hs h
      | false =>
        simp only [hb, Bool.false_eq_true, if_false, decode] at h
        exact cmd (host s rest hs) h

end Sys2Proof.Machine
end

