-- ==== Sys2Proof/Laws/PerInstr.lean ====
section
/-! SUPPORT. Statements made per instruction. Family `Coding`: what the encoder writes, the decoder
reads back with every operand (spec/30_encoding.md rules R50 to R58). -/

namespace Sys2Proof.Laws.Coding

/-- The decoder reads back what the encoder writes of a well-formed instruction, at all parameters whose
three command codes differ. -/
def Statement (i : Instr) : Prop :=
  ∀ c : Params, c.codesDiffer = true → i.wf = true → decode c (encode c i) = .ok i

theorem begin (frame : Word) : Statement (.begin frame) := fun c _ _ => by
  simp [encode, decode, decodeCommand]

theorem fread (frame : Word) : Statement (.fread frame) := fun c hc _ => by
  simp [encode, decode, decodeCommand, ((Params.codesDiffer_iff c).mp hc).1.symm]

theorem cdecNodata : Statement .cdecNodata := fun c hc _ => by
  simp [encode, decode, decodeCommand_cdec hc, decodeFrame]

theorem cdecMm (hi : BitVec 8) (mid : BitVec 2) (sign : Bool) (mag : BitVec 20) :
    Statement (.cdecMm hi mid sign mag) := fun c hc _ => by
  rw [encode, decode, decodeCommand_cdec hc, decodeFrame, if_neg (frameOf_metric_ne_sentinel hi mid sign mag),
    if_pos (frameOf_unit ..), frameOf_hi, frameOf_mid, frameOf_sign, frameOf_mag]

theorem cdecIn (hi : BitVec 8) (mid : BitVec 2) (sign : Bool) (count : BitVec 19) :
    Statement (.cdecIn hi mid sign count) := fun c hc _ => by
  rw [encode, decode, decodeCommand_cdec hc, decodeFrame, if_neg (frameOf_inNoHalf_ne_sentinel hi mid sign count),
    if_neg (by rw [frameOf_unit]; decide), if_pos (by rw [frameOf_half]; decide), frameOf_hi,
    frameOf_mid, frameOf_sign, frameOf_count]

theorem cdecInh (hi : BitVec 8) (mid : BitVec 2) (sign : Bool) (count : BitVec 19) :
    Statement (.cdecInh hi mid sign count) := fun c hc hwf => by
  have hne : frameOf hi true mid sign (count ++ 1#1) ≠ Config.sentinel := fun h => by
    obtain ⟨rfl, rfl, rfl, rfl⟩ := frameOf_half_sentinel h
    exact absurd hwf (by decide)
  rw [encode, decode, decodeCommand_cdec hc, decodeFrame, if_neg hne,
    if_neg (by rw [frameOf_unit]; decide), if_neg (by rw [frameOf_half]; decide), frameOf_hi,
    frameOf_mid, frameOf_sign, frameOf_count]

theorem reservedOp3 (frame : Word) : Statement (.reservedOp3 frame) := fun c hc _ => by
  rw [encode, decode, decodeCommand_reserved hc]

theorem rreg (ra : RegAddr) (n : Nat) : Statement (.rreg ra n) := fun _ _ hwf =>
  decodeBus_readBytes ra (of_decide_eq_true hwf)

theorem wreg (ra : RegAddr) (v : Byte) : Statement (.wreg ra v) := fun _ _ _ =>
  decodeBus_writeBytes ra v

end Sys2Proof.Laws.Coding
end

