-- ==== Sys2Proof/Laws/Run.lean ====
section
/-! SUPPORT. Runs of the quiet machine: how runs compose, and what a whole bus transaction does
(spec/40_bus_transactions.md rules R70, R71). -/

namespace Sys2Proof.Machine

theorem runsTo_zero (s : State) : RunsTo 0 s s := rfl

/-- One step is a run of one step. -/
theorem runsTo_one {s u : State} (h : step s = .next u) : RunsTo 1 s u := ⟨u, h, rfl⟩

/-- Runs compose. -/
theorem RunsTo.trans {m n : Nat} {s u v : State} (h1 : RunsTo m s u) (h2 : RunsTo n u v) :
    RunsTo (m + n) s v := by
  induction m generalizing s with
  | zero => rw [Nat.zero_add]; exact (h1 : s = u) ▸ h2
  | succ m ih =>
    obtain ⟨t, ht, h⟩ := h1
    rw [Nat.succ_add]
    exact ⟨t, ht, ih h⟩

/-- A run of the host's machine is a run of these steps, for any machine. -/
theorem run_succ_iff (M : Host.Core) (k : Nat) (s u : M.State) :
    M.run (k + 1) s = .next u ↔ ∃ t, M.step s = .next t ∧ M.run k t = .next u := by
  rw [Host.Core.run]
  cases M.step s <;> simp

/-- `RunsTo` is the host's `run` of this machine. -/
theorem runsTo_iff_run (k : Nat) (s u : State) :
    RunsTo k s u ↔ Host.Core.run Sys2Proof.core k s = Host.Outcome.next u := by
  induction k generalizing s with
  | zero => exact ⟨fun h => congrArg Host.Outcome.next h, fun h => Host.Outcome.next.inj h⟩
  | succ k ih =>
    refine Iff.trans ?_ (run_succ_iff Sys2Proof.core k s u).symm
    exact ⟨fun ⟨t, h1, h2⟩ => ⟨t, h1, (ih t).mp h2⟩, fun ⟨t, h1, h2⟩ => ⟨t, h1, (ih t).mpr h2⟩⟩

/-- A quiet machine with an exchange due makes it. -/
theorem runsTo_xfer {s : State} (hq : Quiet s) {o : Byte} {keep : Bool} {rest : List BusOp}
    (hp : s.pending = .xfer o keep :: rest) :
    RunsTo 1 s ({ s with pending := rest }.transfer o keep) := by
  apply runsTo_one
  rw [step_pending hq.1 hq.2.2 hp]
  simp [State.busAdvance, hp, State.capability_returns hq.2.1, State.busOp]

/-- A quiet machine with the end of a transaction due makes it. -/
theorem runsTo_deselect {s : State} (hq : Quiet s) {rest : List BusOp}
    (hp : s.pending = .deselect :: rest) :
    RunsTo 1 s ({ s with pending := rest }.emit .deselect) := by
  apply runsTo_one
  rw [step_pending hq.1 hq.2.2 hp]
  simp [State.busAdvance, hp, State.capability_returns hq.2.1, State.busOp]

/-- What an exchange changes. -/
theorem transfer_eq (s : State) (o : Byte) (keep : Bool) :
    s.transfer o keep = { s with
      rx := if keep then s.rx ++ [s.nextByte] else s.rx
      miso := s.miso.tail
      sensor := s.sensor.observe s.cfg (.xfer o s.nextByte) s.draws
      trace := s.trace ++ [.xfer o s.nextByte]
      draws := s.draws + 2 } := rfl

/-- What the end of a transaction changes. -/
theorem emit_deselect_eq (s : State) :
    s.emit .deselect = { s with
      sel := .high
      sensor := s.sensor.observe s.cfg .deselect s.draws
      trace := s.trace ++ [.deselect]
      draws := s.draws + 2 } := rfl

/-- What the beginning of a transaction changes, in a quiet machine. -/
theorem busBegin_eq {s : State} (h : s.hangs = []) (rest : List BusOp) :
    s.busBegin (.select :: rest) = { s with
      pending := rest
      sel := .low
      sensor := s.sensor.observe s.cfg .select s.draws
      trace := s.trace ++ [.select]
      draws := s.draws + 2 } := by
  simp only [State.busBegin, State.busAdvance, State.capability, h]
  rfl

/-- The byte an exchange returns is the first scripted one, where there is one. -/
theorem take_one_prefix_nextByte (s : State) : s.miso.take 1 <+: [s.nextByte] := by
  unfold State.nextByte
  cases s.miso with
  | nil => simp
  | cons b m => simp

/-- A quiet machine with `k` data exchanges of a read due makes them: it receives `k` bytes, the
scripted ones first, and nothing else changes but the sensor and the count of draws. -/
theorem runsTo_reads (k : Nat) {s : State} (hq : Quiet s) {rest : List BusOp}
    (hp : s.pending = List.replicate k (BusOp.xfer Config.dummy true) ++ rest) :
    ∃ (bs : List Byte) (u : State), RunsTo k s u ∧ bs.length = k ∧ s.miso.take k <+: bs ∧
      u = { s with
        pending := rest
        rx := s.rx ++ bs
        trace := s.trace ++ bs.map (Event.xfer Config.dummy)
        miso := s.miso.drop k
        sensor := u.sensor
        draws := u.draws } := by
  induction k generalizing s with
  | zero =>
    have hp' : s.pending = rest := by simpa using hp
    exact ⟨[], s, rfl, rfl, by simp, by simp [← hp']⟩
  | succ k ih =>
    rw [List.replicate_succ, List.cons_append] at hp
    have h1 := runsTo_xfer hq hp
    rw [transfer_eq] at h1
    obtain ⟨bs, u, hu, hlen, hpre, heq⟩ := ih (s := { s with
      pending := List.replicate k (BusOp.xfer Config.dummy true) ++ rest
      rx := s.rx ++ [s.nextByte]
      miso := s.miso.tail
      sensor := s.sensor.observe s.cfg (.xfer Config.dummy s.nextByte) s.draws
      trace := s.trace ++ [.xfer Config.dummy s.nextByte]
      draws := s.draws + 2 }) hq rfl
    refine ⟨s.nextByte :: bs, u, ?_, by simp [hlen], ?_, ?_⟩
    · rw [Nat.add_comm]; exact h1.trans hu
    · have hb := take_one_prefix_nextByte s
      cases hm : s.miso with
      | nil => simp
      | cons b m =>
        simp only [hm] at hpre hb
        have hb' : b = s.nextByte := by simpa using hb
        simpa [hb'] using hpre
    · rw [heq]
      simp [List.append_assoc]

/-- The events still due of a read after its `Select`, run to the end. -/
theorem runsTo_read_rest {s : State} (hq : Quiet s) (ra : RegAddr) (n : Nat)
    (hp : s.pending = BusOp.xfer (header true ra) false ::
      (List.replicate n (BusOp.xfer Config.dummy true) ++ [BusOp.deselect])) :
    ∃ (h : Byte) (bs : List Byte) (u : State), RunsTo (n + 2) s u ∧ bs.length = n ∧
      s.miso.take (n + 1) <+: h :: bs ∧
      u = { s with
        pending := []
        rx := s.rx ++ bs
        sel := .high
        trace := s.trace ++ (Event.xfer (header true ra) h :: (bs.map (Event.xfer Config.dummy) ++
          [Event.deselect]))
        miso := s.miso.drop (n + 1)
        sensor := u.sensor
        draws := u.draws } := by
  have h1 := runsTo_xfer hq hp
  rw [transfer_eq] at h1
  obtain ⟨bs, u, hu, hlen, hpre, heq⟩ := runsTo_reads n (s := { s with
    pending := List.replicate n (BusOp.xfer Config.dummy true) ++ [BusOp.deselect]
    miso := s.miso.tail
    sensor := s.sensor.observe s.cfg (.xfer (header true ra) s.nextByte) s.draws
    trace := s.trace ++ [.xfer (header true ra) s.nextByte]
    draws := s.draws + 2 }) hq rfl
  have hqu : Quiet u := by rw [heq]; exact hq
  have hpu : u.pending = [BusOp.deselect] := by rw [heq]
  have hcu : u.cfg = s.cfg := by rw [heq]
  have h3 := runsTo_deselect hqu hpu
  rw [emit_deselect_eq] at h3
  have hrun := (h1.trans hu).trans h3
  rw [show 1 + n + 1 = n + 2 by omega] at hrun
  refine ⟨s.nextByte, bs, _, hrun, hlen, ?_, ?_⟩
  · have hb := take_one_prefix_nextByte s
    cases hm : s.miso with
    | nil => simp
    | cons b m =>
      simp only [hm] at hpre hb
      have hb' : b = s.nextByte := by simpa using hb
      simpa [hb'] using hpre
  · conv_lhs => rw [heq]
    simp [List.append_assoc, hcu]

/-- The events still due of a write after its `Select`, run to the end. -/
theorem runsTo_write_rest {s : State} (hq : Quiet s) (ra : RegAddr) (v : Byte)
    (hp : s.pending = [BusOp.xfer (header false ra) false, BusOp.xfer v false, BusOp.deselect]) :
    ∃ (h r : Byte) (u : State), RunsTo 3 s u ∧ s.miso.take 2 <+: [h, r] ∧
      u = { s with
        pending := []
        sel := .high
        trace := s.trace ++ [Event.xfer (header false ra) h, Event.xfer v r, Event.deselect]
        miso := s.miso.drop 2
        sensor := u.sensor
        draws := u.draws } := by
  have h1 := runsTo_xfer hq hp
  rw [transfer_eq] at h1
  obtain ⟨s1, hs1⟩ : ∃ s1 : State, s1 = { s with
    pending := [BusOp.xfer v false, BusOp.deselect]
    miso := s.miso.tail
    sensor := s.sensor.observe s.cfg (.xfer (header false ra) s.nextByte) s.draws
    trace := s.trace ++ [.xfer (header false ra) s.nextByte]
    draws := s.draws + 2 } := ⟨_, rfl⟩
  have hq1 : Quiet s1 := by rw [hs1]; exact hq
  have h2 := runsTo_xfer (s := s1) hq1 (by rw [hs1])
  rw [transfer_eq] at h2
  obtain ⟨s2, hs2⟩ : ∃ s2 : State, s2 = { s1 with
    pending := [BusOp.deselect]
    miso := s1.miso.tail
    sensor := s1.sensor.observe s1.cfg (.xfer v s1.nextByte) s1.draws
    trace := s1.trace ++ [.xfer v s1.nextByte]
    draws := s1.draws + 2 } := ⟨_, rfl⟩
  have hq2 : Quiet s2 := by rw [hs2]; exact hq1
  have h3 := runsTo_deselect (s := s2) hq2 (by rw [hs2])
  rw [emit_deselect_eq] at h3
  have h1' : RunsTo 1 s s1 := by rw [hs1]; exact h1
  have h2' : RunsTo 1 s1 s2 := by rw [hs2]; exact h2
  refine ⟨s.nextByte, s1.nextByte, _, (h1'.trans h2').trans h3, ?_, ?_⟩
  · have hb := take_one_prefix_nextByte s
    have hb2 := take_one_prefix_nextByte s1
    have hm1 : s1.miso = s.miso.tail := by rw [hs1]
    rw [hm1] at hb2
    cases hm : s.miso with
    | nil => simp
    | cons b m =>
      rw [hm] at hb hb2
      have hb' : b = s.nextByte := by simpa using hb
      simpa [hb'] using hb2
  · simp only [hs2]
    generalize s1.nextByte = r
    simp [hs1, ← List.drop_one]

end Sys2Proof.Machine
end

