-- ==== Sys2Proof/Tests/Slice0.lean ====
section
/-! SUPPORT. Tests of the model on fixed values (expected results from spec/95_test_vectors.md and the
examples of the rules), the smoke test of `WellFormed`, and for each statement with hypotheses a witness
that meets them. -/

open Sys2Proof Sys2Proof.Machine

namespace Sys2Proof.Tests

/-! ### Helpers -/

/-- The next state of an outcome. -/
def nextOf (o : Host.Outcome State Fault Refusal) : Option State :=
  match o with
  | .next s => some s
  | .fault _ => none
  | .refused _ => none

/-- Reset, moved to a step of the sequencer with nothing staged. -/
def atStep (q : Seq) : State := { State.reset with seq := q }

/-- Reset, at a step whose transaction is staged. -/
def staged (q : Seq) : State := State.reset.goto q

/-- Reset with the reference sensor on the bus, its chip id at its reset content, `config` another. -/
def withSensor : State :=
  { State.reset with
    sensor := { present := true, regs := [(0x75, 0x04#8)],
                samples := [(415148#20, 519888#20)], lasts := [0], phase := .off, conversions := [] } }

/-- Other addresses, register by register apart, `id` where `status` is listed, and low bytes second. -/
def otherMap : Params :=
  { Params.default with
    chipIdReg := 0xF3#8, calibBase := 0x80#8, ctrlMeasReg := 0xC0#8, configReg := 0xC1#8, dataBase := 0xE0#8,
    calByteOrder := .highByteFirst }

/-- The sensor with its registers there. -/
def withMovedSensor : State :=
  { withSensor with cfg := otherMap, sensor := { withSensor.sensor with regs := [] } }

/-- The same with a conversion that lasts longer than the delay. -/
def withSlowSensor : State := { withSensor with sensor := { withSensor.sensor with lasts := [1] } }

/-- Other command codes, all different. -/
def otherCodes : Params :=
  { Params.default with cmdBegin := 3#2, cmdFread := 2#2, cmdCdec := 0#2 }

/-- What a row's word does as the first instruction after reset. -/
def firstStep {α : Type} (nbits w : Nat) (f : State → α) : Option α :=
  (nextOf (step (State.reset.withFetchWord nbits w))).map f

/-- `COMP_T` of the example coefficients (spec/95_test_vectors.md). -/
def exampleTemp (adcT : Int) : Int × Int :=
  ((compT 27504 26435 (-1000) adcT).tFine, (compT 27504 26435 (-1000) adcT).t)

/-- A pressure routine at the example coefficients. -/
def examplePress (f : Int → Int → Int → Int → Int → Int → Int → Int → Int → Int → Int → Int)
    (tFine adcP : Int) : Int :=
  f 36477 (-10685) 3024 2855 140 (-7) 15500 (-14600) 6000 tFine adcP

/-! ### WellFormed -/

theorem test_wf_refuses_sentinel_as_inh : (Instr.cdecInh 0xFF#8 3#2 true 0x7FFFF#19).wf = false := by
  decide

theorem test_wf_refuses_empty_read : (Instr.rreg 0x50#7 0).wf = false := by decide

theorem test_wf_admits_neighbours :
    (Instr.cdecInh 0xFE#8 3#2 true 0x7FFFF#19).wf = true ∧
    (Instr.cdecInh 0xFF#8 2#2 true 0x7FFFF#19).wf = true ∧
    (Instr.cdecInh 0xFF#8 3#2 false 0x7FFFF#19).wf = true ∧
    (Instr.cdecInh 0xFF#8 3#2 true 0x7FFFE#19).wf = true ∧ (Instr.rreg 0x50#7 1).wf = true := by
  decide

/-! ### Decoding: words written out from the encodings of spec/30_encoding.md -/

/-- Rule R62: `BEGIN` is `op = 0`, `frame = 0`; rule R50: any frame is accepted. -/
theorem test_decode_begin :
    decode Params.default (.cw 0b00_00000000000000000000000000000000#34) = .ok (.begin 0#32) ∧
    decode Params.default (.cw 0b00_10000000000000000000000000000001#34) = .ok (.begin 0x80000001#32) := by decide

theorem test_decode_fread :
    decode Params.default (.cw 0b01_00000000000000000000000000000000#34) = .ok (.fread 0#32) ∧
    decode Params.default (.cw 0b01_11111111111111111111111111111111#34) = .ok (.fread 0xFFFFFFFF#32) := by decide

theorem test_decode_cdecNodata :
    decode Params.default (.cw 0b10_11111111111111111111111111111111#34) = .ok .cdecNodata := by decide

/-- `unit = 0`: bits 31:24 `10100101`, 22:21 `10`, sign, `mag` of rule R55. -/
theorem test_decode_cdecMm :
    decode Params.default (.cw 0b10_10100101_0_10_1_00000011000000111001#34) =
      .ok (.cdecMm 0xA5#8 2#2 true 12345#20) := by decide

theorem test_decode_cdecIn :
    decode Params.default (.cw 0b10_00000001_1_01_0_0000000100110100100_0#34) =
      .ok (.cdecIn 0x01#8 1#2 false 2468#19) := by decide

theorem test_decode_cdecInh :
    decode Params.default (.cw 0b10_11111111_1_11_1_1111111111111111110_1#34) =
      .ok (.cdecInh 0xFF#8 3#2 true 0x7FFFE#19) := by decide

/-- Rule R59: `0x7FFFFFFF` and `0x009FFFFF` are not the sentinel; V45: `0xFFFFFFFE` neither. -/
theorem test_decode_near_sentinel :
    decode Params.default (.cw 0x27FFFFFFF#34) = .ok (.cdecInh 0x7F#8 3#2 true 0x7FFFF#19) ∧
    decode Params.default (.cw 0x2009FFFFF#34) = .ok (.cdecInh 0x00#8 0#2 true 0x7FFFF#19) ∧
    decode Params.default (.cw 0x2FFFFFFFE#34) = .ok (.cdecIn 0xFF#8 3#2 true 0x7FFFF#19) := by decide

theorem test_decode_reserved :
    decode Params.default (.cw 0b11_00000000000000000000000000000101#34) = .ok (.reservedOp3 5#32) := by decide

/-- V69: the headers of `0xD0` (read) and of `0xF5` (write). -/
theorem test_decode_bus :
    decode Params.default (.bus [0b1_1010000#8, 0#8]) = .ok (.rreg 0x50#7 1) ∧
    decode Params.default (.bus [0b1_1110111#8, 0#8, 0#8, 0#8, 0#8, 0#8, 0#8]) = .ok (.rreg 0x77#7 6) ∧
    decode Params.default (.bus [0b0_1110101#8, 0x00#8]) = .ok (.wreg 0x75#7 0x00#8) := by decide

/-- The byte strings that are no transaction (rules R31, R32, U11). -/
theorem test_decode_refuses :
    decode Params.default (.bus []) = .error .noHeader ∧ decode Params.default (.bus [0xD0#8]) = .error .noData ∧
    decode Params.default (.bus [0xD0#8, 1#8]) = .error .notDummy ∧
    decode Params.default (.bus [0x74#8, 1#8, 2#8]) = .error .multiByteWrite := by decide

/-- V69: header bytes. -/
theorem test_headers :
    header true (regOf 0xD0#8) = 0xD0#8 ∧ header false (regOf 0xF4#8) = 0x74#8 ∧
    header true (regOf 0x74#8) = 0xF4#8 := by decide

/-! ### Operand assembly and arithmetic (spec/95_test_vectors.md 2.1 to 2.5) -/

/-- Rule R82: `c[4] = 0x18`, `c[5] = 0xFC` gives `0xFC18`, `dig_T3 = -1000`; V20a: `0x8000`. -/
theorem test_unpackCal :
    coefInt true (pairHalf .lowByteFirst 0x18#8 0xFC#8) = -1000 ∧
    coefInt false (pairHalf .lowByteFirst 0x00#8 0x80#8) = 32768 ∧
    coefInt true (pairHalf .lowByteFirst 0x00#8 0x80#8) = -32768 := by decide

/-- V21a and V21e. -/
theorem test_unpackAdc :
    unpackAdc .msbFirst #v[0x65#8, 0x5A#8, 0xCF#8, 0x7E#8, 0xED#8, 0x0F#8] = (415148#20, 519888#20) ∧
    unpackAdc .msbFirst #v[0x12#8, 0x34#8, 0x56#8, 0x78#8, 0x9A#8, 0xBC#8] = (74565#20, 493995#20) := by
  decide

/-- V1, V2 and V3. -/
theorem test_compT : exampleTemp 519888 = (128422, 2508) ∧ exampleTemp 0 = (-721301, -14088) ∧
    exampleTemp 1048575 = (960246, 18755) := by decide +kernel

/-- V10, V13, V15, V18c, V18d and V19d. -/
theorem test_compP :
    examplePress compP 128422 415148 = 25767233 ∧ examplePress compP 128422 524288 = 20959920 ∧
    compP 0 (-10685) 3024 2855 140 (-7) 15500 (-14600) 6000 128422 415148 = 0 ∧
    compP 36477 0 0 32767 0 0 0 0 0 128000 1048575 = 4271971062 ∧
    compP 36477 0 (-32768) 0 0 0 0 0 0 1179648 415148 = 3855031744 ∧
    examplePress compP 960246 1048575 = 4292524766 := by decide +kernel

/-- V22 and V25. -/
theorem test_compP32 : examplePress compP32 128422 415148 = 100656 ∧
    compP32 0 (-10685) 3024 2855 140 (-7) 15500 (-14600) 6000 128422 415148 = 0 := by decide +kernel

/-- V29a, V29e, V29f, V29i, V29k and V29l. -/
theorem test_integer_laws :
    mul32 131071 32767 = -163839 ∧ asr (-6076000) 14 = -371 ∧ tdiv64 (-7) 2 = -3 ∧ tdiv64 (-7) (-2) = 3 ∧
    tdiv64 (-2 ^ 63) (-1) = -2 ^ 63 ∧ u32 (-1697504) = 4293269792 ∧ sextN 16 0x8000 = -32768 ∧
    zextN 16 0x8000 = 32768 := by decide +kernel

/-! ### One step of each instruction, as the first after reset -/

/-- Rule R13: accepting `BEGIN` sets `seq <- B0`. -/
theorem test_begin_accepted : firstStep 40 0x000000000 (fun s => s.seq) = some .b0 := by decide

/-- Rule R84: presented while busy it has no effect. -/
theorem test_begin_busy : (nextOf (exec (.begin 0#32) (atStep .f1))).map (fun s => s.seq) = some .f1 := by
  decide

/-- Rule R13: accepting `FREAD` sets `seq <- F0`, whose transaction is V63's bytes. -/
theorem test_fread_accepted :
    firstStep 40 0x100000000 (fun s => (s.seq, s.stage)) = some (.f0, [0x74#8, 0x25#8]) := by decide

/-- V30 (S1). -/
theorem test_cdec_nodata :
    firstStep 40 0x2FFFFFFFF (fun s => (s.valOut, s.dpOut)) = some (0x00000000#32, 0#3) := by
  decide +kernel

/-- V34 and V40. -/
theorem test_cdec_mm :
    firstStep 40 0x200103039 (fun s => (s.valOut, s.dpOut)) = some (0xC2F6E666#32, 2#3) ∧
    firstStep 40 0x200100000 (fun s => (s.valOut, s.dpOut)) = some (0x80000000#32, 2#3) := by
  decide +kernel

/-- V32 (S3) and V45. -/
theorem test_cdec_in :
    firstStep 40 0x2008009A4 (fun s => (s.valOut, s.dpOut)) = some (0x3F9DF3B6#32, 3#3) ∧
    firstStep 40 0x2FFFFFFFE (fun s => (s.valOut, s.dpOut)) = some (0xC403125E#32, 3#3) := by
  decide +kernel

/-- V35 and V54 (the double rounding). -/
theorem test_cdec_inh :
    firstStep 40 0x2009009A5 (fun s => (s.valOut, s.dpOut)) = some (0xBF9E0418#32, 4#3) ∧
    firstStep 40 0x200800005 (fun s => (s.valOut, s.dpOut)) = some (0x3B23D70B#32, 4#3) := by
  decide +kernel

/-- PROG7: not accepted, no state change, no event. -/
theorem test_reserved : firstStep 40 0x300000000 (fun s => (s.seq, s.trace, s.history)) =
    some (.idle, [], []) := by decide

/-- V60: the transaction begins with `Select`, and the header and one dummy byte follow. -/
theorem test_rreg : firstStep 8 0xD0 (fun s => (s.sel, s.trace, s.pending)) =
    some (.low, [.select], [.xfer 0xD0#8 false, .xfer 0x00#8 true, .deselect]) := by decide

/-- V61, its value byte zero. -/
theorem test_wreg : firstStep 8 0x75 (fun s => (s.sel, s.trace, s.pending)) =
    some (.low, [.select], [.xfer 0x75#8 false, .xfer 0x00#8 false, .deselect]) := by decide

/-! ### Single steps of the sequencer, the sensor and reset -/

/-- Step B2 (rule R80): 0x58 goes on, any other byte fails with status 1 (V67). -/
theorem test_b2 :
    (nextOf (step { atStep .b2 with idByte := 0x58#8 })).map (fun s => (s.seq, s.stage)) =
      some (.b3, [0x75#8, 0x00#8]) ∧
    (nextOf (step { atStep .b2 with idByte := 0xFF#8 })).map (fun s => (s.seq, s.statusOut, s.stage)) =
      some (.idle, 1#8, []) := by decide

/-- Step F6 (rule R81). -/
theorem test_f6 : (nextOf (step { atStep .f6 with tRes := 2508#32, pRes := 25767233#32 })).map
    (fun s => (s.seq, s.tOut, s.pOut)) = some (.idle, 2508#32, 25767233#32) := by decide

/-- Rule R72: step B0 issues `SetMode(0)`; rule R73: step F1 issues `Delay`, the line stays high. -/
theorem test_capability_steps :
    (nextOf (step (atStep .b0))).map (fun s => (s.seq, s.trace, s.spiMode)) =
      some (.b1, [.setMode 0#2], 0#2) ∧
    (nextOf (step (atStep .f1))).map (fun s => (s.seq, s.trace, s.sel)) =
      some (.f2, [.delay], .high) := by decide

/-- Rule R33: the reference sensor's `id`, its forced mode and its new sample (V21's bytes). -/
theorem test_reference_sensor :
    Memory.read [] Params.default 0x50 = 0x58#8 ∧
    (withSensor.sensor.store .default 0x74#7 0x25#8 0).conversions =
      [{ left := 0, press := 415148#20, temp := 519888#20 }] ∧
    ((withSensor.sensor.store .default 0x74#7 0x25#8 0).observe .default .delay 2).regs =
      [(0x74, 0x24#8), (0x75, 0x04#8), (0x77, 0x65#8), (0x78, 0x5A#8), (0x79, 0xC0#8), (0x7A, 0x7E#8),
       (0x7B, 0xED#8)] := by decide +kernel

/-- Rule R141: a conversion that outlasts the delay leaves the data registers as they are; after the next
burst it has ended. -/
theorem test_short_delay :
    ((withSlowSensor.sensor.store .default 0x74#7 0x25#8 0).observe .default .delay 2).regs =
      [(0x74, 0x25#8), (0x75, 0x04#8)] ∧
    ((((withSlowSensor.sensor.store .default 0x74#7 0x25#8 0).observe .default .delay 2).observe .default
      .select 4).observe .default .deselect 6).regs.read Params.default 0x77 = 0x65#8 := by decide +kernel

/-- Rule R36: each forced write starts a conversion, a sleep-mode write none (the first goes on). -/
theorem test_each_forced_write_converts :
    ((withSensor.sensor.store .default 0x74#7 0x25#8 0).store .default 0x74#7 0x26#8 2).conversions.length =
      2 ∧
    ((withSensor.sensor.store .default 0x74#7 0x25#8 0).store .default 0x74#7 0x24#8 2).conversions.length =
      1 := by decide

/-- Rule R18: `status` bit 3 is set in a read while a conversion goes on, and clear when none does. -/
theorem test_status_measuring (n : Nat) :
    ({ withSensor.sensor with phase := .reading 0x73 }.reply .default n).map (BitVec.getLsbD · 3) = some false ∧
    ({ withSensor.sensor.store .default 0x74#7 0x25#8 0 with phase := .reading 0x73 }.reply .default n).map
      (BitVec.getLsbD · 3) = some true := by
  constructor <;> rw [Sensor.reply_reading rfl (by decide)] <;>
    exact congrArg some (Sensor.status_measuring _ n)

/-- Rules R6, R18: the sensor's registers are where the parameters place them. -/
theorem test_moved_registers :
    Memory.read [] otherMap 0x73 = 0x58#8 ∧ statusReg otherMap 0x73 = false ∧
    resetReg otherMap 0x60 = false ∧
    (withMovedSensor.sensor.store otherMap 0x17#7 0xFF#8 0).regs = [] ∧
    ((withMovedSensor.sensor.store otherMap 0x40#7 0x25#8 0).observe otherMap .delay 2).regs =
      [(0x40, 0x24#8), (0x60, 0x65#8), (0x61, 0x5A#8), (0x62, 0xC0#8), (0x63, 0x7E#8), (0x64, 0xED#8)] := by
  decide +kernel

/-- Rule R18: bits 3:0 of the `xlsb` registers read as 0; an oversampling of `000` skips the channel. -/
theorem test_xlsb_and_skipped :
    (Memory.write [] .default 0x79 0x0F#8).read .default 0x79 = 0x00#8 ∧
    (Memory.write [] .default 0x7C 0xFF#8).read .default 0x7C = 0xF0#8 ∧
    ((withSensor.sensor.store .default 0x74#7 0x21#8 0).observe .default .delay 2).regs.read .default 0x77 =
      0x80#8 := by
  decide +kernel

/-- Rule R6: with other command codes the same words are other commands. -/
theorem test_other_codes :
    decode otherCodes (.cw 0x300000007#34) = .ok (.begin 7#32) ∧
    decode otherCodes (.cw 0x0FFFFFFFF#34) = .ok .cdecNodata ∧
    decode otherCodes (.cw 0x100000000#34) = .ok (.reservedOp3 0#32) ∧ otherCodes.legal = true := by
  decide

/-- Writing what an unlisted register reads as removes the entry; the block's calibration is kept. -/
theorem test_memory_canonical :
    Memory.write [(0x74, 0x25#8)] .default 0x74 0x00#8 = [] ∧
    (withSensor.sensor.store .default 0x08#7 0xFF#8 0).regs = withSensor.sensor.regs := by decide

/-- Log entry 4: a reset that cuts a read short ends the conversions that are due, and nothing else. -/
theorem test_cut_short_read :
    ({ withSensor.sensor with phase := .reading 0x78 }.cutShort .default 0).regs = withSensor.sensor.regs ∧
    ({ withSensor.sensor with phase := .selected }.cutShort .default 0).phase = .off := by decide

/-- Rule R135: a reset in the middle of a transaction deasserts the line and does nothing else on the bus. -/
theorem test_reset_mid_transaction :
    (nextOf (step { atStep .b1 with sel := .low, trace := [.select], host := [.reset] })).map
      (fun s => (s.seq, s.sel, s.trace, s.hung)) = some (.idle, .high, [.select, .deselect], false) := by
  decide

/-! ### Witnesses: encoding -/

theorem test_witness_DecodeInvertsEncode :
    Params.default.codesDiffer = true ∧ otherCodes.codesDiffer = true ∧
    (Instr.cdecInh 0xFF#8 3#2 true 0x7FFFE#19).wf = true ∧ (Instr.rreg 0x00#7 1).wf = true := by decide

theorem test_witness_EncodeInvertsDecode :
    Params.default.codesDiffer = true ∧
    decode Params.default (.cw 0x27FFFFFFF#34) = .ok (.cdecInh 0x7F#8 3#2 true 0x7FFFF#19) ∧
    decode Params.default (.bus [0xFF#8, 0#8]) = .ok (.rreg 0x7F#7 1) := by decide

/-- One word for each clause, at the value next to the sentinel where there is one. -/
theorem test_witness_OpcodeMapSelectsRows :
    Params.default.codesDiffer = true ∧
    (0x0FFFFFFFF#34).extractLsb' 32 2 = 0#2 ∧ (0x100000000#34).extractLsb' 32 2 = 1#2 ∧
    (0x2FFFFFFFF#34).extractLsb' 32 2 = 2#2 ∧ (0x300000000#34).extractLsb' 32 2 = 3#2 ∧
    (0xFF7FFFFF#32).getLsbD 23 = false ∧
    (0xFFFFFFFE#32).getLsbD 23 = true ∧ (0xFFFFFFFE#32).getLsbD 0 = false ∧
    (0x7FFFFFFF#32).getLsbD 23 = true ∧ (0x7FFFFFFF#32).getLsbD 0 = true ∧
    0x7FFFFFFF#32 ≠ 0xFFFFFFFF#32 ∧ 1 ≤ (1 : Nat) ∧
    decode Params.default (.bus [0x80#8, 0#8]) = .ok (.rreg 0#7 1) ∧
    decode Params.default (.bus [0x7F#8, 0xFF#8]) = .ok (.wreg 0x7F#7 0xFF#8) := by decide

/-! ### Witnesses: steps and commands -/

theorem test_witness_StepRunsDecodedInstruction :
    decode Params.default (.cw 0x100000000#34) = .ok (.fread 0#32) ∧
    ({ State.reset with host := [.present 0x100000000#34] } : State).host =
      .present 0x100000000#34 :: [] ∧
    ({ State.reset with host := [.call 0x100000000#34] } : State).host = .call 0x100000000#34 :: [] ∧
    ({ State.reset with host := [.call 0x100000000#34] } : State).seq = .idle ∧
    (staged .b3).host = [] ∧ (staged .b3).hung = false ∧ (staged .b3).pending = [] ∧
    decode Params.default (.bus (staged .b3).stage) = .ok (.wreg 0x75#7 0x00#8) := by decide

theorem test_witness_PlacedRowRunsNext :
    tableCode 40 0x2FFFFFFFF = some (.cw 0x2FFFFFFFF#34) ∧
    decode State.reset.cfg (.cw 0x2FFFFFFFF#34) = .ok .cdecNodata ∧ 8 < 40 ∧
    tableCode 8 0xD0 = some (.bus [0xD0#8, 0#8]) ∧
    decode State.reset.cfg (.bus [0xD0#8, 0#8]) = .ok (.rreg 0x50#7 1) ∧ 8 ≤ 8 := by decide

/-- The block at reset is idle, its bus free, its environment quiet. -/
theorem test_witness_idle :
    State.reset.seq = .idle ∧ BusFree State.reset ∧ Quiet State.reset :=
  ⟨by decide, ⟨by decide, by decide, by decide⟩, ⟨by decide, by decide, by decide⟩⟩

/-- `BEGIN` from such a state: the byte read is the scripted second one, here the expected id, there
another. -/
theorem test_witness_BeginRunsToCompletion :
    (∀ m : List Byte, ({ State.reset with miso := m } : State).seq = .idle ∧
      BusFree { State.reset with miso := m } ∧ Quiet { State.reset with miso := m }) ∧
    (∀ h1 id : Byte, [0x00#8, 0x58#8].take 2 <+: [h1, id] → id = State.reset.cfg.chipIdExpect) ∧
    (∀ h1 id : Byte, [0x00#8, 0xFF#8].take 2 <+: [h1, id] → id ≠ State.reset.cfg.chipIdExpect) := by
  refine ⟨fun m => ⟨rfl, ⟨rfl, rfl, rfl⟩, ⟨rfl, rfl, rfl⟩⟩, fun h1 id h => ?_, fun h1 id h => ?_⟩ <;>
    simp at h <;> obtain ⟨-, rfl⟩ := h <;> decide

/-- `FREAD` at both variants of the pressure routine. -/
theorem test_witness_FreadRunsToCompletion :
    (State.reset.seq = .idle ∧ BusFree State.reset ∧ Quiet State.reset ∧
      State.reset.cfg.pressVariant = .q24_8_int64) ∧
    ∃ s : State, s.seq = .idle ∧ BusFree s ∧ Quiet s ∧ s.cfg.pressVariant = .pa_int32 :=
  ⟨⟨by decide, ⟨by decide, by decide, by decide⟩, ⟨by decide, by decide, by decide⟩, by decide⟩,
    { State.reset with cfg := { Params.default with pressVariant := .pa_int32 } },
    by decide, ⟨by decide, by decide, by decide⟩, ⟨by decide, by decide, by decide⟩, by decide⟩

theorem test_witness_CommandWhileBusyHasNoEffect : (atStep .b0).seq ≠ .idle := by decide

/-- The code no command has, at the defaults and at other codes. -/
theorem test_witness_ReservedCodeHasNoEffect :
    (3#2 ≠ State.reset.cfg.cmdBegin ∧ 3#2 ≠ State.reset.cfg.cmdFread ∧ 3#2 ≠ State.reset.cfg.cmdCdec) ∧
    (1#2 ≠ otherCodes.cmdBegin ∧ 1#2 ≠ otherCodes.cmdFread ∧ 1#2 ≠ otherCodes.cmdCdec) := by decide

/-- One step along every edge of the two lists. -/
theorem test_witness_SequencerFollowsStepLists :
    (nextOf (step { State.reset with host := [.call 0#34] })).map (·.seq) = some .b0 ∧
    (nextOf (step { State.reset with host := [.call 0x100000000#34] })).map (·.seq) = some .f0 ∧
    ([.b0, .b1, .b3, .b4, .b5, .b6, .f0, .f1, .f2, .f3, .f4, .f5, .f6] : List Seq).map
      (fun q => (nextOf (step (atStep q))).map (·.seq)) =
      [some .b1, some .b2, some .b4, some .b5, some .b6, some .idle,
        some .f1, some .f2, some .f3, some .f4, some .f5, some .f6, some .idle] ∧
    (nextOf (step { atStep .b2 with host := [.reset] })).map (·.seq) = some .idle := by decide

theorem test_witness_OnlyBeginWritesCal :
    (nextOf (step (atStep .b6))).map (fun s => (s.seq, s.statusOut)) = some (.idle, 0#8) ∧
    (nextOf (step { atStep .b2 with idByte := 0x60#8 })).map (·.seq) = some .idle ∧
    (nextOf (step { State.reset with host := [.reset] })).map (·.seq) = some .idle := by decide

theorem test_witness_ResultRegistersHaveOneWriter :
    (nextOf (step (atStep .f6))).isSome = true ∧ (nextOf (step (atStep .b6))).isSome = true ∧
    (nextOf (step { State.reset with host := [.call 0x200003039#34] })).map (·.dpOut) = some 2#3 ∧
    (∀ rest, (atStep .f6).host ≠ .reset :: rest) ∧ (∀ rest, (atStep .b6).host ≠ .reset :: rest) :=
  ⟨by decide, by decide, by decide +kernel, by simp [atStep, State.reset, State.blank],
    by simp [atStep, State.reset, State.blank]⟩

/-! ### Witnesses: unit C -/

theorem test_witness_Cdec : State.reset.seq = .idle ∧ State.reset.cfg.codesDiffer = true ∧
    State.reset.cfg.flt = .binary32 := by decide

/-- Frames for each path of the pseudocode, the sentinel the first. -/
theorem test_witness_CdecFollowsPseudocode :
    (0xFFFFFFFF#32 &&& 0xFFFFF#32).toNat = 0xFFFFF ∧ (0xFF7FFFFF#32).getLsbD 23 = false ∧
    (0x00800001#32 &&& 0xFFFFF#32).toNat % 2 = 1 ∧ (0x00800000#32 &&& 0xFFFFF#32).toNat % 2 = 0 ∧
    (0x00100000#32).getLsbD 20 = true := by decide

theorem test_witness_UnexaminedFrameBitsIgnored :
    Params.default.codesDiffer = true ∧ 0xFF603039#32 ≠ 0xFFFFFFFF#32 ∧ 0x00003039#32 ≠ 0xFFFFFFFF#32 ∧
    0xFF603039#32 &&& 0x009FFFFF#32 = 0x00003039#32 &&& 0x009FFFFF#32 ∧
    0x7FFFFFFF#32 &&& 0x009FFFFF#32 = 0x009FFFFF#32 := by decide

theorem test_witness_SignBitNegates :
    State.reset.seq = .idle ∧ State.reset.cfg.codesDiffer = true ∧
    0xFFEFFFFE#32 ||| 0x00100000#32 ≠ 0xFFFFFFFF#32 := by decide

theorem test_witness_RoundingIsNearestEven : 0 < 2000 ∧ 5 < 2 ^ 127 * 2000 := by decide

theorem test_witness_FloatConstantsAndIntegersExact : (0xFFFFF : Nat) < 2 ^ 20 := by decide

theorem test_witness_UnitCReadsNoState :
    Params.default.codesDiffer = true ∧ State.reset.seq = .idle ∧ (withSensor).seq = .idle ∧
    State.reset.cfg.flt = withSensor.cfg.flt ∧
    (nextOf (exec (decodeCommand Params.default 0x2008009A5#34) State.reset)).map (·.valOut) = some 0x3F9E0418#32 ∧
    (nextOf (exec (decodeCommand Params.default 0x2008009A5#34) withSensor)).map (·.valOut) = some 0x3F9E0418#32 := by
  decide +kernel

/-! ### Witnesses: the bus -/

theorem test_witness_RregRunsItsTransaction : 1 ≤ (1 : Nat) ∧ Quiet State.reset :=
  ⟨by decide, by decide, by decide, by decide⟩

theorem test_witness_WregRunsItsTransaction : Quiet (atStep .f0) := ⟨by decide, by decide, by decide⟩

/-- A write that stores (the sensor there), one to a register the sensor keeps, one without a sensor. -/
theorem test_witness_WregStoresOneRegister :
    Quiet withSensor ∧ Quiet State.reset ∧
    (∃ t u, exec (.wreg 0x74#7 0x25#8) withSensor = .next t ∧ RunsTo 3 t u) ∧
    (∃ t u, exec (.wreg 0x50#7 0x00#8) withSensor = .next t ∧ RunsTo 3 t u) ∧
    (∃ t u, exec (.wreg 0x74#7 0x25#8) State.reset = .next t ∧ RunsTo 3 t u) ∧
    ¬ (resetReg withSensor.cfg 0x74 = true ∧ (0x25#8 : Byte) = 0xB6#8) ∧
    ¬ (resetReg withSensor.cfg 0x50 = true ∧ (0x00#8 : Byte) = 0xB6#8) ∧
    readOnlyReg withSensor.cfg 0x50 = true ∧ readOnlyReg withSensor.cfg 0x74 = false ∧
    withSensor.sensor.present = true ∧ withSensor.sensor.conversions = [] ∧
    conversionReg withSensor.cfg 0x76 = false ∧ conversionReg withSensor.cfg 0x7D = false :=
  ⟨⟨by decide, by decide, by decide⟩, ⟨by decide, by decide, by decide⟩,
    ⟨_, _, rfl, _, rfl, _, rfl, _, rfl, rfl⟩, ⟨_, _, rfl, _, rfl, _, rfl, _, rfl, rfl⟩,
    ⟨_, _, rfl, _, rfl, _, rfl, _, rfl, rfl⟩, by decide, by decide, by decide, by decide, by decide, by decide,
    by decide, by decide⟩

/-- The reset code reaches a sensor, and no sensor. -/
theorem test_witness_WregResetsSensor :
    Quiet withSensor ∧ withSensor.sensor.present = true ∧ Quiet State.reset ∧
    State.reset.sensor.present = false ∧ resetReg withSensor.cfg (0x60#7 : RegAddr).toNat = true ∧
    resetReg State.reset.cfg (0x60#7 : RegAddr).toNat = true ∧
    (∃ t u, exec (.wreg 0x60#7 0xB6#8) withSensor = .next t ∧ RunsTo 3 t u) ∧
    (∃ t u, exec (.wreg 0x60#7 0xB6#8) State.reset = .next t ∧ RunsTo 3 t u) ∧
    readOnlyReg withSensor.cfg 0x50 = true ∧ readOnlyReg withSensor.cfg 0x75 = false :=
  ⟨⟨by decide, by decide, by decide⟩, by decide, ⟨by decide, by decide, by decide⟩, by decide, by decide,
    by decide,
    ⟨_, _, rfl, _, rfl, _, rfl, _, rfl, rfl⟩, ⟨_, _, rfl, _, rfl, _, rfl, _, rfl, rfl⟩, by decide,
    by decide⟩

/-- Rule R18: the reset code puts `config` back to its reset content 0x00. -/
theorem test_sensor_reset : (withSensor.sensor.store .default 0x60#7 0xB6#8 0).regs = [] := by decide

theorem test_witness_RregReadsSensorRegisters :
    1 ≤ (1 : Nat) ∧ Quiet withSensor ∧ withSensor.sensor.present = true ∧ withSensor.miso = [] ∧
    (0x7F#7 : RegAddr).toNat + 1 ≤ 128 ∧ statusReg withSensor.cfg 0x7F = false ∧
    (∃ t u, exec (.rreg 0x7F#7 1) withSensor = .next t ∧ RunsTo 3 t u) ∧
    (0x73#7 : RegAddr).toNat + 1 ≤ 128 ∧ statusReg withSensor.cfg 0x73 = true ∧
    (∃ t u, exec (.rreg 0x73#7 1) withSensor = .next t ∧ RunsTo 3 t u) :=
  ⟨by decide, ⟨by decide, by decide, by decide⟩, by decide, by decide, by decide, by decide,
    ⟨_, _, rfl, _, rfl, _, rfl, _, rfl, rfl⟩, by decide, by decide,
    ⟨_, _, rfl, _, rfl, _, rfl, _, rfl, rfl⟩⟩

theorem test_witness_InstructionFrame :
    (nextOf (exec (.begin 0#32) State.reset)).isSome = true ∧
    (nextOf (exec (.rreg 0x50#7 1) State.reset)).isSome = true := by decide

/-- The default addresses and byte order, and others. -/
theorem test_witness_BeginLoadsReferenceSensor :
    (∀ s : State, s = withSensor ∨ s = withMovedSensor → mapApart s.cfg = true ∧
      s.cfg.ctrlIdleValue.extractLsb' 0 2 = 0#2 ∧ s.seq = .idle ∧ BusFree s ∧ Quiet s ∧
      s.sensor.present = true ∧ s.miso = [] ∧ s.sensor.regs.read s.cfg s.cfg.idAddr = s.cfg.chipIdExpect) ∧
    withSensor.cfg.calByteOrder = .lowByteFirst ∧ withMovedSensor.cfg.calByteOrder = .highByteFirst := by
  refine ⟨?_, by decide, by decide⟩
  rintro s (rfl | rfl) <;> simp only [BusFree, Quiet] <;> decide +kernel

theorem test_witness_FreadCompensatesNewSample :
    (mapApart withSensor.cfg = true ∧ forcedMode withSensor.cfg.ctrlForcedValue = true ∧
      withSensor.cfg.pressVariant = .q24_8_int64 ∧ withSensor.seq = .idle ∧ BusFree withSensor ∧
      Quiet withSensor ∧ withSensor.sensor.present = true ∧ withSensor.miso = [] ∧
      withSensor.sensor.samples = (415148#20, 519888#20) :: [] ∧ DelayOutlasts withSensor.sensor) ∧
    mapApart otherMap = true ∧ forcedMode 0x22#8 = true ∧ (0x22#8).extractLsb' 2 3 = 0#3 :=
  ⟨⟨by decide, by decide, by decide, by decide, ⟨by decide, by decide, by decide⟩,
    ⟨by decide, by decide, by decide⟩, by decide, by decide, by decide, [], rfl⟩, by decide, by decide,
    by decide⟩

/-- The least conversion that the delay does not outlast. -/
theorem test_witness_ShortDelayGivesHeldSample :
    mapApart withSlowSensor.cfg = true ∧ withSlowSensor.cfg.pressVariant = .q24_8_int64 ∧
    withSlowSensor.seq = .idle ∧ BusFree withSlowSensor ∧
    Quiet withSlowSensor ∧ withSlowSensor.sensor.present = true ∧ withSlowSensor.miso = [] ∧
    withSlowSensor.sensor.conversions = [] ∧ DelayTooShort withSlowSensor.sensor ∧
    Vector.ofFn (fun i : Fin 6 => withSlowSensor.sensor.regs.read withSlowSensor.cfg
        (withSlowSensor.cfg.dataAddr + i.val)) =
      #v[0x80#8, 0x00#8, 0x00#8, 0x80#8, 0x00#8, 0x00#8] :=
  ⟨by decide, by decide, by decide, ⟨by decide, by decide, by decide⟩, ⟨by decide, by decide, by decide⟩,
    by decide, by decide, by decide, ⟨0, [], rfl⟩, by decide⟩

/-! ### Witnesses: operands and arithmetic -/

theorem test_witness_UnpackCalAssemblesCoefficients :
    ∃ (s : State) (buf : Vector Byte 24), s.cfg = Params.default ∧
      s.cal = unpackAll s.cfg.calByteOrder buf ∧ (s.cal[0]).toNat = 65535 ∧ calInt s 0 = 65535 ∧
      calInt s 3 = 65535 ∧ calInt s 11 = -1 :=
  ⟨{ State.reset with cal := unpackAll .lowByteFirst (Vector.replicate 24 0xFF#8) },
    Vector.replicate 24 0xFF#8, rfl, rfl, by decide +kernel, by decide +kernel, by decide +kernel,
    by decide +kernel⟩

/-- V1's operands. -/
theorem test_witness_CompTIsTheWordFormula :
    ∃ T1 T2 T3 a d : Word, T1 = (27504#16).zeroExtend 32 ∧ T2 = (26435#16).signExtend 32 ∧
      T3 = (0xFC18#16).signExtend 32 ∧ a = ((519888#20).zeroExtend 32 >>> 3) - (T1 <<< 1) ∧
      d = ((519888#20).zeroExtend 32 >>> 4) - T1 ∧ a = 9978#32 ∧ d = 4989#32 :=
  ⟨_, _, _, _, _, rfl, rfl, rfl, rfl, rfl, by decide, by decide⟩

/-- The corners of the ranges, a square that wraps and one that does not. -/
theorem test_witness_CompTRanges :
    (compT 65535 (-32768) 32767 0).sq ≠ (compT 65535 (-32768) 32767 0).d ^ 2 ∧
    (compT 46340 26435 4095 0).sq = (compT 46340 26435 4095 0).d ^ 2 ∧
    (compT 0 0 0 (2 ^ 20 - 1)).a = 131071 ∧ NoWrapT 27504 26435 (-1000) 519888 := by
  unfold NoWrapT; decide +kernel

/-- A divisor that is zero (V15) and one that is not (V10). -/
theorem test_witness_CompPIsTheWordFormula :
    (((1#64 <<< 47) + 0#64) * (0#16).zeroExtend 64).sshiftRight 33 = 0#64 ∧
    (((1#64 <<< 47) + 0#64) * (36477#16).zeroExtend 64).sshiftRight 33 ≠ 0#64 := by decide +kernel

/-- The example (V10): no operation wraps, its divisor is 597560748. -/
theorem test_noWrap_example :
    NoWrapHead 36477 (-10685) 3024 2855 140 (-7) 128422 ∧
    NoWrapTail (compPHead 36477 (-10685) 3024 2855 140 (-7) 128422).v1
      (compPHead 36477 (-10685) 3024 2855 140 (-7) 128422).v2 15500 (-14600) 6000 415148 ∧
    (compPHead 36477 (-10685) 3024 2855 140 (-7) 128422).v1 = 597560748 := by
  refine ⟨?_, ?_, by decide +kernel⟩ <;> simp only [NoWrapHead, NoWrapTail, Fits64] <;> decide +kernel

/-- A zero divisor (V15). -/
theorem test_noWrap_zero_divisor :
    NoWrapHead 0 (-10685) 3024 2855 140 (-7) 128422 ∧
    (compPHead 0 (-10685) 3024 2855 140 (-7) 128422).v1 = 0 := by
  refine ⟨?_, by decide +kernel⟩
  simp only [NoWrapHead, Fits64]; decide +kernel

theorem test_witness_CompPExactWithoutWrap :
    NoWrapP 36477 (-10685) 3024 2855 140 (-7) 15500 (-14600) 6000 128422 415148 ∧
    NoWrapP 0 (-10685) 3024 2855 140 (-7) 15500 (-14600) 6000 128422 415148 ∧
    NamedNoWrapP 36477 (-10685) 3024 2855 140 (-7) 15500 (-14600) 6000 128422 415148 :=
  ⟨⟨test_noWrap_example.1, fun _ => test_noWrap_example.2.1⟩,
    ⟨test_noWrap_zero_divisor.1, fun h => absurd test_noWrap_zero_divisor.2 h⟩,
    by simp only [NamedNoWrapP]; decide +kernel⟩

/-- A wrap of one `shl64` that the named values do not show; rule R96 counts it. -/
theorem test_NoWrapP_counts_every_operation :
    ¬ NoWrapP 36477 0 0 0 (-32768) (-2) 0 0 0 (-2147355648) 415148 ∧
    NamedNoWrapP 36477 0 0 0 (-32768) (-2) 0 0 0 (-2147355648) 415148 :=
  ⟨fun h => absurd h.1 (by simp only [NoWrapHead, Fits64]; decide +kernel),
    by simp only [NamedNoWrapP]; decide +kernel⟩

/-- Dividends below and above the top bit, and a zero divisor. -/
theorem test_witness_CompP32IsTheWordFormula :
    (1048576#32 - (1048575#20).zeroExtend 32 - 0#32) * 3125#32 < 0x80000000#32 ∧
    ¬ (1048576#32 - (0#20).zeroExtend 32 - 0#32) * 3125#32 < 0x80000000#32 ∧
    ((32768#32 + 0#32) * (0#16).zeroExtend 32).sshiftRight 15 = 0#32 := by decide +kernel

/-! ### Witnesses: reset, stuck calls, invariants -/

/-- A reset in a transaction, and one outside. -/
theorem test_witness_ResetAtAnyTime :
    ∃ s s' : State, s.host = .reset :: [] ∧ s.sel = .low ∧ s'.host = .reset :: [] ∧ s'.sel = .high :=
  ⟨{ atStep .b5 with sel := .low, host := [.reset] }, { State.reset with host := [.reset] },
    by decide, by decide, by decide, by decide⟩

theorem test_witness_StuckUntilReset :
    ∃ s t : State, s.hung = true ∧ s.seq ≠ .idle ∧ (∀ rest, s.host ≠ .reset :: rest) ∧
      step s = .next t :=
  ⟨{ atStep .f1 with hung := true }, _, by decide, by decide,
    by simp [atStep, State.reset, State.blank], rfl⟩

/-- A call that does not return: in the `Select` of a transaction, in an exchange, in `B0`, in `F1`. -/
theorem test_witness_UnreturnedCallSticks :
    ∃ s a b c : State, s.hangs = 0 :: [] ∧
      (a.host = [] ∧ a.hung = false ∧ a.hangs = 0 :: [] ∧ a.pending ≠ []) ∧
      (b.host = [] ∧ b.hung = false ∧ b.hangs = 0 :: [] ∧ b.pending = [] ∧ b.stage = [] ∧ b.seq = .b0) ∧
      (c.host = [] ∧ c.hung = false ∧ c.hangs = 0 :: [] ∧ c.pending = [] ∧ c.stage = [] ∧ c.seq = .f1) :=
  ⟨{ State.reset with hangs := [0] }, { atStep .b1 with hangs := [0], pending := [.deselect] },
    { atStep .b0 with hangs := [0] }, { atStep .f1 with hangs := [0] },
    by decide, by decide, by decide, by decide⟩

theorem test_witness_IdleBlockWaits :
    State.reset.host = [] ∧ State.reset.seq = .idle ∧ BusFree State.reset :=
  ⟨by decide, by decide, ⟨by decide, by decide, by decide⟩⟩

/-- The three places of `BusDiscipline`: a staged transaction, one in hand, a step without one. -/
theorem test_witness_BusDiscipline :
    BusDiscipline (staged .b5) ∧ BusDiscipline (atStep .f4) ∧
    BusDiscipline { atStep .b1 with sel := .low, rx := [],
                                    pending := [.xfer 0xD0#8 false, .xfer 0x00#8 true, .deselect] } ∧
    (nextOf (step (staged .b5))).isSome = true ∧ (nextOf (step (atStep .f4))).isSome = true :=
  ⟨⟨by decide, .inl ⟨by decide, by decide, by decide⟩⟩, ⟨by decide, .inl ⟨by decide, by decide, by decide⟩⟩,
    ⟨by decide, .inr ⟨by decide, [.select], by decide, by decide, by decide⟩⟩, by decide, by decide⟩

/-- The line low after a `Select`, high after a `Deselect`. -/
theorem test_witness_SelectLineInv :
    SelectLineInv { atStep .b1 with sel := .low, trace := [.select] } ∧
    SelectLineInv { atStep .b1 with trace := [.select, .deselect] } := ⟨rfl, rfl⟩

theorem test_witness_MemoryStaysCanonical :
    withSensor.sensor.regs.wf withSensor.cfg = true ∧ (nextOf (step withSensor)).isSome = true ∧
    Memory.wf [(0x74, 0x00#8)] .default = false ∧ Memory.wf [(0x40, 0x25#8)] otherMap = true ∧
    Memory.wf [(0x40, 0x00#8)] otherMap = false := by decide

/-- Both ends of the range, after an `FREAD` and while its `T` waits. -/
theorem test_witness_TemperatureInv :
    TemperatureInv { State.reset with history := [.fread], tOut := BitVec.ofInt 32 23040 } ∧
    TemperatureInv { atStep .f6 with tRes := BitVec.ofInt 32 (-23040) } :=
  ⟨⟨rfl, fun _ => ⟨by decide, by decide⟩, fun h => absurd h (by decide)⟩,
    ⟨rfl, fun h => absurd h (by decide), fun _ => ⟨by decide, by decide⟩⟩⟩

theorem test_witness_DecimalPlacesInv :
    DecimalPlacesInv { State.reset with history := [.cdec], dpOut := 4#3 } := fun _ => by decide

/-- A success, and a failure after a success. -/
theorem test_witness_StatusInv :
    StatusInv { State.reset with history := [.beginOk], statusOut := 0#8 } ∧
    StatusInv { State.reset with history := [.beginFail, .beginOk], statusOut := 1#8 } :=
  ⟨⟨fun _ => .inl (by decide), fun _ => by decide⟩, ⟨fun _ => .inr (by decide), by decide⟩⟩

/-- `seq`, `busy`, `sel` at reset (rule R22), and a step from there. -/
theorem test_reset_waits :
    State.reset.busy = false ∧ State.reset.sel = .high ∧ (nextOf (step State.reset)).map (·.seq) =
      some .idle := by decide

end Sys2Proof.Tests
end

section
/-! PROOFS of the scope statements: the opcode map, and that a `CDEC` reads no state. -/

namespace Sys2Proof

/-! ### The rows of the opcode map (rules R50, R57) -/

theorem decodeCommand_begin (c : Params) (f : Word) :
    decodeCommand c (cmdWord c.cmdBegin f) = .begin f := by
  simp [decodeCommand]

theorem decodeCommand_fread {c : Params} (h : c.codesDiffer = true) (f : Word) :
    decodeCommand c (cmdWord c.cmdFread f) = .fread f := by
  obtain ⟨hbf, -, -⟩ := (Params.codesDiffer_iff c).mp h
  simp [decodeCommand, hbf.symm]

theorem decodeFrame_sentinel : decodeFrame Config.sentinel = .cdecNodata := if_pos rfl

/-- Every bit of the sentinel is set, so a frame with its unit bit clear is another frame. -/
theorem ne_sentinel_of_unit_clear {f : Word} (h : f.getLsbD 23 = false) : f ≠ Config.sentinel := by
  rintro rfl
  exact absurd h (by decide)

/-- Likewise a frame with its half bit clear. -/
theorem ne_sentinel_of_half_clear {f : Word} (h : f.getLsbD 0 = false) : f ≠ Config.sentinel := by
  rintro rfl
  exact absurd h (by decide)

theorem decodeFrame_metric {f : Word} (h23 : f.getLsbD 23 = false) :
    decodeFrame f = .cdecMm (f.extractLsb' 24 8) (f.extractLsb' 21 2) (f.getLsbD 20)
      (f.extractLsb' 0 20) := by
  rw [decodeFrame, if_neg (ne_sentinel_of_unit_clear h23), if_pos h23]

theorem decodeFrame_imperial {f : Word} (h23 : f.getLsbD 23 = true) (h0 : f.getLsbD 0 = false) :
    decodeFrame f = .cdecIn (f.extractLsb' 24 8) (f.extractLsb' 21 2) (f.getLsbD 20)
      (f.extractLsb' 1 19) := by
  rw [decodeFrame, if_neg (ne_sentinel_of_half_clear h0), if_neg (ne_false_of_eq_true h23), if_pos h0]

theorem decodeFrame_imperialHalf {f : Word} (h23 : f.getLsbD 23 = true) (h0 : f.getLsbD 0 = true)
    (hne : f ≠ Config.sentinel) :
    decodeFrame f = .cdecInh (f.extractLsb' 24 8) (f.extractLsb' 21 2) (f.getLsbD 20)
      (f.extractLsb' 1 19) := by
  rw [decodeFrame, if_neg hne, if_neg (ne_false_of_eq_true h23), if_neg (ne_false_of_eq_true h0)]

theorem decode_cdec {c : Params} (h : c.codesDiffer = true) {f : Word} {i : Instr}
    (hi : decodeFrame f = i) : decode c (.cw (cmdWord c.cmdCdec f)) = .ok i := by
  rw [decode, decodeCommand_cdec h, hi]

/-- Settles O3: a command word is its two fields, and each row is read off its own code and frame; a byte
string that decodes is one of the two transactions. -/
theorem opcodeMapSelectsRows : Obligations.OpcodeMapSelectsRows := by
  refine ⟨by decide, ?_, fun c ra n hn => decodeBus_readBytes ra hn,
    fun c ra v => decodeBus_writeBytes ra v, ?_⟩
  · intro c w op f hc hop hf
    have hw : cmdWord op f = w := by rw [hop, hf, cmdWord_fields]
    clear hop hf
    subst hw
    refine ⟨?begin, ?fread, ?nodata, ?mm, ?inch, ?inchHalf, Params.reserved_iff hc op, ?reserved⟩ <;>
      rintro rfl
    case begin => exact congrArg _ (decodeCommand_begin c f)
    case fread => exact congrArg _ (decodeCommand_fread hc f)
    case nodata => rintro rfl; exact decode_cdec hc decodeFrame_sentinel
    case mm => exact fun h23 => decode_cdec hc (decodeFrame_metric h23)
    case inch => exact fun h23 h0 => decode_cdec hc (decodeFrame_imperial h23 h0)
    case inchHalf => exact fun h23 h0 hne => decode_cdec hc (decodeFrame_imperialHalf h23 h0 hne)
    case reserved => exact congrArg _ (decodeCommand_reserved hc f)
  · intro c bs i h
    rcases decodeBus_cases h with ⟨ra, n, hn, hbs, -⟩ | ⟨ra, v, hbs, -⟩
    · exact .inl ⟨ra, n, hn, hbs⟩
    · exact .inr ⟨ra, v, hbs⟩

end Sys2Proof

namespace Sys2Proof.Machine

/-! ### What a `CDEC` gives at `IDLE` (rule R105) -/

theorem exec_cdecNodata_idle {s : State} (h : s.seq = .idle) :
    exec .cdecNodata s = .next (s.setCaliper 0#32 0#3) := by
  rw [exec, execCdecNodata, State.accept_idle h]

theorem exec_cdecMm_idle {s : State} (h : s.seq = .idle) (hi : BitVec 8) (mid : BitVec 2) (sign : Bool)
    (mag : BitVec 20) : exec (.cdecMm hi mid sign mag) s =
      .next (s.setCaliper (applySign s.cfg.flt sign (metricValue s.cfg.flt mag)) 2#3) := by
  rw [exec, execCdecMm, State.accept_idle h]

theorem exec_cdecIn_idle {s : State} (h : s.seq = .idle) (hi : BitVec 8) (mid : BitVec 2) (sign : Bool)
    (count : BitVec 19) : exec (.cdecIn hi mid sign count) s =
      .next (s.setCaliper (applySign s.cfg.flt sign (imperialValue s.cfg.flt count)) 3#3) := by
  rw [exec, execCdecIn, State.accept_idle h]

theorem exec_cdecInh_idle {s : State} (h : s.seq = .idle) (hi : BitVec 8) (mid : BitVec 2) (sign : Bool)
    (count : BitVec 19) : exec (.cdecInh hi mid sign count) s =
      .next (s.setCaliper (applySign s.cfg.flt sign (imperialHalfValue s.cfg.flt count)) 4#3) := by
  rw [exec, execCdecInh, State.accept_idle h]

/-- The value and the decimal places of a frame are chosen by the format alone, before the state. -/
theorem exec_decodeFrame_idle (flt : Flt) (f : Word) : ∃ v dp, ∀ s : State, s.seq = .idle →
    s.cfg.flt = flt → exec (decodeFrame f) s = .next (s.setCaliper v dp) := by
  unfold decodeFrame
  split_ifs
  · exact ⟨_, _, fun _ h _ => exec_cdecNodata_idle h⟩
  · exact ⟨_, _, fun _ h hflt => hflt ▸ exec_cdecMm_idle h ..⟩
  · exact ⟨_, _, fun _ h hflt => hflt ▸ exec_cdecIn_idle h ..⟩
  · exact ⟨_, _, fun _ h hflt => hflt ▸ exec_cdecInh_idle h ..⟩

/-- Settles O24: both states take the one value and the one count that the format gives the frame. -/
theorem unitCReadsNoState : Obligations.UnitCReadsNoState := by
  intro c s s' t t' f hc hs hs' hflt ht ht'
  obtain ⟨v, dp, hexec⟩ := exec_decodeFrame_idle s.cfg.flt f
  have hdec : decodeCommand c (c.cmdCdec ++ f : CmdWord) = decodeFrame f := decodeCommand_cdec hc f
  rw [hdec, hexec s hs rfl] at ht
  rw [hdec, hexec s' hs' hflt.symm] at ht'
  cases ht
  cases ht'
  exact ⟨rfl, rfl⟩

end Sys2Proof.Machine
end

section
/-! PROOFS of the state statements: the discipline of the bus, the select line, the status code, the
sequencer's edges and the one writer of each register. -/

namespace Sys2Proof.Machine

/-! ### What no bus event and no sequencer step short of the last changes -/

/-- From `s` to `t` only hidden registers, the bus and the outside differ: the parameters, the calibration
file, the result registers and the completions are the same, and the select line stays with the events
(rules R16, R17, R30). An update of other fields has `{}` for a proof. -/
structure Silent (s t : State) : Prop where
  cfg : t.cfg = s.cfg := by rfl
  cal : t.cal = s.cal := by rfl
  statusOut : t.statusOut = s.statusOut := by rfl
  tOut : t.tOut = s.tOut := by rfl
  pOut : t.pOut = s.pOut := by rfl
  valOut : t.valOut = s.valOut := by rfl
  dpOut : t.dpOut = s.dpOut := by rfl
  history : t.history = s.history := by rfl
  line : SelectLineInv s → SelectLineInv t := by exact id

theorem Silent.trans {s t u : State} (h : Silent s t) (k : Silent t u) : Silent s u where
  cfg := k.cfg.trans h.cfg
  cal := k.cal.trans h.cal
  statusOut := k.statusOut.trans h.statusOut
  tOut := k.tOut.trans h.tOut
  pOut := k.pOut.trans h.pOut
  valOut := k.valOut.trans h.valOut
  dpOut := k.dpOut.trans h.dpOut
  history := k.history.trans h.history
  line := k.line ∘ h.line

/-- An event drives the select line as the trace records it (rule R30). -/
theorem SelectLineInv.emit {s : State} (h : SelectLineInv s) (e : Event) : SelectLineInv (s.emit e) := by
  have hs : s.sel = levelAfter .high s.trace := h
  simp [SelectLineInv, levelAfter, hs]

theorem Silent.emit (s : State) (e : Event) : Silent s (s.emit e) :=
  { line := fun h => h.emit e }

theorem Silent.busOp (s : State) (op : BusOp) : Silent s (s.busOp op) := by
  cases op with
  | select => exact .emit s _
  | xfer o keep =>
    have ht : Silent s { s with miso := s.miso.tail } := {}
    exact { ht.trans (.emit _ (.xfer o s.nextByte)) with }
  | deselect => exact .emit s _

section
variable (s : State) (op : BusOp)

@[simp] theorem State.busOp_cfg : (s.busOp op).cfg = s.cfg := by cases op <;> rfl
@[simp] theorem State.busOp_seq : (s.busOp op).seq = s.seq := by cases op <;> rfl
@[simp] theorem State.busOp_sel : (s.busOp op).sel = op.level s.sel := by cases op <;> rfl
@[simp] theorem State.busOp_stage : (s.busOp op).stage = s.stage := by cases op <;> rfl
@[simp] theorem State.busOp_pending : (s.busOp op).pending = s.pending := by cases op <;> rfl
@[simp] theorem State.busOp_hung : (s.busOp op).hung = s.hung := by cases op <;> rfl

/-- An exchange receives one byte, kept or discarded (rule R32). -/
theorem State.busOp_rx_length : (s.busOp op).rx.length = s.rx.length + keptIn [op] := by
  cases op with
  | select | deselect => rfl
  | xfer o keep => cases keep <;> simp [State.busOp, keptIn]

end

/-- With an event due, it happens, or its call does not return (rule R85, U5). -/
theorem busAdvance_cases {s : State} {op : BusOp} {rest : List BusOp} (h : s.pending = op :: rest) :
    (∃ hs, s.busAdvance = { s with hangs := hs, pending := rest }.busOp op) ∨
      (∃ hs, s.busAdvance = { s with hangs := hs, hung := true }) := by
  have heq : s.busAdvance = s.capability fun t => { t with pending := rest }.busOp op := by
    simp [State.busAdvance, h]
  exact heq ▸ State.capability_cases s _

theorem busAdvance_silent (s : State) : Silent s s.busAdvance ∧ s.busAdvance.seq = s.seq := by
  cases hp : s.pending with
  | nil =>
    have hs : s.busAdvance = s := by simp [State.busAdvance, hp]
    exact hs.symm ▸ ⟨{}, rfl⟩
  | cons op rest =>
    rcases busAdvance_cases hp with ⟨hs, heq⟩ | ⟨hs, heq⟩ <;> rw [heq]
    · have h : Silent s { s with hangs := hs, pending := rest } := {}
      exact ⟨h.trans (.busOp _ op), State.busOp_seq _ op⟩
    · exact ⟨{}, rfl⟩

/-! ### What a step of the sequencer can do (rules R80, R81) -/

/-- The edges of the two step lists but the branch at `B2`. -/
def listEdges : List (Seq × Seq) :=
  [(.b0, .b1), (.b1, .b2), (.b3, .b4), (.b4, .b5), (.b5, .b6), (.b6, .idle), (.f0, .f1), (.f1, .f2),
    (.f2, .f3), (.f3, .f4), (.f4, .f5), (.f5, .f6), (.f6, .idle)]

/-- The sequencer may go on from `s` to `q`: along an edge of a list, or from `B2` on the expected chip ID. -/
def MayAdvance (s : State) (q : Seq) : Prop :=
  (s.seq, q) ∈ listEdges ∨ (s.seq = .b2 ∧ s.idByte = s.cfg.chipIdExpect ∧ q = .b3)

theorem edge_of_seq {s : State} {p q : Seq} (hp : s.seq = p) (h : (p, q) ∈ listEdges) :
    (s.seq, q) ∈ listEdges := hp ▸ h

/-- The outcomes of a step of the sequencer. -/
inductive SeqMove (s : State) : State → Prop where
  /-- At `IDLE` the block waits. -/
  | wait (h : s.seq = .idle) : SeqMove s s
  /-- The call of `B0` or `F1` does not return. -/
  | stuck (hs : List Nat) (h : s.seq ≠ .idle) : SeqMove s { s with hangs := hs, hung := true }
  /-- The sequencer goes on; `u` holds what the step has put in a hidden register, or its event. -/
  | advance (u : State) (q : Seq) (edge : MayAdvance s q) (same : Silent s u) (pending : u.pending = s.pending)
      (sel : u.sel = s.sel) (hung : u.hung = s.hung) : SeqMove s (u.goto q)
  /-- `B2` on another chip ID. -/
  | mismatch (h : s.seq = .b2) (hid : s.idByte ≠ s.cfg.chipIdExpect) : SeqMove s s.chipIdMismatch
  /-- `B6` loads the calibration file. -/
  | load (h : s.seq = .b6) : SeqMove s s.stepB6
  /-- `F6` writes the results. -/
  | results (h : s.seq = .f6) : SeqMove s s.stepF6

/-- A step that writes hidden registers or nothing, `u` being what it leaves, goes on. -/
theorem SeqMove.along {s : State} (u : State) {p q : Seq} (hp : s.seq = p) (same : Silent s u)
    (edge : (p, q) ∈ listEdges := by decide) (pending : u.pending = s.pending := by rfl)
    (sel : u.sel = s.sel := by rfl) (hung : u.hung = s.hung := by rfl) : SeqMove s (u.goto q) :=
  .advance u q (.inl (edge_of_seq hp edge)) same pending sel hung

/-- A step that issues the event `e` of its own goes on, or is stuck in the call. -/
theorem SeqMove.call {s : State} {e : Event} {p q : Seq} (hp : s.seq = p) (hne : p ≠ .idle)
    (edge : (p, q) ∈ listEdges) (hsel : e.level s.sel = s.sel) :
    SeqMove s (s.capability fun t => (t.emit e).goto q) := by
  rcases State.capability_cases s fun t => (t.emit e).goto q with ⟨hs, h⟩ | ⟨hs, h⟩ <;> rw [h]
  · have hq : Silent s { s with hangs := hs } := {}
    exact .advance _ q (.inl (edge_of_seq hp edge)) (hq.trans (.emit _ e)) rfl hsel rfl
  · exact .stuck hs (hp ▸ hne)

theorem seqStep_move (s : State) : SeqMove s s.seqStep := by
  unfold State.seqStep
  cases h : s.seq with
  | idle => exact .wait h
  | b0 => exact .call h (by decide) (by decide) rfl
  | b1 => exact .along _ h {}
  | b2 =>
    simp only [State.stepB2, chipIdDiffers, bne_iff_ne]
    split
    next hid => exact .mismatch h hid
    next hid => exact .advance s .b3 (.inr ⟨h, not_not.mp hid, rfl⟩) {} rfl rfl rfl
  | b3 => exact .along s h {}
  | b4 => exact .along s h {}
  | b5 => exact .along _ h {}
  | b6 => exact .load h
  | f0 => exact .along s h {}
  | f1 => exact .call h (by decide) (by decide) rfl
  | f2 => exact .along _ h {}
  | f3 => exact .along _ h {}
  | f4 => exact .along _ h {}
  | f5 => exact .along _ h {}
  | f6 => exact .results h

/-- Where the sequencer stands after a step of its own. -/
theorem SeqMove.seq_cases {s t : State} (h : SeqMove s t) :
    t.seq = s.seq ∨ MayAdvance s t.seq ∨
      (s.seq = .b2 ∧ s.idByte ≠ s.cfg.chipIdExpect ∧ t.seq = .idle) := by
  cases h with
  | wait | stuck => exact .inl rfl
  | advance u q edge => exact .inr (.inl edge)
  | mismatch hb hid => exact .inr (.inr ⟨hb, hid, rfl⟩)
  | load hb => exact .inr (.inl (.inl (edge_of_seq (q := .idle) hb (by decide))))
  | results hf => exact .inr (.inl (.inl (edge_of_seq (q := .idle) hf (by decide))))

/-! ### What one step can do -/

/-- The outcomes of a step, as far as the sequencer and the registers go. -/
inductive StepMove (s : State) : State → Prop where
  /-- The host asserts reset. -/
  | reset (rest : List HostAct) (h : s.host = .reset :: rest) :
    StepMove s { s with host := rest }.assertReset
  /-- The host presents a command word. -/
  | command (w : CmdWord) (rest : List HostAct) (t : State)
      (h : s.host = .call w :: rest ∨ s.host = .present w :: rest)
      (run : exec (decodeCommand s.cfg w) { s with host := rest } = .next t) : StepMove s t
  /-- The block is stuck, or an event of a transaction is due. -/
  | bus (t : State) (seq : t.seq = s.seq) (same : Silent s t) : StepMove s t
  /-- The step in hand runs. -/
  | sequencer (acts : List HostAct) (t : State) (run : SeqMove { s with host := acts } t) : StepMove s t

/-- What a step answers of what `fetch` finds. -/
def Fetch.answer (c : Params) (f : Fetch) : Host.Outcome State Fault Refusal :=
  match f with
  | .own t => .next t
  | .run k t =>
    match decode c k with
    | .ok i => exec i t
    | .error e => .refused (.undecodable e)

theorem step_eq_answer (s : State) : step s = s.fetch.answer s.cfg := by
  unfold step Fetch.answer
  cases s.fetch <;> rfl

/-- A move of the block by itself, the host's acts `acts` still to come. -/
theorem StepMove.of_blockMove {c : Params} {s t : State} {acts : List HostAct}
    (h : ({ s with host := acts } : State).blockMove.answer c = .next t) : StepMove s t := by
  have begins : ∀ u : State, Silent s u → u.seq = s.seq → StepMove s u.busAdvance := fun u same hseq =>
    .bus _ ((busAdvance_silent u).2.trans hseq) (same.trans (busAdvance_silent u).1)
  rcases blockMove_cases h with ⟨-, rfl⟩ | ⟨-, -, rfl⟩ |
    ⟨-, -, ⟨ra, n, -, -, rfl⟩ | ⟨ra, v, -, rfl⟩⟩ | ⟨-, -, -, rfl⟩
  · exact .bus _ rfl {}
  · exact begins _ {} rfl
  · exact begins _ {} rfl
  · exact begins _ {} rfl
  · exact .sequencer acts _ (seqStep_move _)

theorem step_move {s t : State} (h : step s = .next t) : StepMove s t := by
  rw [step_eq_answer] at h
  unfold State.fetch at h
  cases hhost : s.host with
  | nil => simp only [hhost] at h; exact .of_blockMove (acts := s.host) h
  | cons a rest =>
    cases a with
    | tick => simp only [hhost] at h; exact .of_blockMove h
    | reset =>
      simp only [hhost, Fetch.answer] at h
      cases h
      exact .reset rest hhost
    | present w =>
      simp only [hhost, Fetch.answer, decode] at h
      exact .command w rest t (.inr hhost) h
    | call w =>
      simp only [hhost] at h
      split at h
      · exact .of_blockMove (acts := s.host) h
      · exact .command w rest t (.inl hhost) h

/-! ### The bytes staged and the events due (rules R36, R52) -/

/-- A step has no transaction, or it is a read or a write, the same in the bytes staged and in the events. -/
theorem transaction_of_step (c : Params) (q : Seq) :
    (stageOf c q = [] ∧ opsOf c q = []) ∨
    (∃ ra n, 1 ≤ n ∧ stageOf c q = readBytes ra n ∧ opsOf c q = readOps ra n) ∨
    (∃ ra v, stageOf c q = writeBytes ra v ∧ opsOf c q = writeOps ra v ∧ readStep q = false) := by
  cases q with
  | idle | b0 | b2 | b6 | f1 | f3 | f4 | f5 | f6 => exact .inl ⟨rfl, rfl⟩
  | b1 | b5 | f2 => exact .inr (.inl ⟨_, _, by decide, rfl, rfl⟩)
  | b3 | b4 | f0 => exact .inr (.inr ⟨_, _, rfl, rfl, rfl⟩)

/-- A staged read is the read the step issues. -/
theorem opsOf_of_stage_read {c : Params} {q : Seq} {ra : RegAddr} {n : Nat} (hn : 1 ≤ n)
    (h : stageOf c q = readBytes ra n) : opsOf c q = readOps ra n := by
  have hd := congrArg decodeBus h
  rw [decodeBus_readBytes ra hn] at hd
  rcases transaction_of_step c q with ⟨hst, -⟩ | ⟨ra', n', hn', hst, hops⟩ | ⟨ra', v, hst, -⟩ <;>
    rw [hst] at hd
  · cases hd
  · rw [decodeBus_readBytes ra' hn'] at hd
    cases hd
    exact hops
  · rw [decodeBus_writeBytes] at hd
    cases hd

/-- A staged write is the write the step issues, and the step issues no read. -/
theorem opsOf_of_stage_write {c : Params} {q : Seq} {ra : RegAddr} {v : Byte}
    (h : stageOf c q = writeBytes ra v) : opsOf c q = writeOps ra v ∧ readStep q = false := by
  have hd := congrArg decodeBus h
  rw [decodeBus_writeBytes] at hd
  rcases transaction_of_step c q with ⟨hst, -⟩ | ⟨ra', n', hn', hst, -⟩ | ⟨ra', v', hst, hops⟩ <;>
    rw [hst] at hd
  · cases hd
  · rw [decodeBus_readBytes ra' hn'] at hd
    cases hd
  · rw [decodeBus_writeBytes] at hd
    cases hd
    exact hops

/-- A transaction leaves the select line high (rules R17, R31). -/
theorem level_after_opsOf (c : Params) (q : Seq) :
    (opsOf c q).foldl (fun l op => op.level l) .high = .high := by
  rcases transaction_of_step c q with ⟨-, h⟩ | ⟨ra, n, -, -, h⟩ | ⟨ra, v, -, h, -⟩ <;> rw [h]
  · rfl
  · simp [readOps, BusOp.level]
  · rfl

/-! ### The discipline of the bus -/

/-- With no event due the step's transaction is over, or it has not begun, or there is none. -/
theorem BusDiscipline.sel_high {s : State} (h : BusDiscipline s) (hp : s.pending = []) : s.sel = .high := by
  obtain ⟨-, ⟨-, -, hsel⟩ | ⟨-, done, hops, hsel, -⟩⟩ := h
  · exact hsel
  · rw [hp, List.append_nil] at hops
    rw [hsel, ← hops, level_after_opsOf]

/-- `IDLE` has no transaction. -/
theorem BusDiscipline.pending_of_idle {s : State} (h : BusDiscipline s) (hi : s.seq = .idle) :
    s.pending = [] := by
  obtain ⟨-, ⟨-, hp, -⟩ | ⟨-, done, hops, -, -⟩⟩ := h
  · exact hp
  · rw [hi] at hops
    exact (List.append_eq_nil_iff.mp hops.symm).2

/-- A move to a step with the bus free stages that step's transaction. -/
theorem BusDiscipline.goto {s : State} (q : Seq) (hp : s.pending = []) (hsel : s.sel = .high)
    (hh : s.hung = false) : BusDiscipline (s.goto q) :=
  ⟨fun _ => hh, .inl ⟨rfl, hp, hsel⟩⟩

theorem BusDiscipline.busAdvance {s : State} (h : BusDiscipline s) (hh : s.hung = false) :
    BusDiscipline s.busAdvance := by
  cases hp : s.pending with
  | nil => simpa [State.busAdvance, hp] using h
  | cons op rest =>
    have hne : s.seq ≠ .idle := fun hi => by simp [h.pending_of_idle hi] at hp
    rcases busAdvance_cases hp with ⟨hs, heq⟩ | ⟨hs, heq⟩ <;> rw [heq]
    · obtain ⟨-, ⟨-, hnil, -⟩ | ⟨hst, done, hops, hsel, hrx⟩⟩ := h
      · simp [hnil] at hp
      · refine ⟨by simp [hh], .inr ⟨by simpa using hst, done ++ [op], by simp [hops, hp],
          by simp [hsel], fun hr => ?_⟩⟩
        have hkept : keptIn (done ++ [op]) = keptIn done + keptIn [op] := List.countP_append
        rw [State.busOp_rx_length, hkept, hrx (by simpa using hr)]
    · exact ⟨fun hi => absurd hi hne, h.2⟩

/-- The transaction of the step in hand begins: none of its events has happened. -/
theorem BusDiscipline.busBegin {s : State} {ops : List BusOp} (hh : s.hung = false) (hst : s.stage = [])
    (hops : opsOf s.cfg s.seq = ops) (hsel : s.sel = .high) (hrx : readStep s.seq = true → s.rx = []) :
    BusDiscipline (s.busBegin ops) := by
  have h : BusDiscipline { s with pending := ops } :=
    ⟨fun _ => hh, .inr ⟨hst, [], hops, hsel, fun hr => congrArg List.length (hrx hr)⟩⟩
  exact h.busAdvance hh

/-- What is staged is the step's transaction. -/
theorem BusDiscipline.stage_eq {s : State} (h : BusDiscipline s) (hne : s.stage ≠ []) :
    s.stage = stageOf s.cfg s.seq := by
  obtain ⟨-, ⟨hst, -⟩ | ⟨hst, -⟩⟩ := h
  · exact hst
  · exact absurd hst hne

theorem BusDiscipline.of_seqMove {s t : State} (h : BusDiscipline s) (hh : s.hung = false)
    (hp : s.pending = []) (run : SeqMove s t) : BusDiscipline t := by
  have hsel := h.sel_high hp
  cases run with
  | wait => exact h
  | stuck hs hne => exact ⟨fun hi => absurd hi hne, h.2⟩
  | advance u q _ _ hup husel huh => exact .goto q (hup.trans hp) (husel.trans hsel) (huh.trans hh)
  | mismatch | load | results => exact .goto .idle hp hsel hh

/-- Settles O48, by the cases of a step: an event moves from the due part of the step's transaction to the
part done, a transaction begins with nothing done, and a step of the sequencer starts from a free bus. -/
theorem busDisciplineKept : Obligations.BusDisciplineKept := by
  intro s t hs h
  refine step_keeps (P := BusDiscipline) ?host ?reset ?begin ?fread ?cdec ?event ?read ?write ?seq hs h
  case host => exact fun s _ hs => hs
  case reset => exact fun s _ => ⟨fun _ => rfl, .inl ⟨rfl, rfl, rfl⟩⟩
  case begin =>
    intro s hs hi
    have hp := hs.pending_of_idle hi
    exact .goto .b0 hp (hs.sel_high hp) (hs.1 hi)
  case fread =>
    intro s hs hi
    have hp := hs.pending_of_idle hi
    exact .goto .f0 hp (hs.sel_high hp) (hs.1 hi)
  case cdec => exact fun s _ _ hs _ _ => hs
  case event => exact fun s hs hh _ => hs.busAdvance hh
  case read =>
    intro s ra n hs hh hp hn hst
    have hops := opsOf_of_stage_read hn ((hs.stage_eq (by simp [hst, readBytes])).symm.trans hst)
    exact .busBegin hh rfl hops (hs.sel_high hp) fun _ => rfl
  case write =>
    intro s ra v hs hh hp hst
    obtain ⟨hops, hr⟩ := opsOf_of_stage_write ((hs.stage_eq (by simp [hst, writeBytes])).symm.trans hst)
    exact .busBegin hh rfl hops (hs.sel_high hp) fun h => absurd h (ne_true_of_eq_false hr)
  case seq => exact fun s hs hh hp _ => hs.of_seqMove hh hp (seqStep_move s)

/-! ### The select line and the status code -/

/-- Settles O49: reset leaves the line high after a `Deselect`; every other move keeps `sel` and `trace`
together, as `Silent` says. -/
theorem selectLineFollowsTrace : Obligations.SelectLineFollowsTrace := by
  intro s t hs h
  cases step_move h with
  | reset rest =>
    cases hl : s.sel with
    | low => simp [SelectLineInv, levelAfter, Event.level]
    | high => simpa [SelectLineInv, hl] using hs
  | command w rest _ _ run =>
    rcases exec_command_cases run with rfl | ⟨-, rfl | rfl | ⟨v, dp, -, rfl⟩⟩ <;> exact hs
  | bus _ _ same => exact same.line hs
  | sequencer acts _ run =>
    cases run with
    | wait | stuck | mismatch | load | results => exact hs
    | advance u q _ same => exact same.line hs

/-- A silent move keeps the status code and all it is judged by. -/
theorem StatusInv.of_silent {s t : State} (h : StatusInv s) (same : Silent s t) : StatusInv t := by
  simpa [StatusInv, BeginDone, CalLoaded, same.history, same.statusOut, same.cfg] using h

/-- A completion of another command keeps it too. -/
theorem StatusInv.of_history {s t : State} (h : StatusInv s) {d : Done} (hd : d = .fread ∨ d = .cdec)
    (hist : t.history = d :: s.history) (hst : t.statusOut = s.statusOut) (hcfg : t.cfg = s.cfg) :
    StatusInv t := by
  rcases hd with rfl | rfl <;>
    simpa [StatusInv, BeginDone, CalLoaded, hist, hst, hcfg, doneSinceReset, calLoadedIn] using h

/-- Settles O53: `B6` and a failed `B2` record the outcome whose code they write, a reset clears what is
claimed, and no other move touches `STATUS_OUT` or records a `BEGIN`. -/
theorem statusStaysLegal : Obligations.StatusStaysLegal := by
  intro s t hs h
  cases step_move h with
  | reset rest => simp [StatusInv, BeginDone, CalLoaded, doneSinceReset, calLoadedIn]
  | command w rest _ _ run =>
    rcases exec_command_cases run with rfl | ⟨-, rfl | rfl | ⟨v, dp, -, rfl⟩⟩
    · exact hs
    · exact hs
    · exact hs
    · exact hs.of_history (.inr rfl) rfl rfl rfl
  | bus _ _ same => exact hs.of_silent same
  | sequencer acts _ run =>
    cases run with
    | wait | stuck => exact hs
    | advance u q _ same =>
      have hu : StatusInv u := hs.of_silent { same with }
      exact hu
    | mismatch => exact ⟨fun _ => .inr rfl, fun h => absurd h (by simp [CalLoaded, calLoadedIn])⟩
    | load => exact ⟨fun _ => .inl rfl, fun _ => rfl⟩
    | results => exact hs.of_history (.inl rfl) rfl rfl rfl

/-! ### Who moves the sequencer and writes the registers -/

/-- Settles O12: an accepted command leaves `IDLE` for `B0` or `F0`, and a step of the sequencer takes an
edge of its lists; the bus does not move it. -/
theorem sequencerFollowsStepLists : Obligations.SequencerFollowsStepLists := by
  intro s t h
  cases step_move h with
  | reset rest hr => exact .inr (.inl ⟨⟨rest, hr⟩, rfl⟩)
  | command w rest _ _ run =>
    rcases exec_command_cases run with rfl | ⟨hi, rfl | rfl | ⟨v, dp, -, rfl⟩⟩
    · exact .inl rfl
    · exact .inr (.inr (.inl ⟨hi, .inl rfl⟩))
    · exact .inr (.inr (.inl ⟨hi, .inr rfl⟩))
    · exact .inl rfl
  | bus _ hseq => exact .inl hseq
  | sequencer acts _ run =>
    rcases run.seq_cases with hstay | (hedge | hmatch) | hdiffers
    · exact .inl hstay
    · exact .inr (.inr (.inr (.inr (.inr hedge))))
    · exact .inr (.inr (.inr (.inl hmatch)))
    · exact .inr (.inr (.inr (.inr (.inl hdiffers))))

/-- A command presented has its effect or none. -/
theorem State.accept_cases {s t : State} {f : State → State} (h : s.accept f = .next t) :
    t = s ∨ t = f s := by
  unfold State.accept at h
  split at h <;> cases h
  · exact .inl rfl
  · exact .inr rfl

/-- A word with another code than that of `CDEC` can only start `BEGIN` or `FREAD`. -/
theorem exec_command_not_cdec {c : Params} {w : CmdWord} {s t : State}
    (hop : w.extractLsb' 32 2 ≠ c.cmdCdec) (h : exec (decodeCommand c w) s = .next t) :
    t = s ∨ t = s.goto .b0 ∨ t = s.goto .f0 := by
  simp only [decodeCommand, hop, if_false] at h
  split_ifs at h
  · exact (State.accept_cases (f := fun u => u.goto .b0) h).imp_right .inl
  · exact (State.accept_cases (f := fun u => u.goto .f0) h).imp_right .inr
  · cases h
    exact .inl rfl

/-- A command word writes `VAL_OUT` and `DP_OUT` only at `IDLE` and with the code of `CDEC`. -/
theorem exec_command_caliper {c : Params} {w : CmdWord} {s t : State}
    (h : exec (decodeCommand c w) s = .next t) :
    (t.valOut = s.valOut ∧ t.dpOut = s.dpOut) ∨ (s.seq = .idle ∧ w.extractLsb' 32 2 = c.cmdCdec) := by
  by_cases hop : w.extractLsb' 32 2 = c.cmdCdec
  · rcases exec_command_cases h with rfl | ⟨hi, -⟩
    · exact .inl ⟨rfl, rfl⟩
    · exact .inr ⟨hi, hop⟩
  · rcases exec_command_not_cdec hop h with rfl | rfl | rfl <;> exact .inl ⟨rfl, rfl⟩

/-- No command word writes the other results: those of `BEGIN` and `FREAD` come with their last step. -/
theorem exec_command_results {c : Params} {w : CmdWord} {s t : State}
    (h : exec (decodeCommand c w) s = .next t) :
    t.cal = s.cal ∧ t.statusOut = s.statusOut ∧ t.tOut = s.tOut ∧ t.pOut = s.pOut := by
  rcases exec_command_cases h with rfl | ⟨-, rfl | rfl | ⟨v, dp, -, rfl⟩⟩ <;> exact ⟨rfl, rfl, rfl, rfl⟩

/-- Settles O13: of the moves of a step only `B6`, a failed `B2` and reset write `cal`. -/
theorem onlyBeginWritesCal : Obligations.OnlyBeginWritesCal := by
  intro s t h
  cases step_move h with
  | reset rest hr => exact .inr (.inl ⟨rest, hr⟩)
  | command w rest _ _ run =>
    obtain ⟨hcal, -⟩ := exec_command_results run
    exact .inl hcal
  | bus _ _ same => exact .inl same.cal
  | sequencer acts _ run =>
    cases run with
    | wait | stuck | results => exact .inl rfl
    | advance u q _ same => exact .inl same.cal
    | mismatch hb hid => exact .inr (.inr (.inr ⟨hb, hid, rfl⟩))
    | load hb => exact .inr (.inr (.inl ⟨hb, rfl, rfl⟩))

/-- Settles O14: of the moves of a step only `B2` and `B6` write `STATUS_OUT`, only `F6` writes `T_OUT` and
`P_OUT`, and only a `CDEC` presented at `IDLE` writes `VAL_OUT` and `DP_OUT`. -/
theorem resultRegistersHaveOneWriter : Obligations.ResultRegistersHaveOneWriter := by
  intro s t h hreset
  cases step_move h with
  | reset rest hr => exact absurd hr (hreset rest)
  | command w rest _ hw run =>
    obtain ⟨-, hst, ht, hp⟩ := exec_command_results run
    exact ⟨.inl hst, .inl ⟨ht, hp⟩,
      (exec_command_caliper run).imp_right fun ⟨hi, hop⟩ => ⟨hi, w, rest, hop, hw⟩⟩
  | bus _ _ same => exact ⟨.inl same.statusOut, .inl ⟨same.tOut, same.pOut⟩, .inl ⟨same.valOut, same.dpOut⟩⟩
  | sequencer acts _ run =>
    cases run with
    | wait | stuck => exact ⟨.inl rfl, .inl ⟨rfl, rfl⟩, .inl ⟨rfl, rfl⟩⟩
    | advance u q _ same =>
      exact ⟨.inl same.statusOut, .inl ⟨same.tOut, same.pOut⟩, .inl ⟨same.valOut, same.dpOut⟩⟩
    | mismatch hb => exact ⟨.inr (.inl hb), .inl ⟨rfl, rfl⟩, .inl ⟨rfl, rfl⟩⟩
    | load hb => exact ⟨.inr (.inr hb), .inl ⟨rfl, rfl⟩, .inl ⟨rfl, rfl⟩⟩
    | results hf => exact ⟨.inl rfl, .inr ⟨hf, rfl, rfl⟩, .inl ⟨rfl, rfl⟩⟩

/-! ### Reset -/

/-- Settles O40: the values rule R22 gives stand in `State.blank`. -/
theorem resetState : Obligations.ResetState := ⟨rfl, rfl, rfl, rfl, rfl, rfl⟩

/-- Settles O54: at reset the bus is free and no event is recorded, no register of the sensor is listed, and
no completion is recorded on which the other invariants would claim a value. -/
theorem invariantsHoldAtReset : Obligations.InvariantsHoldAtReset := by
  refine ⟨⟨fun _ => rfl, .inl ⟨rfl, rfl, rfl⟩⟩, rfl, rfl, ⟨rfl, ?_, ?_⟩, ?_, ?_, ?_⟩ <;>
    exact fun h => absurd h (by decide)

end Sys2Proof.Machine
end

section
/-! PROOFS of the memory statements: how much of the trace one step writes. -/

namespace Sys2Proof.Machine

/-- From `s` to `t` the trace is the same or holds one event more, at its end (rules R30, R39). -/
def AtMostOneEvent (s t : State) : Prop := t.trace = s.trace ∨ ∃ e, t.trace = s.trace ++ [e]

theorem busOp_trace (s : State) (op : BusOp) : ∃ e, (s.busOp op).trace = s.trace ++ [e] := by
  cases op <;> exact ⟨_, rfl⟩

/-- The next event of a transaction is recorded, or its call does not return and none is. -/
theorem busAdvance_atMostOneEvent (s : State) : AtMostOneEvent s s.busAdvance := by
  cases hp : s.pending with
  | nil => exact .inl (by simp [State.busAdvance, hp])
  | cons op rest =>
    rcases busAdvance_cases hp with ⟨hs, h⟩ | ⟨hs, h⟩ <;> rw [h]
    · exact .inr (busOp_trace _ op)
    · exact .inl rfl

/-- A step that issues the event `e` of its own records it, or is stuck in the call. -/
theorem call_atMostOneEvent (s : State) (e : Event) (q : Seq) :
    AtMostOneEvent s (s.capability fun t => (t.emit e).goto q) := by
  rcases State.capability_cases s fun t => (t.emit e).goto q with ⟨hs, h⟩ | ⟨hs, h⟩ <;> rw [h]
  · exact .inr ⟨e, rfl⟩
  · exact .inl rfl

/-- The compare of the chip ID is no bus event, whichever way it ends (rules R80, R115). -/
theorem stepB2_trace (s : State) : s.stepB2.trace = s.trace := by
  unfold State.stepB2
  split <;> rfl

/-- Of the steps of the two lists only `B0` and `F1` issue an event of their own. -/
theorem seqStep_atMostOneEvent (s : State) : AtMostOneEvent s s.seqStep := by
  unfold State.seqStep
  cases s.seq with
  | b0 | f1 => exact call_atMostOneEvent s _ _
  | b2 => exact .inl (stepB2_trace s)
  | idle | b1 | b3 | b4 | b5 | b6 | f0 | f2 | f3 | f4 | f5 | f6 => exact .inl rfl

theorem blockMove_atMostOneEvent {c : Params} {s t : State} (h : s.blockMove.answer c = .next t) :
    AtMostOneEvent s t := by
  rcases blockMove_cases h with ⟨-, rfl⟩ | ⟨-, -, rfl⟩ |
    ⟨-, -, ⟨ra, n, -, -, rfl⟩ | ⟨ra, v, -, rfl⟩⟩ | ⟨-, -, -, rfl⟩
  · exact .inl rfl
  · exact busAdvance_atMostOneEvent s
  · exact busAdvance_atMostOneEvent { s with stage := [], rx := [], pending := readOps ra n }
  · exact busAdvance_atMostOneEvent { s with stage := [], pending := writeOps ra v }
  · exact seqStep_atMostOneEvent s

/-- A command word issues no bus event in the step that accepts it (rule R84). -/
theorem exec_command_trace {c : Params} {w : CmdWord} {s t : State}
    (h : exec (decodeCommand c w) s = .next t) : t.trace = s.trace := by
  rcases exec_command_cases h with rfl | ⟨-, rfl | rfl | ⟨v, dp, -, rfl⟩⟩ <;> rfl

/-- Reset ends a transaction in hand by `Deselect` and no other event (rule R135). -/
theorem assertReset_atMostOneEvent (s : State) : AtMostOneEvent s s.assertReset := by
  rw [AtMostOneEvent, State.assertReset_trace]
  split
  · exact .inr ⟨.deselect, rfl⟩
  · exact .inl rfl

/-- Where a step comes from: reset, a command word, or the block's own move (rules R135, R146); the last
two with the host's acts `acts` still to come. -/
theorem step_source {s t : State} (h : step s = .next t) : ∃ acts,
    t = { s with host := acts }.assertReset ∨
    (∃ w, exec (decodeCommand s.cfg w) { s with host := acts } = .next t) ∨
    ({ s with host := acts } : State).blockMove.answer s.cfg = .next t := by
  rw [step_eq_answer] at h
  unfold State.fetch at h
  split at h
  case h_1 => exact ⟨s.host, .inr (.inr h)⟩
  case h_2 rest _ => exact ⟨rest, .inr (.inr h)⟩
  case h_3 rest _ => cases h; exact ⟨rest, .inl rfl⟩
  case h_4 w rest _ => exact ⟨rest, .inr (.inl ⟨w, h⟩)⟩
  case h_5 w rest _ =>
    split at h
    · exact ⟨s.host, .inr (.inr h)⟩
    · exact ⟨rest, .inr (.inl ⟨w, h⟩)⟩

/-- Settles O46: a command word records nothing, reset at most its `Deselect`, and the block's own move at
most the one event that is due. -/
theorem oneBusEventAStep : Obligations.OneBusEventAStep := by
  intro s t h
  obtain ⟨acts, rfl | ⟨w, run⟩ | move⟩ := step_source h
  · exact assertReset_atMostOneEvent { s with host := acts }
  · exact .inl (exec_command_trace (s := { s with host := acts }) run)
  · exact blockMove_atMostOneEvent (s := { s with host := acts }) move

end Sys2Proof.Machine
end

section
/-! PROOFS of the encoding statements: decoder and encoder invert one another, and which bits of a frame
`CDEC` examines. -/

namespace Sys2Proof

/-! ### The decoder on the encoder's frames (rules R55, R57) -/

theorem decodeFrame_frameOf_metric (hi mid sign mag) :
    decodeFrame (frameOf hi false mid sign mag) = .cdecMm hi mid sign mag := by
  rw [decodeFrame_metric (frameOf_unit ..), frameOf_hi, frameOf_mid, frameOf_sign, frameOf_mag]

theorem decodeFrame_frameOf_imperial (hi mid sign) (count : BitVec 19) :
    decodeFrame (frameOf hi true mid sign (count ++ 0#1)) = .cdecIn hi mid sign count := by
  rw [decodeFrame_imperial (frameOf_unit ..) (frameOf_half ..), frameOf_hi, frameOf_mid, frameOf_sign,
    frameOf_count]

/-- The one frame of this shape that is another row's is the sentinel, which well-formedness excludes. -/
theorem decodeFrame_frameOf_imperialHalf {hi mid sign} {count : BitVec 19}
    (hwf : (Instr.cdecInh hi mid sign count).wf = true) :
    decodeFrame (frameOf hi true mid sign (count ++ 1#1)) = .cdecInh hi mid sign count := by
  have hne : frameOf hi true mid sign (count ++ 1#1) ≠ Config.sentinel := fun hsent => by
    obtain ⟨rfl, rfl, rfl, rfl⟩ := frameOf_half_sentinel hsent
    exact absurd hwf (by decide)
  rw [decodeFrame_imperialHalf (frameOf_unit ..) (frameOf_half ..) hne, frameOf_hi, frameOf_mid,
    frameOf_sign, frameOf_count]

/-- Settles O1: each row's code and frame are read back as that row; of the well-formedness checks, that of
`CDEC.INH` keeps the sentinel out and that of `RREG` asks for a data byte. -/
theorem decodeInvertsEncode : Obligations.DecodeInvertsEncode := by
  intro c i hc hwf
  cases i with
  | begin f => exact congrArg _ (decodeCommand_begin c f)
  | fread f => exact congrArg _ (decodeCommand_fread hc f)
  | cdecNodata => exact decode_cdec hc decodeFrame_sentinel
  | cdecMm hi mid sign mag => exact decode_cdec hc (decodeFrame_frameOf_metric hi mid sign mag)
  | cdecIn hi mid sign count => exact decode_cdec hc (decodeFrame_frameOf_imperial hi mid sign count)
  | cdecInh hi mid sign count => exact decode_cdec hc (decodeFrame_frameOf_imperialHalf hwf)
  | reservedOp3 f => exact congrArg _ (decodeCommand_reserved hc f)
  | rreg ra n => exact decodeBus_readBytes ra (of_decide_eq_true hwf)
  | wreg ra v => exact decodeBus_writeBytes ra v

/-! ### The encoder on what was decoded -/

theorem frameOf_metric_fields {f : Word} (h23 : f.getLsbD 23 = false) :
    frameOf (f.extractLsb' 24 8) false (f.extractLsb' 21 2) (f.getLsbD 20) (f.extractLsb' 0 20) = f := by
  rw [← h23, frameOf_fields]

theorem frameOf_imperial_fields {f : Word} {half : BitVec 1} (h23 : f.getLsbD 23 = true)
    (h0 : BitVec.ofBool (f.getLsbD 0) = half) :
    frameOf (f.extractLsb' 24 8) true (f.extractLsb' 21 2) (f.getLsbD 20)
      (f.extractLsb' 1 19 ++ half) = f := by
  rw [← h23, ← h0, mag_fields, frameOf_fields]

/-- An imperial frame with its half bit set is well-formed unless it is the sentinel (rule R57). -/
theorem wf_cdecInh_fields {f : Word} (h23 : f.getLsbD 23 = true) (h0 : f.getLsbD 0 = true)
    (hne : f ≠ Config.sentinel) :
    (Instr.cdecInh (f.extractLsb' 24 8) (f.extractLsb' 21 2) (f.getLsbD 20) (f.extractLsb' 1 19)).wf =
      true := by
  by_contra hwf
  simp only [Instr.wf, Bool.not_eq_true, Bool.not_eq_false', Bool.and_eq_true, beq_iff_eq, and_assoc] at hwf
  obtain ⟨hhi, hmid, hsign, hcount⟩ := hwf
  have hf := frameOf_imperial_fields h23 (congrArg _ h0)
  rw [hhi, hmid, hsign, hcount] at hf
  exact hne (hf.symm.trans (by decide))

/-- Each of the four `CDEC` rows encodes to the frame it was read from. -/
theorem encode_decodeFrame (c : Params) (f : Word) :
    encode c (decodeFrame f) = .cw (cmdWord c.cmdCdec f) ∧ (decodeFrame f).wf = true := by
  by_cases hsent : f = Config.sentinel
  · subst hsent
    rw [decodeFrame_sentinel]
    exact ⟨rfl, rfl⟩
  have cdecWord_congr {g : Word} (h : g = f) : Code.cw (cmdWord c.cmdCdec g) = .cw (cmdWord c.cmdCdec f) := by
    rw [h]
  cases h23 : f.getLsbD 23 with
  | false =>
    rw [decodeFrame_metric h23]
    exact ⟨cdecWord_congr (frameOf_metric_fields h23), rfl⟩
  | true =>
    cases h0 : f.getLsbD 0 with
    | false =>
      rw [decodeFrame_imperial h23 h0]
      exact ⟨cdecWord_congr (frameOf_imperial_fields h23 (congrArg _ h0)), rfl⟩
    | true =>
      rw [decodeFrame_imperialHalf h23 h0 hsent]
      exact ⟨cdecWord_congr (frameOf_imperial_fields h23 (congrArg _ h0)), wf_cdecInh_fields h23 h0 hsent⟩

/-- A command word is encoded again from the row its code selects; a code no command has is the reserved
one (rule R58). -/
theorem encode_decodeCommand {c : Params} (hc : c.codesDiffer = true) (w : CmdWord) :
    encode c (decodeCommand c w) = .cw w ∧ (decodeCommand c w).wf = true := by
  obtain ⟨op, f, rfl⟩ : ∃ op f, w = cmdWord op f := ⟨_, _, (cmdWord_fields w).symm⟩
  by_cases hb : op = c.cmdBegin
  · rw [hb, decodeCommand_begin]
    exact ⟨rfl, rfl⟩
  by_cases hr : op = c.cmdFread
  · rw [hr, decodeCommand_fread hc]
    exact ⟨rfl, rfl⟩
  by_cases hd : op = c.cmdCdec
  · rw [hd, decodeCommand_cdec hc]
    exact encode_decodeFrame c f
  · rw [(Params.reserved_iff hc op).mpr ⟨hb, hr, hd⟩, decodeCommand_reserved hc]
    exact ⟨rfl, rfl⟩

/-- Settles O2: a command word by its code and frame; a byte string that decodes is one of the two
transactions the encoder writes. -/
theorem encodeInvertsDecode : Obligations.EncodeInvertsDecode := by
  intro c k i hc h
  cases k with
  | cw w =>
    cases h
    exact encode_decodeCommand hc w
  | bus bs =>
    obtain ⟨ra, n, hn, rfl, rfl⟩ | ⟨ra, v, rfl, rfl⟩ := decodeBus_cases h
    · exact ⟨rfl, decide_eq_true hn⟩
    · exact ⟨rfl, rfl⟩

/-- Settles O4: the decoder runs on each of the nine codes. -/
theorem specWordsDecode : Obligations.SpecWordsDecode := by
  unfold Obligations.SpecWordsDecode
  decide

/-! ### Words that agree under a mask -/

theorem getLsbD_eq_of_and_eq {f g m : Word} (h : f &&& m = g &&& m) {i : Nat} (hm : m.getLsbD i = true) :
    f.getLsbD i = g.getLsbD i := by
  simpa [hm] using congrArg (·.getLsbD i) h

theorem extractLsb'_eq_of_and_eq {f g m : Word} (h : f &&& m = g &&& m) {start len : Nat}
    (hm : m.extractLsb' start len = BitVec.allOnes len) :
    f.extractLsb' start len = g.extractLsb' start len := by
  simpa [BitVec.extractLsb'_and, hm] using congrArg (·.extractLsb' start len) h

end Sys2Proof

namespace Sys2Proof.Machine

/-- Bits 31:24 and 22:21 are fields of the row, which no meaning of a row reads (rule R59). -/
theorem exec_decodeFrame_examined {f g : Word} (hf : f ≠ Config.sentinel) (hg : g ≠ Config.sentinel)
    (h : f &&& 0x009FFFFF#32 = g &&& 0x009FFFFF#32) (s : State) :
    exec (decodeFrame f) s = exec (decodeFrame g) s := by
  have unit : f.getLsbD 23 = g.getLsbD 23 := getLsbD_eq_of_and_eq h rfl
  have sign : f.getLsbD 20 = g.getLsbD 20 := getLsbD_eq_of_and_eq h rfl
  have half : f.getLsbD 0 = g.getLsbD 0 := getLsbD_eq_of_and_eq h rfl
  have mag : f.extractLsb' 0 20 = g.extractLsb' 0 20 := extractLsb'_eq_of_and_eq h rfl
  have count : f.extractLsb' 1 19 = g.extractLsb' 1 19 := extractLsb'_eq_of_and_eq h rfl
  cases h23 : g.getLsbD 23 with
  | false =>
    rw [decodeFrame_metric (unit.trans h23), decodeFrame_metric h23, sign, mag]
    rfl
  | true =>
    cases h0 : g.getLsbD 0 with
    | false =>
      rw [decodeFrame_imperial (unit.trans h23) (half.trans h0), decodeFrame_imperial h23 h0, sign, count]
      rfl
    | true =>
      rw [decodeFrame_imperialHalf (unit.trans h23) (half.trans h0) hf,
        decodeFrame_imperialHalf h23 h0 hg, sign, count]
      rfl

/-- A frame with every examined bit set agrees on them with the sentinel (rule R59). -/
theorem decodeFrame_examined_all_ones {f : Word} (hf : f ≠ Config.sentinel)
    (h : f &&& 0x009FFFFF#32 = 0x009FFFFF#32) :
    decodeFrame f = .cdecInh (f.extractLsb' 24 8) (f.extractLsb' 21 2) true 0x7FFFF#19 := by
  have hs : f &&& 0x009FFFFF#32 = Config.sentinel &&& 0x009FFFFF#32 := h.trans (by decide)
  have sign : f.getLsbD 20 = true := getLsbD_eq_of_and_eq hs rfl
  have count : f.extractLsb' 1 19 = 0x7FFFF#19 := extractLsb'_eq_of_and_eq hs rfl
  rw [decodeFrame_imperialHalf (getLsbD_eq_of_and_eq hs rfl) (getLsbD_eq_of_and_eq hs rfl) hf, sign, count]

/-- Settles O20: past the sentinel test the row and its examined fields are read off bits 23, 20 and 19:0
alone, and every row answers a next state. -/
theorem unexaminedFrameBitsIgnored : Obligations.UnexaminedFrameBitsIgnored := by
  refine ⟨fun c s f g hc hf hg h => ?_, fun c f hc hf h => ?_, fun c s f => exec_next _ s⟩
  · have decoded (f : Word) : decodeCommand c (c.cmdCdec ++ f : CmdWord) = decodeFrame f :=
      decodeCommand_cdec hc f
    rw [decoded, decoded, exec_decodeFrame_examined hf hg h]
  · exact decode_cdec hc (decodeFrame_examined_all_ones hf h)

end Sys2Proof.Machine
end

section
/-! PROOFS of the bus transaction statements: `RREG` and `WREG` from their `Select` to their `Deselect`. -/

namespace Sys2Proof.Machine

/-! ### The `Select` of a transaction (rules R70, R71) -/

/-- A quiet machine in which `Select` has happened and the events `rest` of its transaction are due. -/
def State.selected (s : State) (rest : List BusOp) : State :=
  { s with
    pending := rest
    sel := .low
    sensor := s.sensor.observe s.cfg .select s.draws
    trace := s.trace ++ [.select]
    draws := s.draws + 2 }

theorem exec_rreg_quiet {s : State} (hq : Quiet s) (ra : RegAddr) (n : Nat) :
    exec (.rreg ra n) s = .next ({ s with rx := [] }.selected
      (.xfer (header true ra) false ::
        (List.replicate n (BusOp.xfer Config.dummy true) ++ [BusOp.deselect]))) := by
  obtain ⟨-, hhangs, -⟩ := hq
  exact congrArg _ (busBegin_eq (s := { s with rx := [] }) hhangs _)

theorem exec_wreg_quiet {s : State} (hq : Quiet s) (ra : RegAddr) (v : Byte) :
    exec (.wreg ra v) s =
      .next (s.selected [.xfer (header false ra) false, .xfer v false, .deselect]) := by
  obtain ⟨-, hhangs, -⟩ := hq
  exact congrArg _ (busBegin_eq hhangs _)

/-! ### The whole transaction -/

/-- Settles O25: `exec` issues the `Select`, and the run of the events then due is that of
`runsTo_read_rest`, its header the listed address with bit 7 set. -/
theorem rregRunsItsTransaction : Obligations.RregRunsItsTransaction := by
  intro s a n _ hq
  obtain ⟨h, bs, u, run, hlen, hscript, hu⟩ :=
    runsTo_read_rest (s := { s with rx := [] }.selected _) hq (regOf a) n rfl
  refine ⟨_, u, h, bs, exec_rreg_quiet hq (regOf a) n, rfl, rfl, run, hlen, hscript, hu.trans ?_⟩
  simp [State.selected, read_header_eq, Config.dummy]

/-- Settles O26: `exec` issues the `Select`, and the run of the events then due is that of
`runsTo_write_rest`, its header the listed address with bit 7 clear. -/
theorem wregRunsItsTransaction : Obligations.WregRunsItsTransaction := by
  intro s a v hq
  obtain ⟨h, r, u, run, hscript, hu⟩ :=
    runsTo_write_rest (s := s.selected _) hq (regOf a) v rfl
  refine ⟨_, u, h, r, exec_wreg_quiet hq (regOf a) v, rfl, rfl, run, hscript, hu.trans ?_⟩
  simp [State.selected, write_header_eq]

end Sys2Proof.Machine
end

section
/-! PROOFS of the statements of unit B's commands: the operands assembled from bytes, the whole runs of `BEGIN`
and `FREAD`, and what the block does with a command word while busy and with none at `IDLE`. -/

namespace Sys2Proof.Machine

/-! ### Operands of several bytes (rules R82, R83) -/

/-- A concatenation as a number: the upper part counts in units of the lower part's range. -/
theorem toNat_append_eq_add {m n : Nat} (a : BitVec m) (b : BitVec n) :
    (a ++ b).toNat = a.toNat * 2 ^ n + b.toNat := by
  rw [BitVec.toNat_append, ← Nat.shiftLeft_add_eq_or_of_lt b.isLt, Nat.shiftLeft_eq]

theorem sampleOf_toNat (b0 b1 b2 : Byte) : (sampleOf .msbFirst b0 b1 b2).toNat =
    b0.toNat * 2 ^ 12 + b1.toNat * 2 ^ 4 + b2.toNat / 2 ^ 4 := by
  have hnibble : (b2.extractLsb' 4 4).toNat = b2.toNat / 2 ^ 4 := by
    rw [BitVec.extractLsb'_toNat, Nat.shiftRight_eq_div_pow, Nat.mod_eq_of_lt (by omega)]
  simp only [sampleOf, toNat_append_eq_add, hnibble]
  omega

/-- Settles O33: each sample is two bytes and the upper half of a third, one after another. -/
theorem unpackAdcAssemblesSamples : Obligations.UnpackAdcAssemblesSamples :=
  fun _ => ⟨sampleOf_toNat .., sampleOf_toNat ..⟩

theorem zextN_toNat (p : Half) : zextN 16 p.toNat = p.toNat := by
  rw [zextN]
  omega

theorem coefInt_unsigned (p : Half) : coefInt false p = zextN 16 p.toNat := (zextN_toNat p).symm

theorem coefInt_signed (p : Half) : coefInt true p = sextN 16 p.toNat := by
  rw [coefInt, if_pos rfl, sextN, zextN_toNat, BitVec.toInt_eq_toNat_cond]
  split_ifs <;> omega

/-- Rule R10: `dig_T1` and `dig_P1` are the two unsigned coefficients. -/
theorem calSigned_eq : ∀ i : Fin 12, Config.calSigned[i] = !decide (i = 0 ∨ i = 3) := by decide

/-- Settles O32: at the default byte order the pattern is the second byte of the pair above the first, and
the signedness is that of rule R10. -/
theorem unpackCalAssemblesCoefficients : Obligations.UnpackCalAssemblesCoefficients := by
  intro buf i s pattern hcfg hcal hpattern
  have hnat : (s.cal[i]).toNat = pattern := by
    simp only [hcal, hcfg, hpattern, unpackAll, Fin.getElem_fin, Vector.getElem_ofFn, unpackCal, pairHalf,
      Params.default, toNat_append_eq_add]
    omega
  refine ⟨hnat, ?_⟩
  have hsigned : s.cfg.calSigned[i] = !decide (i = 0 ∨ i = 3) := by rw [hcfg]; exact calSigned_eq i
  rw [calInt, hsigned, ← hnat]
  split
  next h => rw [decide_eq_true h]; exact coefInt_unsigned _
  next h => rw [decide_eq_false h]; exact coefInt_signed _

/-! ### A command word at a busy block, and no command word at `IDLE` (rules R84, R147) -/

/-- Settles O10: every instruction answers a state, and of a command word's answers only the same state is
possible away from `IDLE`. -/
theorem commandWhileBusyHasNoEffect : Obligations.CommandWhileBusyHasNoEffect := by
  intro s w hbusy
  obtain ⟨t, ht⟩ := exec_next (decodeCommand s.cfg w) s
  rcases exec_command_cases ht with rfl | ⟨hidle, -⟩
  · exact ht
  · exact absurd hidle hbusy

/-- Settles O44: a stuck block stays as it is, and any other has nothing to do but the step in hand, which
at `IDLE` is none. -/
theorem idleBlockWaits : Obligations.IdleBlockWaits := by
  rintro s hhost hidle ⟨hstage, hpending, -⟩
  cases hhung : s.hung with
  | true => exact step_hung hhost hhung
  | false =>
    rw [step_seq hhost hhung hpending hstage]
    simp [State.seqStep, hidle]

/-! ### The run of a command (rules R80, R81, R85) -/

/-- The state after the read of `ra` that `s` has staged: the bytes received are `h` with the header, then
`bs`. The sensor `x` and the count of draws `d` are whatever the exchanges left. -/
def State.afterRead (s : State) (ra : RegAddr) (h : Byte) (bs : List Byte) (x : Sensor) (d : Nat) : State :=
  { s with
    stage := []
    pending := []
    rx := bs
    sel := .high
    miso := s.miso.drop (bs.length + 1)
    trace := s.trace ++ readEvents ra h bs
    sensor := x
    draws := d }

/-- The state after the write of `v` to `ra` that `s` has staged, likewise. -/
def State.afterWrite (s : State) (ra : RegAddr) (h v r : Byte) (x : Sensor) (d : Nat) : State :=
  { s with
    stage := []
    pending := []
    sel := .high
    miso := s.miso.drop 2
    trace := s.trace ++ writeEvents ra h v r
    sensor := x
    draws := d }

/-- `k` steps of the quiet block lead from `s` to `t`, where no event of a transaction is due, and receive
`bytes`: the scripted ones first. -/
structure CommandRun (k : Nat) (s t : State) (bytes : List Byte) : Prop where
  run : RunsTo k s t
  script : s.miso.take bytes.length <+: bytes
  left : t.miso = s.miso.drop bytes.length
  quiet : Quiet t
  free : t.pending = []

/-- Bytes received one lot after another: the script is used up in order. -/
theorem take_append_prefix {l a b : List Byte} (ha : l.take a.length <+: a)
    (hb : (l.drop a.length).take b.length <+: b) : l.take (a ++ b).length <+: a ++ b := by
  rw [List.length_append, List.take_add]
  rcases Nat.le_total a.length l.length with hle | hle
  · have hall : l.take a.length = a := ha.eq_of_length (List.length_take_of_le hle)
    rw [hall]
    exact (List.prefix_append_right_inj a).mpr hb
  · rw [List.drop_of_length_le hle, List.take_nil, List.append_nil]
    exact ha.trans (List.prefix_append a b)

/-- A step of the quiet sequencer leaves the environment quiet and the bus alone. -/
theorem seqStep_quiet {s : State} (hq : Quiet s) :
    Quiet s.seqStep ∧ s.seqStep.pending = s.pending ∧ s.seqStep.miso = s.miso := by
  have ⟨_, hhangs, _⟩ := hq
  unfold State.seqStep
  cases s.seq with
  | b0 | f1 =>
    simp only [State.stepB0, State.stepF1, State.capability_returns hhangs]
    exact ⟨hq, rfl, rfl⟩
  | b2 =>
    simp only [State.stepB2]
    split <;> exact ⟨hq, rfl, rfl⟩
  | idle | b1 | b3 | b4 | b5 | b6 | f0 | f2 | f3 | f4 | f5 | f6 => exact ⟨hq, rfl, rfl⟩

namespace CommandRun

variable {k : Nat} {s t : State} {bytes : List Byte}

theorem start (hq : Quiet s) (hp : s.pending = []) : CommandRun 0 s s [] :=
  ⟨runsTo_zero s, List.take_zero ▸ List.prefix_rfl, rfl, hq, hp⟩

theorem congr {u : State} {bytes' : List Byte} (h : CommandRun k s t bytes) (ht : t = u)
    (hb : bytes = bytes') : CommandRun k s u bytes' := ht ▸ hb ▸ h

theorem trans {m : Nat} {u : State} {more : List Byte} (h : CommandRun k s t bytes)
    (g : CommandRun m t u more) : CommandRun (k + m) s u (bytes ++ more) where
  run := h.run.trans g.run
  script := take_append_prefix h.script (h.left ▸ g.script)
  left := by rw [g.left, h.left, List.drop_drop, List.length_append]
  quiet := g.quiet
  free := g.free

/-- With no transaction staged the step in hand follows. -/
theorem move (h : CommandRun k s t bytes) (hstage : t.stage = []) {u : State} (hmove : t.seqStep = u) :
    CommandRun (k + 1) s u bytes := by
  subst hmove
  have ⟨hhost, _, hhung⟩ := h.quiet
  obtain ⟨hquiet, hpending, hmiso⟩ := seqStep_quiet h.quiet
  exact ⟨h.run.trans (runsTo_one (step_seq hhost hhung h.free hstage)), h.script, hmiso.trans h.left, hquiet,
    hpending.trans h.free⟩

/-- A staged read follows, from its `Select` to its `Deselect` (rule R70). -/
theorem read (h : CommandRun k s t bytes) {ra : RegAddr} {n : Nat} (hn : 1 ≤ n)
    (hstage : t.stage = readBytes ra n) : ∃ (b : Byte) (bs : Vector Byte n) (x : Sensor) (d : Nat),
      CommandRun (k + (n + 3)) s (t.afterRead ra b bs.toList x d) (bytes ++ b :: bs.toList) := by
  have ⟨hhost, _, hhung⟩ := h.quiet
  have select := runsTo_one ((step_stage hhost hhung h.free (hstage ▸ decodeBus_readBytes ra hn)).trans
    (exec_rreg_quiet (s := { t with stage := [] }) h.quiet ra n))
  obtain ⟨b, bs, u, rest, hlen, hscript, hu⟩ :=
    runsTo_read_rest (s := { t with stage := [], rx := [] }.selected _) h.quiet ra n rfl
  have hafter : u = t.afterRead ra b bs u.sensor u.draws := hu.trans (by
    simp [State.afterRead, State.selected, readEvents, hlen])
  obtain ⟨v, rfl⟩ : ∃ v : Vector Byte n, v.toList = bs := ⟨⟨bs.toArray, by simpa using hlen⟩, rfl⟩
  refine ⟨b, v, u.sensor, u.draws, h.trans ⟨?_, ?_, rfl, h.quiet, rfl⟩⟩
  · rw [← hafter, show n + 3 = 1 + (n + 2) by omega]
    exact select.trans rest
  · rw [List.length_cons, hlen]
    exact hscript

/-- A staged write follows, from its `Select` to its `Deselect` (rule R71). -/
theorem write (h : CommandRun k s t bytes) {ra : RegAddr} {v : Byte}
    (hstage : t.stage = writeBytes ra v) : ∃ (b r : Byte) (x : Sensor) (d : Nat),
      CommandRun (k + 4) s (t.afterWrite ra b v r x d) (bytes ++ [b, r]) := by
  have ⟨hhost, _, hhung⟩ := h.quiet
  have select := runsTo_one ((step_stage hhost hhung h.free (hstage ▸ decodeBus_writeBytes ra v)).trans
    (exec_wreg_quiet (s := { t with stage := [] }) h.quiet ra v))
  obtain ⟨b, r, u, rest, hscript, hu⟩ :=
    runsTo_write_rest (s := { t with stage := [] }.selected _) h.quiet ra v rfl
  have hafter : u = t.afterWrite ra b v r u.sensor u.draws := hu.trans (by
    simp [State.afterWrite, State.selected, writeEvents])
  exact ⟨b, r, u.sensor, u.draws, h.trans ⟨hafter ▸ select.trans rest, hscript, rfl, h.quiet, rfl⟩⟩

end CommandRun

/-- A buffer for as many bytes as were received holds them all. -/
theorem fillBuf_toList {n : Nat} (buf bs : Vector Byte n) : fillBuf buf bs.toList = bs := by
  ext i hi
  simp [fillBuf, hi]

/-! ### `BEGIN` (rule R80) -/

theorem exec_begin_idle {s : State} (h : s.seq = .idle) (frame : Word) :
    exec (.begin frame) s = .next (s.goto .b0) := State.accept_idle h fun t => t.goto .b0

theorem seqStep_setMode {s : State} (hseq : s.seq = .b0) (hq : Quiet s) :
    s.seqStep = (s.emit (.setMode Config.spiMode)).goto .b1 := by
  obtain ⟨-, hhangs, -⟩ := hq
  simp [State.seqStep, hseq, State.stepB0, State.capability_returns hhangs]

theorem seqStep_chipIdMatch {s : State} (hseq : s.seq = .b2) (hid : s.idByte = s.cfg.chipIdExpect) :
    s.seqStep = s.goto .b3 := by
  simp [State.seqStep, hseq, State.stepB2, chipIdDiffers, hid]

theorem seqStep_chipIdMismatch {s : State} (hseq : s.seq = .b2) (hid : s.idByte ≠ s.cfg.chipIdExpect) :
    s.seqStep = s.chipIdMismatch := by
  simp [State.seqStep, hseq, State.stepB2, chipIdDiffers, hid]

/-- Steps B0 and B1: the mode is set and the chip ID read. -/
theorem commandRun_identify {s : State} (hq : Quiet s) (hp : s.pending = []) (hstage : s.stage = []) :
    ∃ (h1 id : Byte) (x : Sensor) (d : Nat), CommandRun 6 { s with seq := .b0 }
      { s with
        seq := .b2
        idByte := id
        rx := [id]
        sel := .high
        spiMode := 0#2
        miso := s.miso.drop 2
        trace := s.trace ++ .setMode 0#2 :: readEvents (regOf s.cfg.chipIdReg) h1 [id]
        sensor := x
        draws := d } [h1, id] := by
  have atB1 : CommandRun 1 { s with seq := .b0 } _ [] :=
    (CommandRun.start (s := { s with seq := .b0 }) hq hp).move hstage (seqStep_setMode rfl hq)
  obtain ⟨h1, ids, x, d, hread⟩ := atB1.read (ra := regOf s.cfg.chipIdReg) (n := 1) le_rfl rfl
  obtain ⟨id, hid⟩ := List.length_eq_one_iff.mp ids.length_toList
  rw [hid] at hread
  refine ⟨h1, id, x, d, (hread.move rfl rfl).congr ?_ rfl⟩
  simp [State.seqStep, State.stepB1, State.goto, State.afterRead, hstage, hp, stageOf, Config.spiMode, Event.mode]

/-- Steps B3 to B6, from a `B2` that found the expected chip ID: the sensor is configured and the calibration
file loaded. -/
theorem CommandRun.calibrate {k : Nat} {s t : State} {bytes : List Byte} (h : CommandRun k s t bytes)
    (hstage : t.stage = []) (hseq : t.seq = .b2) (hid : t.idByte = t.cfg.chipIdExpect) :
    ∃ (h2 r2 h3 r3 h4 : Byte) (cs : Vector Byte 24) (x : Sensor) (d : Nat), CommandRun (k + 40) s
      { t with
        seq := .idle
        statusOut := t.cfg.statusOk
        cal := unpackAll t.cfg.calByteOrder cs
        cbuf := cs
        rx := cs.toList
        sel := .high
        miso := t.miso.drop 29
        trace := t.trace ++ (writeEvents (regOf t.cfg.configReg) h2 t.cfg.configValue r2 ++
          writeEvents (regOf t.cfg.ctrlMeasReg) h3 t.cfg.ctrlIdleValue r3 ++
          readEvents (regOf t.cfg.calibBase) h4 cs.toList)
        history := .beginOk :: t.history
        sensor := x
        draws := d } (bytes ++ [h2, r2, h3, r3, h4] ++ cs.toList) := by
  have atB3 : CommandRun (k + 1) s (t.goto .b3) bytes := h.move hstage (seqStep_chipIdMatch hseq hid)
  obtain ⟨h2, r2, x2, d2, config⟩ := atB3.write (ra := regOf t.cfg.configReg) (v := t.cfg.configValue) rfl
  have atB4 := config.move rfl rfl
  obtain ⟨h3, r3, x3, d3, ctrl⟩ := atB4.write (ra := regOf t.cfg.ctrlMeasReg) (v := t.cfg.ctrlIdleValue) rfl
  have atB5 := ctrl.move rfl rfl
  obtain ⟨h4, cs, x, d, calib⟩ := atB5.read (ra := regOf t.cfg.calibBase) (n := 24) (by decide) rfl
  have done := (calib.move rfl rfl).move rfl rfl
  refine ⟨h2, r2, h3, r3, h4, cs, x, d, done.congr ?_ (by simp)⟩
  simp [State.seqStep, State.stepB5, State.stepB6, State.complete, State.goto, State.afterRead, State.afterWrite,
    hstage, h.free, stageOf, fillBuf_toList]

/-- Settles O8: the run to `B2` is shared; from there the chip-ID compare leads to the load of the calibration
file or to the failure. -/
theorem beginRunsToCompletion : Obligations.BeginRunsToCompletion := by
  rintro s frame hidle ⟨hstage, hpending, hsel⟩ hq
  refine ⟨(exec_begin_idle hidle frame).trans ?_, ?_⟩
  · simp [State.goto, stageOf, hstage]
  obtain ⟨h1, id, x, d, identified⟩ := commandRun_identify hq hpending hstage
  refine ⟨h1, id, identified.script, ?_⟩
  split
  next hid =>
    obtain ⟨h2, r2, h3, r3, h4, cs, x', d', done⟩ := identified.calibrate hstage rfl hid
    refine ⟨h2, r2, h3, r3, h4, cs, _, ?_, done.run, ?_⟩
    · simpa using done.script
    · simp [hidle, hsel]
  next hid =>
    refine ⟨_, (identified.move hstage (seqStep_chipIdMismatch rfl hid)).run, ?_⟩
    simp [State.chipIdMismatch, State.complete, State.goto, stageOf, hidle, hstage, hsel]

/-! ### `FREAD` (rule R81) -/

theorem exec_fread_idle {s : State} (h : s.seq = .idle) (frame : Word) :
    exec (.fread frame) s = .next (s.goto .f0) := State.accept_idle h fun t => t.goto .f0

theorem seqStep_delay {s : State} (hseq : s.seq = .f1) (hq : Quiet s) :
    s.seqStep = (s.emit .delay).goto .f2 := by
  obtain ⟨-, hhangs, -⟩ := hq
  simp [State.seqStep, hseq, State.stepF1, State.capability_returns hhangs]

/-- Steps F0 to F2: the conversion is triggered, waited for, and its six bytes read. -/
theorem commandRun_sample {s : State} (hq : Quiet s) (hp : s.pending = []) :
    ∃ (h1 r1 h2 : Byte) (ds : Vector Byte 6) (x : Sensor) (d : Nat), CommandRun 16 (s.goto .f0)
      { s with
        seq := .f3
        stage := []
        dbuf := ds
        rx := ds.toList
        sel := .high
        miso := s.miso.drop 9
        trace := s.trace ++ (writeEvents (regOf s.cfg.ctrlMeasReg) h1 s.cfg.ctrlForcedValue r1 ++ [.delay] ++
          readEvents (regOf s.cfg.dataBase) h2 ds.toList)
        sensor := x
        draws := d } ([h1, r1, h2] ++ ds.toList) := by
  obtain ⟨h1, r1, x1, d1, trigger⟩ := (CommandRun.start (s := s.goto .f0) hq hp).write
    (ra := regOf s.cfg.ctrlMeasReg) (v := s.cfg.ctrlForcedValue) rfl
  have atF1 := trigger.move rfl rfl
  have atF2 := atF1.move rfl (seqStep_delay rfl atF1.quiet)
  obtain ⟨h2, ds, x, d, data⟩ := atF2.read (ra := regOf s.cfg.dataBase) (n := 6) (by decide) rfl
  refine ⟨h1, r1, h2, ds, x, d, (data.move rfl rfl).congr ?_ rfl⟩
  simp [State.seqStep, State.stepF2, State.emit, State.goto, State.afterRead, State.afterWrite, hp, stageOf,
    fillBuf_toList, Event.level, Event.mode]

/-- `t_fine` fits its register, so that `COMP_P` reads the value `COMP_T` gave. -/
theorem compT_tFine_toInt (t1 t2 t3 adcT : Int) :
    (BitVec.ofInt 32 (compT t1 t2 t3 adcT).tFine).toInt = (compT t1 t2 t3 adcT).tFine :=
  toInt_ofInt32 (wrap32_range _)

theorem pressureOf_compP {s : State} (hv : s.cfg.pressVariant = .q24_8_int64) :
    pressureOf s = compP (calInt s 3) (calInt s 4) (calInt s 5) (calInt s 6) (calInt s 7) (calInt s 8)
      (calInt s 9) (calInt s 10) (calInt s 11) s.tFine.toInt s.adcP.toNat := by
  rw [pressureOf, hv]

theorem pressureOf_compP32 {s : State} (hv : s.cfg.pressVariant = .pa_int32) :
    pressureOf s = compP32 (calInt s 3) (calInt s 4) (calInt s 5) (calInt s 6) (calInt s 7) (calInt s 8)
      (calInt s 9) (calInt s 10) (calInt s 11) s.tFine.toInt s.adcP.toNat := by
  rw [pressureOf, hv]

/-- The block at F5, of a block at F3: the samples are unpacked and the temperature is calculated. -/
def State.withTemp (s : State) : State := s.stepF3.runCompT.goto .f5

/-- Steps F3 to F6: the samples are unpacked and compensated, and the results written. -/
theorem CommandRun.compensate {k : Nat} {s t : State} {bytes : List Byte} (h : CommandRun k s t bytes)
    (hstage : t.stage = []) (hseq : t.seq = .f3) {aP aT : Sample} {r : TempCalc}
    (hadc : (aP, aT) = unpackAdc t.cfg.adcByteOrder t.dbuf)
    (hr : r = compT (calInt t 0) (calInt t 1) (calInt t 2) aT.toNat) :
    ∃ (v : PressVars) (p : Int), CommandRun (k + 4) s
      { t with
        seq := .idle
        stage := []
        adcP := aP
        adcT := aT
        tFine := BitVec.ofInt 32 r.tFine
        tempVars := tempVarsOf r
        pressVars := v
        tRes := BitVec.ofInt 32 r.t
        pRes := BitVec.ofInt 32 p
        tOut := BitVec.ofInt 32 r.t
        pOut := BitVec.ofInt 32 p
        history := .fread :: t.history } bytes ∧
      (t.cfg.pressVariant = .q24_8_int64 → p = compP (calInt t 3) (calInt t 4) (calInt t 5) (calInt t 6)
        (calInt t 7) (calInt t 8) (calInt t 9) (calInt t 10) (calInt t 11) r.tFine aP.toNat) ∧
      (t.cfg.pressVariant = .pa_int32 → p = compP32 (calInt t 3) (calInt t 4) (calInt t 5) (calInt t 6)
        (calInt t 7) (calInt t 8) (calInt t 9) (calInt t 10) (calInt t 11) r.tFine aP.toNat) := by
  obtain ⟨rfl, rfl⟩ := Prod.mk.inj hadc
  subst hr
  have atF4 : CommandRun (k + 1) s t.stepF3 bytes := h.move hstage (by simp [State.seqStep, hseq])
  have atF5 : CommandRun (k + 2) s t.withTemp bytes := atF4.move rfl rfl
  have done := (atF5.move rfl rfl).move rfl rfl
  have htFine : t.withTemp.tFine.toInt = _ := compT_tFine_toInt ..
  refine ⟨pressVarsAfter t.withTemp, pressureOf t.withTemp, done.congr rfl rfl, fun hv => ?_, fun hv => ?_⟩
  · rw [pressureOf_compP (s := t.withTemp) hv, htFine]
    rfl
  · rw [pressureOf_compP32 (s := t.withTemp) hv, htFine]
    rfl

/-- Settles O9: the sample is read as by `commandRun_sample`, and compensated as by `CommandRun.compensate`. -/
theorem freadRunsToCompletion : Obligations.FreadRunsToCompletion := by
  rintro s frame hidle ⟨hstage, hpending, hsel⟩ hq
  refine ⟨_, rfl, exec_fread_idle hidle frame, ?_⟩
  obtain ⟨h1, r1, h2, ds, x, d, sampled⟩ := commandRun_sample hq hpending
  obtain ⟨aP, aT, hadc⟩ : ∃ aP aT, (aP, aT) = unpackAdc s.cfg.adcByteOrder ds := ⟨_, _, rfl⟩
  obtain ⟨v, p, done, hcompP, hcompP32⟩ := sampled.compensate
    (r := compT (calInt s 0) (calInt s 1) (calInt s 2) aT.toNat) rfl rfl hadc rfl
  refine ⟨h1, r1, h2, ds, aP, aT, _, _, ?_, hadc, rfl, done.run,
    fun hv => congrArg (BitVec.ofInt 32) (hcompP hv), fun hv => congrArg (BitVec.ofInt 32) (hcompP32 hv), ?_⟩
  · simpa using done.script
  · simp [hidle, hsel, hstage]

end Sys2Proof.Machine
end

section
/-! PROOFS of the compensation statements, the temperature: the ranges of `COMP_T`, and the invariant they give
for `T_OUT`. -/

namespace Sys2Proof.Machine

/-! ### The ranges of `COMP_T` (rule R93) -/

/-- A value of 32 bits shifted right by `n` has `32 - n` bits. -/
theorem asr_wrap32_range (x : Int) {n : Nat} (h : n ≤ 31) :
    -2 ^ (31 - n) ≤ asr (wrap32 x) n ∧ asr (wrap32 x) n < 2 ^ (31 - n) := by
  have hpos : (0 : Int) < 2 ^ n := by positivity
  have hpow : (2 : Int) ^ (31 - n) * 2 ^ n = 2 ^ 31 := by rw [← pow_add, Nat.sub_add_cancel h]
  obtain ⟨hl, hu⟩ := wrap32_range x
  exact ⟨(Int.le_ediv_iff_mul_le hpos).mpr (by linarith), Int.ediv_lt_of_lt_mul hpos (by linarith)⟩

section
variable (t1 t2 t3 adcT : Int)

theorem compT_var1_range :
    -2 ^ 20 ≤ (compT t1 t2 t3 adcT).var1 ∧ (compT t1 t2 t3 adcT).var1 < 2 ^ 20 :=
  asr_wrap32_range _ (n := 11) (by decide)

theorem compT_var2_range :
    -2 ^ 17 ≤ (compT t1 t2 t3 adcT).var2 ∧ (compT t1 t2 t3 adcT).var2 < 2 ^ 17 :=
  asr_wrap32_range _ (n := 14) (by decide)

/-- The shifts leave room for the sum, whatever wrapped before them. -/
theorem compT_tFine_eq :
    (compT t1 t2 t3 adcT).tFine = (compT t1 t2 t3 adcT).var1 + (compT t1 t2 t3 adcT).var2 := by
  have h1 := compT_var1_range t1 t2 t3 adcT
  have h2 := compT_var2_range t1 t2 t3 adcT
  have h : -2 ^ 31 ≤ (compT t1 t2 t3 adcT).var1 + (compT t1 t2 t3 adcT).var2 ∧
      (compT t1 t2 t3 adcT).var1 + (compT t1 t2 t3 adcT).var2 < 2 ^ 31 := by omega
  exact wrap32_of_range h

theorem compT_tFine_range :
    -1179648 ≤ (compT t1 t2 t3 adcT).tFine ∧ (compT t1 t2 t3 adcT).tFine ≤ 1179646 := by
  have h1 := compT_var1_range t1 t2 t3 adcT
  have h2 := compT_var2_range t1 t2 t3 adcT
  rw [compT_tFine_eq]
  omega

theorem compT_t_eq :
    (compT t1 t2 t3 adcT).t = asr ((compT t1 t2 t3 adcT).tFine * 5 + 128) 8 := by
  have h := compT_tFine_range t1 t2 t3 adcT
  have hmul : mul32 (compT t1 t2 t3 adcT).tFine 5 = (compT t1 t2 t3 adcT).tFine * 5 :=
    wrap32_of_range (by omega)
  have hadd : add32 ((compT t1 t2 t3 adcT).tFine * 5) 128 = (compT t1 t2 t3 adcT).tFine * 5 + 128 :=
    wrap32_of_range (by omega)
  calc (compT t1 t2 t3 adcT).t = asr (add32 (mul32 (compT t1 t2 t3 adcT).tFine 5) 128) 8 := rfl
    _ = _ := by rw [hmul, hadd]

/-- No operand is bounded here: the range comes from the shifts alone. -/
theorem compT_t_range :
    -23040 ≤ (compT t1 t2 t3 adcT).t ∧ (compT t1 t2 t3 adcT).t ≤ 23040 := by
  have h := compT_tFine_range t1 t2 t3 adcT
  rw [compT_t_eq, asr]
  omega

end

/-! ### The operands of `COMP_T` (rule R93) -/

section
variable {t1 t2 t3 adcT : Int}

theorem compT_a_eq (h1 : 0 ≤ t1 ∧ t1 ≤ 65535) (hadc : 0 ≤ adcT ∧ adcT < 2 ^ 20) :
    (compT t1 t2 t3 adcT).a = adcT / 8 - 2 * t1 := by
  have hshl : shl32 t1 1 = t1 * 2 ^ 1 := wrap32_of_range (by omega)
  have hsub : sub32 (asr adcT 3) (t1 * 2 ^ 1) = asr adcT 3 - t1 * 2 ^ 1 :=
    wrap32_of_range (by rw [asr]; omega)
  calc (compT t1 t2 t3 adcT).a = sub32 (asr adcT 3) (shl32 t1 1) := rfl
    _ = adcT / 8 - 2 * t1 := by rw [hshl, hsub, asr]; omega

theorem compT_d_eq (h1 : 0 ≤ t1 ∧ t1 ≤ 65535) (hadc : 0 ≤ adcT ∧ adcT < 2 ^ 20) :
    (compT t1 t2 t3 adcT).d = adcT / 16 - t1 := by
  have h : -2 ^ 31 ≤ asr adcT 4 - t1 ∧ asr adcT 4 - t1 < 2 ^ 31 := by rw [asr]; omega
  exact wrap32_of_range h

end

/-- A product of two factors whose bounds' product has 31 bits does not wrap. -/
theorem mul32_of_abs_le {x y b c : Int} (hx : |x| ≤ b) (hy : |y| ≤ c) (hbc : b * c < 2 ^ 31) :
    mul32 x y = x * y := by
  have h : |x * y| ≤ b * c := by
    rw [abs_mul]
    exact mul_le_mul hx hy (abs_nonneg y) ((abs_nonneg x).trans hx)
  exact wrap32_of_range (by rw [abs_le] at h; omega)

/-- A square wraps exactly where it exceeds the signed 32-bit range, `46341` being the least such root. -/
theorem mul32_self_ne_iff {d : Int} : mul32 d d ≠ d * d ↔ 46341 ≤ |d| := by
  constructor
  · contrapose!
    exact fun h => mul32_of_abs_le (b := 46340) (c := 46340) (by omega) (by omega) (by decide)
  · intro h
    have hsq : 46341 * 46341 ≤ d * d := abs_mul_abs_self d ▸ mul_self_le_mul_self (by decide) h
    have hlt := (wrap32_range (d * d)).2
    rw [mul32]
    omega

/-- Under `NoWrapT` each line is its line in the integers. -/
theorem compT_t_eq_exactT {t1 t2 t3 adcT : Int} (h1 : 0 ≤ t1 ∧ t1 ≤ 65535)
    (hadc : 0 ≤ adcT ∧ adcT < 2 ^ 20) (h : NoWrapT t1 t2 t3 adcT) :
    (compT t1 t2 t3 adcT).t = exactT t1 t2 t3 adcT := by
  obtain ⟨hm1, hsq, hm2⟩ := h
  have ha : (compT t1 t2 t3 adcT).a = asr adcT 3 - t1 * 2 := by rw [compT_a_eq h1 hadc, asr]; omega
  have hd : (compT t1 t2 t3 adcT).d = asr adcT 4 - t1 := compT_d_eq h1 hadc
  have hvar1 : (compT t1 t2 t3 adcT).var1 = asr (compT t1 t2 t3 adcT).m1 11 := rfl
  have hvar2 : (compT t1 t2 t3 adcT).var2 = asr (compT t1 t2 t3 adcT).m2 14 := rfl
  rw [compT_t_eq, compT_tFine_eq, hvar1, hvar2, hm1, hm2, hsq, ha, hd, exactT]

/-- Settles O35: `a` and `d` by the operands' ranges, the rest by the shifts' ranges, which hold for any
operand. -/
theorem compTRanges : Obligations.CompTRanges := by
  rintro t1 t2 t3 adcT r h1 h1' h2 h2' h3 h3' hadc hadc' rfl
  have ha := compT_a_eq (t2 := t2) (t3 := t3) ⟨h1, h1'⟩ ⟨hadc, hadc'⟩
  have hd := compT_d_eq (t2 := t2) (t3 := t3) ⟨h1, h1'⟩ ⟨hadc, hadc'⟩
  have hvar1 := compT_var1_range t1 t2 t3 adcT
  have hvar2 := compT_var2_range t1 t2 t3 adcT
  have ht := compT_t_range t1 t2 t3 adcT
  refine ⟨⟨ha, by omega⟩, ⟨hd, by omega⟩, fun h => ?m1, mul32_self_ne_iff, fun h => ?m2,
    by omega, by omega, compT_tFine_range .., compT_tFine_eq .., compT_t_eq .., ht.1, ht.2,
    compT_t_eq_exactT ⟨h1, h1'⟩ ⟨hadc, hadc'⟩⟩
  case m1 => exact mul32_of_abs_le (c := 32768) h (abs_le.mpr ⟨h2, by omega⟩) (by decide)
  case m2 =>
    have hsq := asr_wrap32_range ((compT t1 t2 t3 adcT).d * (compT t1 t2 t3 adcT).d) (n := 12) (by decide)
    exact mul32_of_abs_le (b := 2 ^ 19) (abs_le.mpr ⟨hsq.1, hsq.2.le⟩) h (by decide)

/-! ### The temperature an `FREAD` leaves (rules R81, R93) -/

@[simp] theorem State.busOp_tRes (s : State) (op : BusOp) : (s.busOp op).tRes = s.tRes := by
  cases op <;> rfl

@[simp] theorem State.busAdvance_tRes (s : State) : s.busAdvance.tRes = s.tRes := by
  cases hp : s.pending with
  | nil => simp [State.busAdvance, hp]
  | cons op rest => rcases busAdvance_cases hp with ⟨hs, h⟩ | ⟨hs, h⟩ <;> simp [h]

/-- What `COMP_T` leaves in the register of `T` is in the range of rule R93. -/
theorem tempInRange_runCompT (s : State) : TempInRange s.runCompT.tRes := by
  have h : -23040 ≤ (tempCalcOf s).t ∧ (tempCalcOf s).t ≤ 23040 := compT_t_range ..
  have hword : s.runCompT.tRes.toInt = (tempCalcOf s).t := toInt_ofInt32 (by omega)
  rwa [TempInRange, hword]

/-- The sequencer comes to F5 from F4 and to F6 from F5 (rule R81). -/
theorem seq_of_seqStep_f5_f6 {s : State} (h : s.seqStep.seq = .f5 ∨ s.seqStep.seq = .f6) :
    s.seq = .f4 ∨ s.seq = .f5 := by
  rcases (seqStep_move s).seq_cases with hstay | (hedge | ⟨-, -, hb3⟩) | ⟨-, -, hidle⟩
  · refine h.elim (fun h5 => .inr (hstay ▸ h5)) fun h6 => ?_
    have hresults : s.seqStep = s.stepF6 := by rw [State.seqStep, ← hstay, h6]
    rw [hresults] at h6
    cases h6
  · rcases h with h5 | h6
    · exact .inl (by simpa [listEdges, h5] using hedge)
    · exact .inr (by simpa [listEdges, h6] using hedge)
  · simp [hb3] at h
  · simp [hidle] at h

/-- What moves neither the sequencer nor the `T` that waits keeps the invariant, where it is silent. -/
theorem TemperatureInv.of_silent {s t : State} (h : TemperatureInv s) (same : Silent s t)
    (seq : t.seq = s.seq) (res : t.tRes = s.tRes) : TemperatureInv t := by
  simpa [TemperatureInv, FreadDone, same.cfg, same.history, same.tOut, seq, res] using h

/-- A completion of another command claims nothing of `T_OUT`. -/
theorem FreadDone.of_history {s t : State} {d : Done} (hd : d ≠ .fread) (hist : t.history = d :: s.history)
    (h : FreadDone t = true) : FreadDone s = true := by
  rw [FreadDone, hist, doneSinceReset] at h
  split at h
  · cases h
  · simpa [FreadDone, hd] using h

/-- Only F6 writes `T_OUT` or completes an `FREAD`, and what it writes is the `T` that waits. -/
theorem SeqMove.tOut_inRange {s t : State} (h : SeqMove s t) (inv : TemperatureInv s) :
    t.cfg = s.cfg ∧ (FreadDone t = true → TempInRange t.tOut) := by
  obtain ⟨-, out, res⟩ := inv
  cases h with
  | wait | stuck => exact ⟨rfl, out⟩
  | advance u q edge same =>
    refine ⟨same.cfg, fun hd => ?_⟩
    have hdone : FreadDone s = true := by simpa [FreadDone, same.history] using hd
    simpa [same.tOut] using out hdone
  | mismatch | load => exact ⟨rfl, fun hd => out (FreadDone.of_history (by decide) rfl hd)⟩
  | results hf => exact ⟨rfl, fun _ => res (.inr hf)⟩

theorem TemperatureInv.seqStep {s : State} (inv : TemperatureInv s) : TemperatureInv s.seqStep := by
  obtain ⟨hcfg, hout⟩ := (seqStep_move s).tOut_inRange inv
  obtain ⟨signed, -, res⟩ := inv
  refine ⟨hcfg ▸ signed, hout, fun hseq => ?_⟩
  rcases seq_of_seqStep_f5_f6 hseq with h4 | h5
  · have htemp : s.seqStep = s.runCompT.goto .f5 := by rw [State.seqStep, h4]
    rw [htemp]
    exact tempInRange_runCompT s
  · have hpress : s.seqStep = s.runCompP.goto .f6 := by rw [State.seqStep, h5]
    rw [hpress]
    exact res (.inl h5)

/-- Settles O51: `T` is in range as F4 writes it, whatever the coefficients, F5 leaves it, F6 copies it to
`T_OUT`, and no other move writes either register or completes an `FREAD`. -/
theorem temperatureStaysInRange : Obligations.TemperatureStaysInRange := by
  have starts : ∀ (s : State) (q : Seq), q = .b0 ∨ q = .f0 → TemperatureInv s →
      TemperatureInv (s.goto q) := by
    rintro s q hq ⟨signed, out, -⟩
    refine ⟨signed, out, ?_⟩
    rcases hq with rfl | rfl <;> simp
  have event : ∀ s u : State, Silent s u → u.seq = s.seq → u.tRes = s.tRes → TemperatureInv s →
      TemperatureInv u.busAdvance := fun s u same seq res inv =>
    inv.of_silent (same.trans (busAdvance_silent u).1) ((busAdvance_silent u).2.trans seq) (by simp [res])
  intro s t hs h
  refine step_keeps (P := TemperatureInv) ?host ?reset ?begin ?fread ?cdec ?event ?read ?write ?seq hs h
  case host => exact fun s _ inv => inv
  case reset => exact fun s inv => ⟨inv.1, by simp [FreadDone, doneSinceReset], by simp⟩
  case begin => exact fun s inv _ => starts s _ (.inl rfl) inv
  case fread => exact fun s inv _ => starts s _ (.inr rfl) inv
  case cdec =>
    rintro s v dp ⟨signed, out, res⟩ - -
    exact ⟨signed, fun hd => out (FreadDone.of_history (by decide) rfl hd), res⟩
  case event => exact fun s inv _ _ => event s s {} rfl rfl inv
  case read => exact fun s _ _ inv _ _ _ _ => event s _ {} rfl rfl inv
  case write => exact fun s _ _ inv _ _ _ => event s _ {} rfl rfl inv
  case seq => exact fun s inv _ _ _ => inv.seqStep

end Sys2Proof.Machine
end

section
/-! PROOFS of the compensation statements, the formulas: `COMP_T` and both pressure routines in machine words,
and `COMP_P` in the integers where nothing wraps. -/

namespace Sys2Proof.Machine

/-! ### The primitives on signed words (rules R8, R91) -/

theorem wrap32_eq_bmod (x : Int) : wrap32 x = x.bmod (2 ^ 32) := by
  rw [wrap32_eq_toInt, BitVec.toInt_ofInt]

theorem wrap64_eq_bmod (x : Int) : wrap64 x = x.bmod (2 ^ 64) := by
  rw [wrap64_eq_toInt, BitVec.toInt_ofInt]

/-- As a word, a product with a power of two is a left shift. -/
theorem ofInt_mul_two_pow {w : Nat} (a : BitVec w) (n : Nat) :
    BitVec.ofInt w (a.toInt * 2 ^ n) = a <<< n := by
  have hpow : BitVec.ofInt w (2 ^ n) = BitVec.twoPow w n := by
    apply BitVec.eq_of_toNat_eq
    rw [BitVec.toNat_twoPow, BitVec.toNat_ofInt]
    norm_cast
  rw [BitVec.ofInt_mul, BitVec.ofInt_toInt, hpow, BitVec.shiftLeft_eq_mul_twoPow]

section
variable (a b : Word)

theorem add32_toInt : add32 a.toInt b.toInt = (a + b).toInt := by
  rw [add32, wrap32_eq_bmod, BitVec.toInt_add]

theorem sub32_toInt : sub32 a.toInt b.toInt = (a - b).toInt := by
  rw [sub32, wrap32_eq_bmod, BitVec.toInt_sub]

theorem mul32_toInt : mul32 a.toInt b.toInt = (a * b).toInt := by
  rw [mul32, wrap32_eq_bmod, BitVec.toInt_mul]

theorem shl32_toInt (n : Nat) : shl32 a.toInt n = (a <<< n).toInt := by
  rw [shl32, wrap32_eq_toInt, ofInt_mul_two_pow]

end

section
variable (a b : DWord)

theorem add64_toInt : add64 a.toInt b.toInt = (a + b).toInt := by
  rw [add64, wrap64_eq_bmod, BitVec.toInt_add]

theorem sub64_toInt : sub64 a.toInt b.toInt = (a - b).toInt := by
  rw [sub64, wrap64_eq_bmod, BitVec.toInt_sub]

theorem mul64_toInt : mul64 a.toInt b.toInt = (a * b).toInt := by
  rw [mul64, wrap64_eq_bmod, BitVec.toInt_mul]

theorem shl64_toInt (n : Nat) : shl64 a.toInt n = (a <<< n).toInt := by
  rw [shl64, wrap64_eq_toInt, ofInt_mul_two_pow]

theorem tdiv64_toInt : tdiv64 a.toInt b.toInt = (a.sdiv b).toInt := by
  rw [tdiv64_eq, wrap64_eq_bmod, BitVec.toInt_sdiv]

end

section
variable {v w : Nat} (a : BitVec w)

theorem asr_toInt (n : Nat) : asr a.toInt n = (a.sshiftRight n).toInt := by
  rw [asr_eq_shiftRight, BitVec.toInt_sshiftRight]

theorem zeroDivisor_iff (x : Int) : zeroDivisor x = true ↔ x = 0 := beq_iff_eq

theorem zeroDivisor_toInt : zeroDivisor a.toInt = true ↔ a = 0#w := by
  rw [zeroDivisor_iff, ← BitVec.toInt_inj, BitVec.toInt_zero]

/-- An unsigned operand is the value of its zero extension, as `BitVec.toInt_signExtend_of_le` says of a signed
one. -/
theorem toInt_zeroExtend_of_lt (h : w < v) : (a.zeroExtend v).toInt = a.toNat := by
  have hpow : 2 * 2 ^ w ≤ 2 ^ v := pow_succ' 2 w ▸ Nat.pow_le_pow_right (by decide) h
  have hnat : (a.zeroExtend v).toNat = a.toNat := BitVec.toNat_setWidth_of_le h.le
  rw [BitVec.toInt_eq_toNat_of_lt (by omega), hnat]

/-- The two right shifts of a zero extension agree. -/
theorem zeroExtend_sshiftRight (h : w < v) (n : Nat) :
    (a.zeroExtend v).sshiftRight n = a.zeroExtend v >>> n := by
  refine BitVec.sshiftRight_eq_of_msb_false ?_
  rw [BitVec.zeroExtend_eq_setWidth, BitVec.msb_setWidth, BitVec.getLsbD_of_ge a (v - 1) (by omega),
    Bool.and_false]

end

/-! ### The primitives on unsigned words (rules R8, R97) -/

section
variable {w : Nat} (a : BitVec w)

theorem ofInt_toNat : BitVec.ofInt w a.toNat = a := by
  rw [BitVec.ofInt_natCast, BitVec.ofNat_toNat, BitVec.setWidth_eq]

theorem ofInt_sub (i j : Int) : BitVec.ofInt w (i - j) = BitVec.ofInt w i - BitVec.ofInt w j := by
  rw [sub_eq_add_neg, BitVec.ofInt_add, BitVec.ofInt_neg, BitVec.sub_eq_add_neg]

theorem asr_toNat (n : Nat) : asr a.toNat n = (a >>> n).toNat := by
  rw [asr, BitVec.toNat_ushiftRight, Nat.shiftRight_eq_div_pow]
  norm_cast

end

theorem u32_eq_toNat (x : Int) : u32 x = (BitVec.ofInt 32 x).toNat := by
  rw [BitVec.toNat_ofInt, u32]
  omega

/-- `u32` of a 64-bit word is its lower half. -/
theorem u32_toInt_dword (a : DWord) : u32 a.toInt = (a.extractLsb' 0 32).toNat := by
  rw [BitVec.extractLsb'_toNat, Nat.shiftRight_zero, u32, BitVec.toInt_eq_toNat_cond]
  split <;> omega

section
variable (a b : Word)

theorem u32_toInt : u32 a.toInt = a.toNat := by
  rw [u32_eq_toNat, BitVec.ofInt_toInt]

theorem u32_mul_toNat : u32 (a.toNat * b.toNat) = (a * b).toNat := by
  rw [u32_eq_toNat, BitVec.ofInt_mul, ofInt_toNat, ofInt_toNat]

theorem udiv32_toNat : udiv32 a.toNat b.toNat = (a / b).toNat := by
  rw [udiv32, BitVec.toNat_udiv]
  norm_cast

theorem wrap32_toNat : wrap32 a.toNat = a.toInt := by
  rw [wrap32_eq_toInt, ofInt_toNat]

theorem belowTopBit_toNat : belowTopBit a.toNat = true ↔ a < 0x80000000#32 := by
  rw [belowTopBit, decide_eq_true_eq, BitVec.lt_def]
  norm_cast

end

/-! ### `COMP_T` in words (rule R92) -/

theorem compT_tFine_words (T1 T2 T3 A : Word) :
    (compT T1.toInt T2.toInt T3.toInt A.toInt).tFine =
      (((A.sshiftRight 3 - T1 <<< 1) * T2).sshiftRight 11 +
        (((A.sshiftRight 4 - T1) * (A.sshiftRight 4 - T1)).sshiftRight 12 * T3).sshiftRight 14).toInt := by
  simp only [compT, asr_toInt, shl32_toInt, sub32_toInt, mul32_toInt, add32_toInt]

theorem compT_t_words {t1 t2 t3 adcT : Int} {f : Word} (h : (compT t1 t2 t3 adcT).tFine = f.toInt) :
    (compT t1 t2 t3 adcT).t = ((f * 5#32 + 128#32).sshiftRight 8).toInt := by
  have h5 : (5 : Int) = (5#32).toInt := rfl
  have h128 : (128 : Int) = (128#32).toInt := rfl
  have ht : (compT t1 t2 t3 adcT).t = asr (add32 (mul32 (compT t1 t2 t3 adcT).tFine 5) 128) 8 := rfl
  rw [ht, h, h5, h128, mul32_toInt, add32_toInt, asr_toInt]

/-- Settles O34: the operands are the values of their extensions to 32 bits, on which each primitive is that of
the words. -/
theorem compTIsTheWordFormula : Obligations.CompTIsTheWordFormula := by
  rintro t1 t2 t3 adcT _ _ _ a d var1 var2 tFine t rfl rfl rfl rfl rfl rfl rfl rfl rfl
  have htFine := compT_tFine_words (t1.zeroExtend 32) (t2.signExtend 32) (t3.signExtend 32)
    (adcT.zeroExtend 32)
  simp (disch := decide) only [toInt_zeroExtend_of_lt, BitVec.toInt_signExtend_of_le,
    zeroExtend_sshiftRight] at htFine
  exact ⟨htFine, compT_t_words htFine⟩

/-! ### `COMP_P` in words (rule R95) -/

section
variable {P1 P2 P3 P4 P5 P6 P7 P8 P9 F A x v2 v1 q w1 w2 p : DWord}

theorem compPHead_words (hx : x = F - 128000#64)
    (hv2 : v2 = x * x * P6 + ((x * P5) <<< 17) + (P4 <<< 35))
    (hv1 : v1 = (((1#64 <<< 47) + ((x * x * P3).sshiftRight 8 + ((x * P2) <<< 12))) * P1).sshiftRight 33) :
    (compPHead P1.toInt P2.toInt P3.toInt P4.toInt P5.toInt P6.toInt F.toInt).v1 = v1.toInt ∧
    (compPHead P1.toInt P2.toInt P3.toInt P4.toInt P5.toInt P6.toInt F.toInt).v2 = v2.toInt := by
  have h128000 : (128000 : Int) = (128000#64).toInt := rfl
  have hpow : (2 ^ 47 : Int) = (1#64 <<< 47).toInt := rfl
  subst hx hv2 hv1
  constructor <;> simp only [compPHead, h128000, hpow, asr_toInt, shl64_toInt, sub64_toInt, mul64_toInt,
    add64_toInt]

theorem compPTail_words (hq : q = ((((1048576#64 - A) <<< 31) - v2) * 3125#64).sdiv v1)
    (hw1 : w1 = (P9 * q.sshiftRight 13 * q.sshiftRight 13).sshiftRight 25)
    (hw2 : w2 = (P8 * q).sshiftRight 19) (hp : p = (q + w1 + w2).sshiftRight 8 + (P7 <<< 4)) :
    (compPTail v1.toInt v2.toInt P7.toInt P8.toInt P9.toInt A.toInt).p = p.toInt := by
  have h1048576 : (1048576 : Int) = (1048576#64).toInt := rfl
  have h3125 : (3125 : Int) = (3125#64).toInt := rfl
  simp only [compPTail, h1048576, h3125, asr_toInt, shl64_toInt, sub64_toInt, mul64_toInt, add64_toInt,
    tdiv64_toInt, ← hq, ← hw1, ← hw2, ← hp]

end

/-- Settles O36: the operands are the values of their extensions to 64 bits, and the two parts of `COMP_P` are
those of the words. -/
theorem compPIsTheWordFormula : Obligations.CompPIsTheWordFormula := by
  intro p1 p2 p3 p4 p5 p6 p7 p8 p9 tFine adcP P1 P2 P3 P4 P5 P6 P7 P8 P9 x v2 v1 q w1 w2 p
    hP1 hP2 hP3 hP4 hP5 hP6 hP7 hP8 hP9 hx hv2 hv1 hq hw1 hw2 hp
  obtain ⟨hhead1, hhead2⟩ := compPHead_words hx hv2 hv1
  have htail := compPTail_words hq hw1 hw2 hp
  subst hP1 hP2 hP3 hP4 hP5 hP6 hP7 hP8 hP9
  simp (disch := decide) only [toInt_zeroExtend_of_lt, BitVec.toInt_signExtend_of_le]
    at hhead1 hhead2 htail
  simp only [compP, hhead1, hhead2, htail, zeroDivisor_toInt, u32_toInt_dword]
  split
  · rfl
  · exact ofInt_toNat _

/-! ### `COMP_P32` in words (rule R97) -/

section
variable {P1 P2 P3 P4 P5 P6 P7 P8 P9 F A x q v2a v2b v2 v1 pa p w1 w2 : Word}

theorem compP32_dividend_words (hpa : pa = (1048576#32 - A - v2.sshiftRight 12) * 3125#32) :
    u32 (u32 (u32 (1048576 - A.toInt) - (v2.sshiftRight 12).toInt) * 3125) = pa.toNat := by
  simp only [u32_eq_toNat, ofInt_sub, BitVec.ofInt_mul, ofInt_toNat, BitVec.ofInt_toInt]
  rw [hpa]
  rfl

/-- The doubling before the division is a shift, that after it a product. -/
theorem compP32_quotient_words
    (hp : p = if pa < 0x80000000#32 then (pa <<< 1) / v1 else (pa / v1) * 2#32) :
    (if belowTopBit pa.toNat then udiv32 (u32 (pa.toNat * 2)) (u32 v1.toInt)
      else u32 (udiv32 pa.toNat (u32 v1.toInt) * 2)) = p.toNat := by
  have hdouble (a : Word) : u32 (a.toNat * 2) = (a * 2#32).toNat := u32_mul_toNat a 2#32
  have hshift : pa <<< 1 = pa * 2#32 := BitVec.shiftLeft_eq_mul_twoPow pa 1
  simp only [belowTopBit_toNat, u32_toInt, udiv32_toNat, hdouble, hp, hshift]
  split <;> rfl

theorem compP32_words (hx : x = F.sshiftRight 1 - 64000#32) (hq : q = x.sshiftRight 2)
    (hv2a : v2a = (q * q).sshiftRight 11 * P6) (hv2b : v2b = v2a + ((x * P5) <<< 1))
    (hv2 : v2 = v2b.sshiftRight 2 + (P4 <<< 16))
    (hv1 : v1 = ((32768#32 + ((P3 * (q * q).sshiftRight 13).sshiftRight 3 +
      (P2 * x).sshiftRight 1).sshiftRight 18) * P1).sshiftRight 15)
    (hpa : pa = (1048576#32 - A - v2.sshiftRight 12) * 3125#32)
    (hp : p = if pa < 0x80000000#32 then (pa <<< 1) / v1 else (pa / v1) * 2#32)
    (hw1 : w1 = (P9 * (((p >>> 3) * (p >>> 3)) >>> 13)).sshiftRight 12)
    (hw2 : w2 = ((p >>> 2) * P8).sshiftRight 13) :
    BitVec.ofInt 32 (compP32 P1.toInt P2.toInt P3.toInt P4.toInt P5.toInt P6.toInt P7.toInt P8.toInt
      P9.toInt F.toInt A.toInt) = if v1 = 0#32 then 0#32 else p + (w1 + w2 + P7).sshiftRight 4 := by
  have h64000 : (64000 : Int) = (64000#32).toInt := rfl
  have h32768 : (32768 : Int) = (32768#32).toInt := rfl
  simp only [compP32, h64000, h32768, asr_toInt, sub32_toInt, mul32_toInt, add32_toInt, shl32_toInt,
    ← hx, ← hq, ← hv2a, ← hv2b, ← hv2, ← hv1, compP32_dividend_words hpa, compP32_quotient_words hp,
    zeroDivisor_toInt]
  split
  · rfl
  · simp only [asr_toNat, u32_mul_toNat, wrap32_toNat, mul32_toInt, asr_toInt, ← hw1, ← hw2, add32_toInt,
      u32_toInt, ofInt_toNat]

end

/-- Settles O39: the operands are the values of their extensions to 32 bits, and `p`
is unsigned up to its last use. -/
theorem compP32IsTheWordFormula : Obligations.CompP32IsTheWordFormula := by
  intro p1 p2 p3 p4 p5 p6 p7 p8 p9 tFine adcP P1 P2 P3 P4 P5 P6 P7 P8 P9 x q v2a v2b v2 v1 pa p w1 w2
    hP1 hP2 hP3 hP4 hP5 hP6 hP7 hP8 hP9 hx hq hv2a hv2b hv2 hv1 hpa hp hw1 hw2
  have h := compP32_words (P7 := P7) hx hq hv2a hv2b hv2 hv1 hpa hp hw1 hw2
  subst hP1 hP2 hP3 hP4 hP5 hP6 hP7 hP8 hP9
  simpa (disch := decide) only [toInt_zeroExtend_of_lt, BitVec.toInt_signExtend_of_le] using h

/-! ### `COMP_P` in the integers (rules R95, R96) -/

theorem mul64_zero (x : Int) : mul64 x 0 = 0 := by
  rw [mul64, mul_zero]
  exact wrap64_of_range (by decide)

/-- Settles O37: the last factor of the divisor is `P1`. -/
theorem zeroP1GivesZeroPressure : Obligations.ZeroP1GivesZeroPressure := by
  intro p2 p3 p4 p5 p6 p7 p8 p9 tFine adcP
  have hv1 : (compPHead 0 p2 p3 p4 p5 p6 tFine).v1 = 0 := by
    simp only [compPHead, mul64_zero]
    rfl
  exact if_pos ((zeroDivisor_iff _).mpr hv1)

/-- A 64-bit dividend short of `-2 ^ 63` has a quotient of 64 bits. -/
theorem tdiv64_of_range {a : Int} (b : Int) (h : -2 ^ 63 < a ∧ a < 2 ^ 63) : tdiv64 a b = a.tdiv b := by
  have hle : (a.tdiv b).natAbs ≤ a.natAbs := Int.natAbs_tdiv_le_natAbs a b
  rw [tdiv64_eq, wrap64_of_range (by omega)]

section
variable {p1 p2 p3 p4 p5 p6 p7 p8 p9 tFine adcP : Int}

theorem compP_eq_exactP (h : NamedNoWrapP p1 p2 p3 p4 p5 p6 p7 p8 p9 tFine adcP) :
    compP p1 p2 p3 p4 p5 p6 p7 p8 p9 tFine adcP = exactP p1 p2 p3 p4 p5 p6 p7 p8 p9 tFine adcP := by
  obtain ⟨hx, hv2a, hv2b, hv2, hv1b, hv1, htail⟩ := h
  rw [hv2b, hv2a, hx] at hv2
  rw [hv1b, hx] at hv1
  simp only [compP, exactP, zeroDivisor_iff, ← hv1, ← hv2]
  refine if_ctx_congr Iff.rfl (fun _ => rfl) fun h0 => ?_
  obtain ⟨hp8, hnum, hq, hw1, hw2, hp, hlow, hhigh⟩ := htail h0
  rw [u32, Int.emod_eq_of_lt hlow hhigh, hp, hw1, hw2, hq, hnum, hp8]

/-- A product of three, taken left to right, is exact where both its steps are. -/
theorem mul64_mul64_of_fits {a b c : Int} (hab : Fits64 (a * b)) (habc : Fits64 (mul64 a b * c)) :
    mul64 (mul64 a b) c = a * b * c :=
  habc.trans (congrArg (· * c) hab)

theorem shl64_mul64_of_fits {a b : Int} {n : Nat} (hab : Fits64 (a * b))
    (hshift : Fits64 (mul64 a b * 2 ^ n)) : shl64 (mul64 a b) n = a * b * 2 ^ n :=
  hshift.trans (congrArg (· * 2 ^ n) hab)

/-- The dividend of line 9 is exact, so it is a multiple of 3125 and cannot be `-2 ^ 63`: the quotient fits. -/
theorem NoWrapTail.dividend_and_quotient {v1 v2 : Int} (h : NoWrapTail v1 v2 p7 p8 p9 adcP) :
    (compPTail v1 v2 p7 p8 p9 adcP).num =
      ((compPTail v1 v2 p7 p8 p9 adcP).p8 * 2 ^ 31 - v2) * 3125 ∧
    (compPTail v1 v2 p7 p8 p9 adcP).p9 = (compPTail v1 v2 p7 p8 p9 adcP).num.tdiv v1 := by
  obtain ⟨-, hshl, hsub, hmul, -⟩ := h
  have hnum : (compPTail v1 v2 p7 p8 p9 adcP).num =
      ((compPTail v1 v2 p7 p8 p9 adcP).p8 * 2 ^ 31 - v2) * 3125 :=
    hmul.trans (congrArg (· * 3125) (hsub.trans (congrArg (· - v2) hshl)))
  have hword : -2 ^ 63 ≤ (compPTail v1 v2 p7 p8 p9 adcP).num ∧
      (compPTail v1 v2 p7 p8 p9 adcP).num < 2 ^ 63 := wrap64_range _
  have hrange : -2 ^ 63 < (compPTail v1 v2 p7 p8 p9 adcP).num ∧
      (compPTail v1 v2 p7 p8 p9 adcP).num < 2 ^ 63 := by omega
  exact ⟨hnum, tdiv64_of_range v1 hrange⟩

/-- The named values are exact where every operation is. -/
theorem NoWrapP.named (h : NoWrapP p1 p2 p3 p4 p5 p6 p7 p8 p9 tFine adcP) :
    NamedNoWrapP p1 p2 p3 p4 p5 p6 p7 p8 p9 tFine adcP := by
  obtain ⟨head, tail⟩ := h
  obtain ⟨hx, hxx, hxxp6, hxp5, hxp5s, hv2b, hp4, hv2, hxxp3, hxp2, hxp2s, hv1b, hsum, hprod⟩ := head
  refine ⟨hx, mul64_mul64_of_fits hxx hxxp6, ?v2b, hv2.trans (congrArg (_ + ·) hp4), ?v1b, ?v1, ?tail⟩
  case v2b => exact hv2b.trans (congrArg (_ + ·) (shl64_mul64_of_fits hxp5 hxp5s))
  case v1b =>
    exact hv1b.trans
      (congrArg₂ (asr · 8 + ·) (mul64_mul64_of_fits hxx hxxp3) (shl64_mul64_of_fits hxp2 hxp2s))
  case v1 => exact congrArg (asr · 33) (hprod.trans (congrArg (· * p1) hsum))
  case tail =>
    intro h0
    obtain ⟨hnum, hq⟩ := (tail h0).dividend_and_quotient
    obtain ⟨hd, -, -, -, hp9q, hp9qq, hp8q, hadd1, hadd2, hp7, hp, hlow, hhigh⟩ := tail h0
    exact ⟨hd, hnum, hq, congrArg (asr · 25) (mul64_mul64_of_fits hp9q hp9qq), congrArg (asr · 19) hp8q,
      hp.trans (congrArg₂ (asr · 8 + ·) (hadd2.trans (congrArg (· + _) hadd1)) hp7), hlow, hhigh⟩

end

/-- Settles O38: the named values give every line, and the operations the named values, the quotient too, with
no bound on `P7`. -/
theorem compPExactWithoutWrap : Obligations.CompPExactWithoutWrap :=
  fun _ _ _ _ _ _ _ _ _ _ _ => ⟨compP_eq_exactP, fun _ _ h => ⟨h.named, compP_eq_exactP h.named⟩⟩

end Sys2Proof.Machine
end

section
/-! PROOFS of the invariant of the decimal places. -/

namespace Sys2Proof.Machine

/-- A silent move keeps the decimal places and all they are judged by. -/
theorem DecimalPlacesInv.of_silent {s t : State} (h : DecimalPlacesInv s) (same : Silent s t) :
    DecimalPlacesInv t := by
  simpa [DecimalPlacesInv, CdecDone, same.history, same.dpOut] using h

/-- A completion of another command that leaves `DP_OUT` keeps them too. -/
theorem DecimalPlacesInv.of_history {s t : State} (h : DecimalPlacesInv s) {d : Done} (hd : d ≠ .cdec)
    (hr : d ≠ .reset) (hist : t.history = d :: s.history) (hdp : t.dpOut = s.dpOut) :
    DecimalPlacesInv t := by
  simpa [DecimalPlacesInv, CdecDone, doneSinceReset, hist, hdp, hd, hr] using h

/-- Settles O52: a `CDEC` writes one of the four counts as it completes, a reset clears what is claimed, and
no other move writes `DP_OUT` or records a `CDEC`. -/
theorem decimalPlacesStayLegal : Obligations.DecimalPlacesStayLegal := by
  intro s t hs h
  cases step_move h with
  | reset rest => simp [DecimalPlacesInv, CdecDone, doneSinceReset]
  | command w rest _ _ run =>
    rcases exec_command_cases run with rfl | ⟨-, rfl | rfl | ⟨v, dp, hdp, rfl⟩⟩
    · exact hs
    · exact hs
    · exact hs
    · exact fun _ => hdp
  | bus _ _ same => exact hs.of_silent same
  | sequencer acts _ run =>
    cases run with
    | wait | stuck => exact hs
    | advance u q _ same =>
      have hu : DecimalPlacesInv u := hs.of_silent { same with }
      exact hu
    | mismatch | load | results => exact hs.of_history (by decide) (by decide) rfl rfl

end Sys2Proof.Machine
end

section
/-! PROOFS of the float statements: the rounding is to nearest even, depends on the fraction's value alone, and
is exact on the integers a frame holds. -/

namespace Sys2Proof.Machine

/-! ### The exponent of a fraction (rule R106) -/

/-- A power of two as the two natural powers the rounding scales by. -/
theorem two_pow_toNat (e : Int) : (2 : ℚ) ^ e.toNat = 2 ^ e * 2 ^ (-e).toNat := by
  rw [← zpow_natCast, ← zpow_natCast, ← zpow_add₀ two_ne_zero]
  congr 1
  omega

/-- The comparison by which `fracLog2` corrects its guess. -/
theorem two_zpow_le_frac_iff {num den : Nat} (hd : 0 < den) (e : Int) :
    (2 : ℚ) ^ e ≤ num / den ↔ den * 2 ^ e.toNat ≤ num * 2 ^ (-e).toNat := by
  have hscale : (0 : ℚ) < 2 ^ (-e).toNat := by positivity
  rw [le_div_iff₀ (by exact_mod_cast hd), ← mul_le_mul_iff_left₀ hscale, mul_right_comm, ← two_pow_toNat,
    mul_comm _ (den : ℚ)]
  exact_mod_cast Iff.rfl

theorem fracLog2_eq_log {num den : Nat} (hn : 0 < num) (hd : 0 < den) :
    fracLog2 num den = Int.log 2 ((num : ℚ) / den) := by
  have hd' : (0 : ℚ) < den := by exact_mod_cast hd
  have hx : (0 : ℚ) < num / den := by positivity
  have nlo : (2 : ℚ) ^ num.log2 ≤ num := by exact_mod_cast Nat.log2_self_le hn.ne'
  have nhi : (num : ℚ) < 2 ^ (num.log2 + 1) := by exact_mod_cast Nat.lt_log2_self
  have dlo : (2 : ℚ) ^ den.log2 ≤ den := by exact_mod_cast Nat.log2_self_le hd.ne'
  have dhi : (den : ℚ) < 2 ^ (den.log2 + 1) := by exact_mod_cast Nat.lt_log2_self
  have lower : (num.log2 : Int) - den.log2 - 1 ≤ Int.log 2 ((num : ℚ) / den) := by
    rw [← Int.zpow_le_iff_le_log one_lt_two hx, sub_sub, zpow_sub₀ (by norm_num)]
    exact div_le_div₀ (by positivity) (by exact_mod_cast nlo) hd' (by exact_mod_cast dhi.le)
  have upper : Int.log 2 ((num : ℚ) / den) < (num.log2 : Int) + 1 - den.log2 := by
    rw [← Int.lt_zpow_iff_log_lt one_lt_two hx, zpow_sub₀ (by norm_num)]
    exact div_lt_div₀ (by exact_mod_cast nhi) (by exact_mod_cast dlo) (by positivity) (by positivity)
  have test := (Int.zpow_le_iff_le_log one_lt_two hx).symm.trans
    (two_zpow_le_frac_iff (num := num) hd (num.log2 - den.log2))
  unfold fracLog2
  simp only [← test]
  split <;> omega

/-! ### The division to nearest even (rule R106) -/

/-- The quotient is off by at most a half, and where by a half it is even. -/
theorem divNearest_error (num : Nat) {den : Nat} (hd : 0 < den) :
    2 * |(divNearest num den : Int) * den - num| ≤ den ∧
      (2 * |(divNearest num den : Int) * den - num| = den → divNearest num den % 2 = 0) := by
  have hdiv : (den : Int) * (num / den : Nat) + (num % den : Nat) = num := by
    exact_mod_cast Nat.div_add_mod num den
  have hmod : num % den < den := Nat.mod_lt _ hd
  unfold divNearest
  simp only
  generalize num / den = q at *
  generalize num % den = r at *
  split
  · have herr : ((q + 1 : Nat) : Int) * den - num = den - r := by
      push_cast; linear_combination hdiv
    rw [herr, abs_of_nonneg (by omega)]
    omega
  · have herr : (q : Int) * den - num = -r := by linear_combination hdiv
    rw [herr, abs_neg, abs_of_nonneg (by omega)]
    omega

/-- An integer other than one that is off by at most a half is off by at least a half. -/
theorem abs_error_le_of_ne {num den q k : Int} (hq : 2 * |q * den - num| ≤ den) (hne : k ≠ q) :
    den ≤ 2 * |k * den - num| := by
  have hstep : den ≤ |(k - q) * den| := by
    rw [abs_mul]
    exact (le_abs_self den).trans (le_mul_of_one_le_left (abs_nonneg _) (Int.one_le_abs (sub_ne_zero.mpr hne)))
  have htri : |(k - q) * den| ≤ |k * den - num| + |q * den - num| := by
    have hsplit : (k - q) * den = (k * den - num) - (q * den - num) := by ring
    exact hsplit ▸ abs_sub _ _
  omega

/-- No integer lies nearer to the fraction than the quotient, and where another lies as near the quotient is
even. -/
theorem divNearest_nearest (num : Nat) {den : Nat} (hd : 0 < den) (k : Int) :
    |(divNearest num den : ℚ) - num / den| < |(k : ℚ) - num / den| ∨
    (|(divNearest num den : ℚ) - num / den| = |(k : ℚ) - num / den| ∧
      (k = divNearest num den ∨ divNearest num den % 2 = 0)) := by
  obtain ⟨herr, htie⟩ := divNearest_error num hd
  generalize divNearest num den = q at *
  have hd' : (0 : ℚ) < den := by exact_mod_cast hd
  have scaled (i : Int) : |(i : ℚ) - num / den| = (|i * den - num| : Int) / den := by
    push_cast
    rw [← abs_of_pos hd', ← abs_div, abs_of_pos hd', sub_div, mul_div_cancel_right₀ _ hd'.ne']
  rw [← Int.cast_natCast q, scaled, scaled, div_lt_div_iff_of_pos_right hd', div_left_inj' hd'.ne',
    Int.cast_lt, Int.cast_inj]
  by_cases hk : k = q
  · exact .inr ⟨by rw [hk], .inl hk⟩
  · have hfar := abs_error_le_of_ne herr hk
    omega

/-! ### What a pattern stands for (rule R106) -/

/-- The significand of a pattern, its hidden bit included. -/
def f32Sig (b : Word) : Nat :=
  (b.extractLsb' 0 23).toNat + if (b.extractLsb' 23 8).toNat = 0 then 0 else 2 ^ 23

/-- The exponent field that scales it: a subnormal has that of the smallest normal numbers. -/
def f32Exp (b : Word) : Nat := max 1 (b.extractLsb' 23 8).toNat

theorem f32Frac_eq (b : Word) : f32Frac b = (f32Sig b * 2 ^ (f32Exp b - 150), 2 ^ (150 - f32Exp b)) := by
  unfold f32Frac f32Sig f32Exp
  split_ifs with h
  · simp [h]
  · simp only [h, if_false]
    rw [max_eq_right (by omega)]

theorem f32Frac_den_pos (b : Word) : 0 < (f32Frac b).2 := by
  rw [f32Frac_eq]
  positivity

theorem f32Value_eq (b : Word) :
    f32Value b = (if f32Sign b then -1 else 1) * f32Sig b * 2 ^ ((f32Exp b : Int) - 150) := by
  have hscale := two_pow_toNat ((f32Exp b : Int) - 150)
  have hup : ((f32Exp b : Int) - 150).toNat = f32Exp b - 150 := by omega
  have hdown : (-((f32Exp b : Int) - 150)).toNat = 150 - f32Exp b := by omega
  rw [hup, hdown] at hscale
  have hne : (2 : ℚ) ^ (150 - f32Exp b) ≠ 0 := by positivity
  rw [f32Value, f32Frac_eq]
  push_cast
  rw [div_eq_iff hne, hscale]
  ring

theorem f32Sig_lt (b : Word) : f32Sig b < 2 ^ 24 := by
  have hfrac : (b.extractLsb' 0 23).toNat < 2 ^ 23 := BitVec.isLt _
  unfold f32Sig
  split <;> omega

theorem f32Sign_ofNat {n : Nat} (h : n < 2 ^ 31) : f32Sign (BitVec.ofNat 32 n) = false := by
  rw [f32Sign, BitVec.getLsbD_ofNat, Nat.testBit_lt_two_pow h, Bool.and_false]

/-- The exponent field of a pattern given by its number. -/
theorem extractLsb'_exp_ofNat {n : Nat} (h : n < 2 ^ 31) :
    ((BitVec.ofNat 32 n).extractLsb' 23 8).toNat = n / 2 ^ 23 := by
  rw [BitVec.extractLsb'_toNat, BitVec.toNat_ofNat, Nat.shiftRight_eq_div_pow]
  omega

/-- The fraction field of a pattern given by its number. -/
theorem extractLsb'_frac_ofNat (n : Nat) :
    ((BitVec.ofNat 32 n).extractLsb' 0 23).toNat = n % 2 ^ 23 := by
  rw [BitVec.extractLsb'_toNat, BitVec.toNat_ofNat, Nat.shiftRight_zero]
  omega

/-- A significand `q` put beside a biased exponent: the hidden bit, or the carry of a rounding up to `2 ^ 24`,
adds to the exponent field. -/
theorem f32Value_ofNat {x q : Nat} (hx : x ≤ 253) (hq : q ≤ 2 ^ 24) (hnormal : x = 0 ∨ 2 ^ 23 ≤ q) :
    f32Value (BitVec.ofNat 32 (x * 2 ^ 23 + q)) = q * 2 ^ ((x : Int) - 149) := by
  have hlt : x * 2 ^ 23 + q < 2 ^ 31 := by omega
  have hfield := extractLsb'_exp_ofNat hlt
  have hfrac := extractLsb'_frac_ofNat (x * 2 ^ 23 + q)
  rw [f32Value_eq, f32Sign_ofNat hlt, f32Sig, f32Exp, hfield, hfrac, if_neg Bool.false_ne_true, one_mul]
  obtain ⟨hsub, rfl⟩ | hn | rfl : (q < 2 ^ 23 ∧ x = 0) ∨ (2 ^ 23 ≤ q ∧ q < 2 ^ 24) ∨ q = 2 ^ 24 := by omega
  · have h0 : (0 * 2 ^ 23 + q) / 2 ^ 23 = 0 := by omega
    have hr : (0 * 2 ^ 23 + q) % 2 ^ 23 = q := by omega
    rw [h0, hr]
    norm_num
  · have h0 : (x * 2 ^ 23 + q) / 2 ^ 23 = x + 1 := by omega
    have hr : (x * 2 ^ 23 + q) % 2 ^ 23 + 2 ^ 23 = q := by omega
    rw [h0, if_neg x.succ_ne_zero, hr, max_eq_right (by omega)]
    congr 2
    push_cast
    ring
  · have h0 : (x * 2 ^ 23 + 2 ^ 24) / 2 ^ 23 = x + 2 := by omega
    have hr : (x * 2 ^ 23 + 2 ^ 24) % 2 ^ 23 = 0 := by omega
    rw [h0, hr, if_neg (by omega), max_eq_right (by omega)]
    have hexp : ((x + 2 : Nat) : Int) - 150 = 1 + (x - 149) := by omega
    rw [hexp, zpow_add₀ two_ne_zero]
    push_cast
    ring

/-! ### The rounding (rule R106) -/

/-- The exponent at which `f32Round` rounds a fraction. -/
def roundExp (num den : Nat) : Int := max (fracLog2 num den) (-126)

/-- The significand it rounds the fraction to at that exponent. -/
def roundSig (num den : Nat) : Nat :=
  divNearest (num * 2 ^ (23 - roundExp num den).toNat) (den * 2 ^ (roundExp num den - 23).toNat)

/-- The number of the pattern that exponent and significand make. -/
def roundBits (num den : Nat) : Nat := (roundExp num den + 126).toNat * 2 ^ 23 + roundSig num den

@[simp] theorem f32Round_zero (den : Nat) : f32Round 0 den = 0#32 := rfl

theorem f32Round_of_pos {num : Nat} (hn : 0 < num) (den : Nat) :
    f32Round num den =
      if 0x7F800000 ≤ roundBits num den then 0x7F800000#32 else BitVec.ofNat 32 (roundBits num den) :=
  if_neg hn.ne'

theorem f32Sign_round (num den : Nat) : f32Sign (f32Round num den) = false := by
  rcases num.eq_zero_or_pos with rfl | hn
  · rw [f32Round_zero]
    decide
  · rw [f32Round_of_pos hn]
    split
    · decide
    · exact f32Sign_ofNat (by omega)

/-- The spacing of the patterns at the exponent the fraction is rounded at. -/
def roundUnit (num den : Nat) : ℚ := 2 ^ (roundExp num den - 23)

theorem roundUnit_pos (num den : Nat) : 0 < roundUnit num den := by
  unfold roundUnit
  positivity

/-- Among the multiples of the spacing none lies nearer to the fraction than the significand's, and where
another lies as near the significand is even. -/
theorem roundSig_nearest (num : Nat) {den : Nat} (hd : 0 < den) (k : Int) :
    |roundSig num den * roundUnit num den - num / den| < |k * roundUnit num den - num / den| ∨
    (|roundSig num den * roundUnit num den - num / den| = |k * roundUnit num den - num / den| ∧
      (k = roundSig num den ∨ roundSig num den % 2 = 0)) := by
  have hu := roundUnit_pos num den
  have hden : 0 < den * 2 ^ (roundExp num den - 23).toNat := by positivity
  have hscale := two_pow_toNat (roundExp num den - 23)
  rw [neg_sub] at hscale
  have hfrac : ((num * 2 ^ (23 - roundExp num den).toNat : Nat) : ℚ) /
      (den * 2 ^ (roundExp num den - 23).toNat : Nat) = num / den / roundUnit num den := by
    push_cast
    rw [hscale, roundUnit]
    field_simp
  have scaled (y : ℚ) : |y * roundUnit num den - num / den| =
      |y - num / den / roundUnit num den| * roundUnit num den := by
    rw [← abs_of_pos hu, ← abs_mul, abs_of_pos hu, sub_mul, div_mul_cancel₀ _ hu.ne']
  rw [scaled, scaled, mul_lt_mul_iff_left₀ hu, mul_left_inj' hu.ne', ← hfrac]
  exact divNearest_nearest _ hden k

theorem roundSig_error_le (num : Nat) {den : Nat} (hd : 0 < den) (k : Int) :
    |roundSig num den * roundUnit num den - num / den| ≤ |k * roundUnit num den - num / den| :=
  (roundSig_nearest num hd k).elim le_of_lt fun h => h.1.le

/-- Rounding does not pass a multiple of the spacing. -/
theorem roundSig_le_of_le {num den : Nat} (hd : 0 < den) {k : Int}
    (h : (num / den : ℚ) ≤ k * roundUnit num den) : (roundSig num den : Int) ≤ k := by
  have herr := (le_abs_self _).trans (roundSig_error_le num hd k)
  rw [abs_of_nonneg (sub_nonneg.mpr h), sub_le_sub_iff_right, mul_le_mul_iff_left₀ (roundUnit_pos ..)] at herr
  exact_mod_cast herr

theorem le_roundSig_of_le {num den : Nat} (hd : 0 < den) {k : Int}
    (h : k * roundUnit num den ≤ (num / den : ℚ)) : k ≤ (roundSig num den : Int) := by
  have herr := (neg_le_abs _).trans (roundSig_error_le num hd k)
  rw [abs_of_nonpos (sub_nonpos.mpr h), neg_le_neg_iff, sub_le_sub_iff_right,
    mul_le_mul_iff_left₀ (roundUnit_pos ..)] at herr
  exact_mod_cast herr

/-- The multiples of the spacing by powers of two are the powers of two from it on. -/
theorem two_pow_mul_roundUnit (k num den : Nat) :
    (((2 ^ k : Nat) : Int) : ℚ) * roundUnit num den = 2 ^ (roundExp num den + k - 23) := by
  rw [roundUnit, add_sub_right_comm, zpow_add₀ two_ne_zero, zpow_natCast, mul_comm]
  norm_cast

section
variable {num den : Nat} (hn : 0 < num) (hd : 0 < den)
include hn hd

theorem roundExp_eq : roundExp num den = max (Int.log 2 (num / den : ℚ)) (-126) := by
  rw [roundExp, fracLog2_eq_log hn hd]

theorem frac_lt_two_zpow_roundExp : (num / den : ℚ) < 2 ^ (roundExp num den + 1) := by
  have hx : (0 : ℚ) < num / den := by positivity
  have heq := roundExp_eq hn hd
  exact_mod_cast (Int.lt_zpow_iff_log_lt one_lt_two hx).mpr (show _ < roundExp num den + 1 by omega)

theorem two_zpow_roundExp_le (he : roundExp num den ≠ -126) :
    (2 : ℚ) ^ roundExp num den ≤ num / den := by
  have hx : (0 : ℚ) < num / den := by positivity
  have heq := roundExp_eq hn hd
  exact_mod_cast (Int.zpow_le_iff_le_log one_lt_two hx).mpr (show roundExp num den ≤ _ by omega)

theorem roundExp_lt {k : Nat} (hlt : num < 2 ^ k * den) : roundExp num den < k := by
  have hx : (0 : ℚ) < num / den := by positivity
  have hpow : (num / den : ℚ) < ((2 : ℕ) : ℚ) ^ (k : Int) := by
    rw [div_lt_iff₀ (by exact_mod_cast hd)]
    exact_mod_cast hlt
  have hlog := (Int.lt_zpow_iff_log_lt one_lt_two hx).mp hpow
  have heq := roundExp_eq hn hd
  omega

theorem roundSig_le : roundSig num den ≤ 2 ^ 24 := by
  have hexp : roundExp num den + (24 : ℕ) - 23 = roundExp num den + 1 := by omega
  have h := (frac_lt_two_zpow_roundExp hn hd).le
  rw [← hexp, ← two_pow_mul_roundUnit] at h
  exact_mod_cast roundSig_le_of_le hd h

theorem le_roundSig (he : roundExp num den ≠ -126) : 2 ^ 23 ≤ roundSig num den := by
  have hexp : roundExp num den + (23 : ℕ) - 23 = roundExp num den := by omega
  have h := two_zpow_roundExp_le hn hd he
  rw [← hexp, ← two_pow_mul_roundUnit] at h
  exact_mod_cast le_roundSig_of_le hd h

end

/-! ### The pattern a fraction is rounded to (rule R106) -/

section
variable {num den : Nat} (hn : 0 < num) (hd : 0 < den) (hlt : num < 2 ^ 127 * den)
include hn hd hlt

theorem roundBits_lt : roundBits num den < 0x7F800000 := by
  have hexp := roundExp_lt hn hd hlt
  have hsig := roundSig_le hn hd
  unfold roundBits
  omega

theorem f32Round_eq_ofNat : f32Round num den = BitVec.ofNat 32 (roundBits num den) := by
  rw [f32Round_of_pos hn, if_neg (roundBits_lt hn hd hlt).not_ge]

theorem f32Finite_round : F32Finite (f32Round num den) := by
  have hbits := roundBits_lt hn hd hlt
  intro h
  have hfield := congrArg BitVec.toNat h
  rw [f32Round_eq_ofNat hn hd hlt, extractLsb'_exp_ofNat (by omega)] at hfield
  have hones : (0xFF#8).toNat = 255 := rfl
  omega

theorem f32Value_round : f32Value (f32Round num den) = roundSig num den * roundUnit num den := by
  have hmin : -126 ≤ roundExp num den := le_max_right _ _
  have hmax := roundExp_lt hn hd hlt
  have hsig := roundSig_le hn hd
  have hnormal : (roundExp num den + 126).toNat = 0 ∨ 2 ^ 23 ≤ roundSig num den := by
    by_cases he : roundExp num den = -126
    · exact .inl (by omega)
    · exact .inr (le_roundSig hn hd he)
  have hexp : ((roundExp num den + 126).toNat : Int) - 149 = roundExp num den - 23 := by omega
  rw [f32Round_eq_ofNat hn hd hlt, roundBits, f32Value_ofNat (by omega) hsig hnormal, hexp, roundUnit]

/-- The significand is the low end of the pattern. -/
theorem f32Round_even (h : roundSig num den % 2 = 0) : (f32Round num den).getLsbD 0 = false := by
  have heven : roundBits num den % 2 = 0 := by
    unfold roundBits
    omega
  rw [f32Round_eq_ofNat hn hd hlt, BitVec.getLsbD_ofNat, Nat.testBit_zero, heven]
  rfl

end

/-- A pattern is a multiple of the spacing at an exponent, or it lies below that power of two, and the exponent is
not the least one, whose spacing divides every pattern. -/
theorem f32Value_multiple_or_below (c : Word) (e : Int) :
    (∃ k : Int, f32Value c = k * 2 ^ (e - 23)) ∨ (|f32Value c| < 2 ^ e ∧ e ≠ -126) := by
  have hmin : 1 ≤ f32Exp c := le_max_left _ _
  rw [f32Value_eq]
  by_cases h : e - 23 ≤ (f32Exp c : Int) - 150
  · have hexp : (f32Exp c : Int) - 150 = ((f32Exp c : Int) - 150 - (e - 23)).toNat + (e - 23) := by omega
    refine .inl ⟨(if f32Sign c then -1 else 1) * f32Sig c *
      2 ^ ((f32Exp c : Int) - 150 - (e - 23)).toNat, ?_⟩
    rw [hexp, zpow_add₀ two_ne_zero, zpow_natCast, ← hexp]
    push_cast
    ring
  · refine .inr ⟨?_, by omega⟩
    have hsign : |(if f32Sign c then -1 else 1 : ℚ)| = 1 := by split <;> simp
    have hsig : (f32Sig c : ℚ) < 2 ^ 24 := by exact_mod_cast f32Sig_lt c
    have hpos : (0 : ℚ) < 2 ^ ((f32Exp c : Int) - 150) := by positivity
    rw [abs_mul, abs_mul, hsign, one_mul, Nat.abs_cast, abs_of_pos hpos]
    calc (f32Sig c : ℚ) * 2 ^ ((f32Exp c : Int) - 150)
        < 2 ^ 24 * 2 ^ ((f32Exp c : Int) - 150) := mul_lt_mul_of_pos_right hsig hpos
      _ = 2 ^ ((f32Exp c : Int) - 126) := by
        rw [← zpow_natCast, ← zpow_add₀ two_ne_zero]
        congr 1
        push_cast
        ring
      _ ≤ 2 ^ e := zpow_le_zpow_right₀ one_le_two (by omega)

@[simp] theorem f32Value_zero : f32Value 0#32 = 0 := by
  simp [f32Value_eq, f32Sig]

theorem f32Nearest_zero : F32Nearest 0#32 0 := by
  refine ⟨by unfold F32Finite; decide, fun c _ => ?_⟩
  rw [f32Value_zero, sub_zero, sub_zero, abs_zero]
  rcases (abs_nonneg (f32Value c)).lt_or_eq with h | h
  · exact .inl h
  · exact .inr ⟨h, .inl (abs_eq_zero.mp h.symm)⟩

/-- Settles O22: a finite pattern is a multiple of the spacing the fraction is rounded at, and the significand
is the nearest; or it lies below the fraction's power of two, which is such a multiple between the two. -/
theorem roundingIsNearestEven : Obligations.RoundingIsNearestEven := by
  intro num den hd hlt
  rcases num.eq_zero_or_pos with rfl | hn
  · simpa using f32Nearest_zero
  refine ⟨f32Finite_round hn hd hlt, fun c _ => ?_⟩
  rw [f32Value_round hn hd hlt]
  rcases f32Value_multiple_or_below c (roundExp num den) with ⟨k, hk⟩ | ⟨hbelow, he⟩
  · rw [hk]
    refine (roundSig_nearest num hd k).imp_right fun ⟨heq, htie⟩ => ⟨heq, ?_⟩
    exact htie.imp (fun h => by rw [h]; rfl) (f32Round_even hn hd hlt)
  · have hpow := two_zpow_roundExp_le hn hd he
    have hexp : roundExp num den + (23 : ℕ) - 23 = roundExp num den := by omega
    have herr := roundSig_error_le num hd (2 ^ 23 : Nat)
    rw [two_pow_mul_roundUnit, hexp] at herr
    refine .inl (herr.trans_lt ?_)
    calc |2 ^ roundExp num den - (num / den : ℚ)|
        = num / den - 2 ^ roundExp num den := by rw [abs_sub_comm, abs_of_nonneg (sub_nonneg.mpr hpow)]
      _ < num / den - f32Value c := sub_lt_sub_left ((le_abs_self _).trans_lt hbelow) _
      _ ≤ |f32Value c - num / den| := abs_sub_comm (f32Value c) _ ▸ le_abs_self _

/-! ### Equal fractions are rounded alike (rule R106) -/

theorem divNearest_scale {k : Nat} (hk : 0 < k) (num den : Nat) :
    divNearest (k * num) (k * den) = divNearest num den := by
  simp only [divNearest, Nat.mul_div_mul_left _ _ hk, Nat.mul_mod_mul_left, mul_left_comm 2 k,
    Nat.mul_lt_mul_left hk, Nat.mul_right_inj hk.ne']

theorem divNearest_congr {a b c d : Nat} (hb : 0 < b) (hd : 0 < d) (h : a * d = c * b) :
    divNearest a b = divNearest c d := by
  rw [← divNearest_scale hd, ← divNearest_scale hb c d, mul_comm d a, h, mul_comm b c, mul_comm d b]

theorem f32Round_congr {a b c d : Nat} (hb : 0 < b) (hd : 0 < d) (h : a * d = c * b) :
    f32Round a b = f32Round c d := by
  rcases a.eq_zero_or_pos with rfl | ha
  · have hc : c = 0 := by simpa [hb.ne', eq_comm] using h
    rw [hc, f32Round_zero, f32Round_zero]
  · have hc : 0 < c := Nat.pos_of_mul_pos_right (h ▸ Nat.mul_pos ha hd)
    have hexp : roundExp a b = roundExp c d := by
      have hfrac : (a / b : ℚ) = c / d := by
        rw [div_eq_div_iff (by positivity) (by positivity)]
        exact_mod_cast h
      rw [roundExp_eq ha hb, roundExp_eq hc hd, hfrac]
    have hsig : roundSig a b = roundSig c d := by
      rw [roundSig, roundSig, hexp]
      refine divNearest_congr (by positivity) (by positivity) ?_
      linear_combination 2 ^ (23 - roundExp c d).toNat * 2 ^ (roundExp c d - 23).toNat * h
    rw [f32Round_of_pos ha, f32Round_of_pos hc, roundBits, roundBits, hexp, hsig]

/-! ### Integers and literals (rule R106) -/

theorem f32Value_round_of_multiple {num den : Nat} (hn : 0 < num) (hd : 0 < den)
    (hlt : num < 2 ^ 127 * den) {k : Int} (h : (num / den : ℚ) = k * roundUnit num den) :
    f32Value (f32Round num den) = num / den := by
  have hsig : (roundSig num den : Int) = k :=
    (roundSig_le_of_le hd h.le).antisymm (le_roundSig_of_le hd h.ge)
  rw [f32Value_round hn hd hlt, h, ← hsig, Int.cast_natCast]

/-- An integer of up to 24 bits is a multiple of the spacing at its exponent. -/
theorem f32Value_round_nat {n : Nat} (h : n < 2 ^ 24) : f32Value (f32Round n 1) = n := by
  rcases n.eq_zero_or_pos with rfl | hn
  · simp
  have hexp : roundExp n 1 < (24 : Nat) := roundExp_lt hn one_pos (by omega)
  have hmult : (n / (1 : ℕ) : ℚ) = (n * 2 ^ (23 - roundExp n 1).toNat : Int) * roundUnit n 1 := by
    have hscale := two_pow_toNat (23 - roundExp n 1)
    have hdown : (-(23 - roundExp n 1)).toNat = 0 := by omega
    rw [hdown, pow_zero, mul_one] at hscale
    push_cast
    rw [hscale, roundUnit, mul_assoc, ← zpow_add₀ two_ne_zero]
    simp
  rw [f32Value_round_of_multiple hn one_pos (by omega) hmult, Nat.cast_one, div_one]

theorem f32Frac_lit_half : f32Frac 0x3A03126F#32 = (8589935, 2 ^ 34) := by decide

theorem lit_hundred : lit .binary32 100 1 = 0x42C80000#32 := by decide
theorem lit_thousand : lit .binary32 1000 1 = 0x447A0000#32 := by decide
theorem lit_half : lit .binary32 5 10000 = 0x3A03126F#32 := by decide

theorem f32Value_lit_half : f32Value 0x3A03126F#32 = 8589935 / 2 ^ 34 := by
  have hsign : f32Sign 0x3A03126F#32 = false := by decide
  norm_num [f32Value, f32Frac_lit_half, hsign]

/-- Settles O23: the integers are rounded exactly, the literals by evaluation. -/
theorem floatConstantsAndIntegersExact : Obligations.FloatConstantsAndIntegersExact :=
  ⟨fun _ h => f32Value_round_nat (by omega), rfl, lit_hundred, lit_thousand, lit_half,
    f32Value_lit_half, fun _ => rfl⟩

end Sys2Proof.Machine
end

section
/-! PROOFS of the caliper decode statements: what each row of `CDEC` gives, and the frame as a whole. -/

namespace Sys2Proof.Machine

/-! ### The float operations on patterns with the sign bit clear (rule R106) -/

theorem f32Signed_false (b : Word) : f32Signed false b = b := if_neg Bool.false_ne_true

theorem fdiv_of_nonneg {a b : Word} (ha : f32Sign a = false) (hb : f32Sign b = false) :
    fdiv .binary32 a b =
      f32Round ((f32Frac a).1 * (f32Frac b).2) ((f32Frac a).2 * (f32Frac b).1) := by
  rw [fdiv, ha, hb, bne_self_eq_false, f32Signed_false]

theorem fadd_of_nonneg {a b : Word} (ha : f32Sign a = false) (hb : f32Sign b = false) :
    fadd .binary32 a b = f32Round ((f32Frac a).1 * (f32Frac b).2 + (f32Frac b).1 * (f32Frac a).2)
      ((f32Frac a).2 * (f32Frac b).2) := by
  simp only [fadd, ha, hb, Bool.false_eq_true, if_false, Bool.and_self, ← Nat.cast_mul, ← Nat.cast_add,
    Int.natAbs_natCast, (Int.natCast_nonneg _).not_gt, decide_false, ite_self, f32Signed_false]

/-- A pattern that stands for a natural number, as a fraction. -/
theorem f32Frac_of_value {b : Word} {n : Nat} (hs : f32Sign b = false) (h : f32Value b = n) :
    (f32Frac b).1 = n * (f32Frac b).2 := by
  have hden : ((f32Frac b).2 : ℚ) ≠ 0 := by exact_mod_cast (f32Frac_den_pos b).ne'
  rw [f32Value, hs, if_neg Bool.false_ne_true, one_mul, div_eq_iff hden] at h
  exact_mod_cast h

/-- The quotient of two integers that convert exactly is rounded once. -/
theorem fdiv_round_nat {n k : Nat} (hn : n < 2 ^ 24) (hk : k < 2 ^ 24) (hpos : 0 < k) :
    fdiv .binary32 (f32Round n 1) (f32Round k 1) = f32Round n k := by
  have fracN := f32Frac_of_value (f32Sign_round n 1) (f32Value_round_nat hn)
  have fracK := f32Frac_of_value (f32Sign_round k 1) (f32Value_round_nat hk)
  have denN := f32Frac_den_pos (f32Round n 1)
  have denK := f32Frac_den_pos (f32Round k 1)
  rw [fdiv_of_nonneg (f32Sign_round n 1) (f32Sign_round k 1), fracN, fracK]
  exact f32Round_congr (Nat.mul_pos denN (Nat.mul_pos hpos denK)) hpos (by ring)

/-! ### The values of the rows (rules R105, R106) -/

theorem metricValue_eq (f : Flt) (mag : BitVec 20) : metricValue f mag = f32Round mag.toNat 100 := by
  cases f
  exact fdiv_round_nat (by omega) (by decide) (by decide)

theorem imperialValue_eq (f : Flt) (count : BitVec 19) :
    imperialValue f count = f32Round count.toNat 1000 := by
  cases f
  exact fdiv_round_nat (by omega) (by decide) (by decide)

theorem imperialHalfValue_eq (f : Flt) (count : BitVec 19) :
    imperialHalfValue f count =
      f32Round ((f32Frac (f32Round count.toNat 1000)).1 * 2 ^ 34 +
        8589935 * (f32Frac (f32Round count.toNat 1000)).2)
        ((f32Frac (f32Round count.toNat 1000)).2 * 2 ^ 34) := by
  cases f
  rw [imperialHalfValue, imperialValue_eq, lit_half, fadd_of_nonneg (f32Sign_round _ _) (by decide),
    f32Frac_lit_half]

theorem getLsbD_fneg (f : Flt) (v : Word) (i : Nat) :
    (fneg f v).getLsbD i = (v.getLsbD i ^^ decide (i = 31)) := by
  cases f
  have hpow : (0x80000000#32 : Word) = BitVec.twoPow 32 31 := by decide
  rw [fneg, hpow, BitVec.getLsbD_xor, BitVec.getLsbD_twoPow]
  simp [eq_comm]

theorem getLsbD_applySign (f : Flt) (sign : Bool) (v : Word) (i : Nat) :
    (applySign f sign v).getLsbD i = (v.getLsbD i ^^ (sign && decide (i = 31))) := by
  cases sign with
  | false => simp [applySign]
  | true => exact getLsbD_fneg f v i

/-- On a pattern with the sign bit clear, step 5 puts the frame's sign there. -/
theorem applySign_eq_append (f : Flt) (sign : Bool) {v : Word} (h : f32Sign v = false) :
    applySign f sign v = BitVec.ofBool sign ++ v.extractLsb' 0 31 := by
  apply BitVec.eq_of_getLsbD_eq
  intro i hi
  rw [getLsbD_applySign, BitVec.getLsbD_append, BitVec.getLsbD_extractLsb', BitVec.getLsbD_ofBool, Nat.zero_add]
  obtain hlow | rfl : i < 31 ∨ i = 31 := by omega
  · simp [hlow, hlow.ne]
  · have h31 : v.getLsbD 31 = false := h
    simp [-BitVec.getLsbD_eq_getElem, h31]

/-! ### The results of the rows (rule R105) -/

/-- Settles O15: at `IDLE` the row is accepted, and its meaning writes these two registers. -/
theorem cdecNodataResult : Obligations.CdecNodataResult :=
  fun _ h => exec_cdecNodata_idle h

/-- Settles O16: `u2f` and `lit(100.0)` are exact, so the quotient is the one rounding. -/
theorem cdecMetricResult : Obligations.CdecMetricResult := by
  intro s hi mid sign mag h
  rw [exec_cdecMm_idle h, metricValue_eq, applySign_eq_append _ _ (f32Sign_round _ _)]
  rfl

/-- Settles O17: `u2f` and `lit(1000.0)` are exact, so the quotient is the one rounding. -/
theorem cdecImperialResult : Obligations.CdecImperialResult := by
  intro s hi mid sign count h
  rw [exec_cdecIn_idle h, imperialValue_eq, applySign_eq_append _ _ (f32Sign_round _ _)]
  rfl

/-- Settles O18: the quotient is rounded once, and its exact sum with `lit(0.0005)` again. -/
theorem cdecImperialHalfResult : Obligations.CdecImperialHalfResult := by
  intro s hi mid sign count h
  rw [exec_cdecInh_idle h, imperialHalfValue_eq, applySign_eq_append _ _ (f32Sign_round _ _)]
  rfl

/-! ### The frame as a whole (rule R105) -/

/-- The value before the sign, and the decimal places, of a frame that is not the sentinel. -/
def frameMagnitude (flt : Flt) (f : Word) : Word × BitVec 3 :=
  if f.getLsbD 23 = false then (metricValue flt (f.extractLsb' 0 20), 2#3)
  else if f.getLsbD 0 = false then (imperialValue flt (f.extractLsb' 1 19), 3#3)
  else (imperialHalfValue flt (f.extractLsb' 1 19), 4#3)

theorem exec_decodeFrame_of_ne_sentinel {s : State} (h : s.seq = .idle) {f : Word}
    (hf : f ≠ Config.sentinel) :
    exec (decodeFrame f) s = .next (s.setCaliper
      (applySign s.cfg.flt (f.getLsbD 20) (frameMagnitude s.cfg.flt f).1) (frameMagnitude s.cfg.flt f).2) := by
  unfold decodeFrame frameMagnitude
  rw [if_neg hf]
  split_ifs
  · exact exec_cdecMm_idle h ..
  · exact exec_cdecIn_idle h ..
  · exact exec_cdecInh_idle h ..

/-- The value before the sign and the decimal places are of bits 23 and 19:0 alone. -/
theorem frameMagnitude_examined {f g : Word} (h : f &&& 0x008FFFFF#32 = g &&& 0x008FFFFF#32) (flt : Flt) :
    frameMagnitude flt f = frameMagnitude flt g := by
  have unit : f.getLsbD 23 = g.getLsbD 23 := getLsbD_eq_of_and_eq h rfl
  have half : f.getLsbD 0 = g.getLsbD 0 := getLsbD_eq_of_and_eq h rfl
  have mag : f.extractLsb' 0 20 = g.extractLsb' 0 20 := extractLsb'_eq_of_and_eq h rfl
  have count : f.extractLsb' 1 19 = g.extractLsb' 1 19 := extractLsb'_eq_of_and_eq h rfl
  rw [frameMagnitude, frameMagnitude, unit, half, mag, count]

/-- Setting or clearing bit 20 leaves the bits those two are of. -/
theorem and_magnitude_mask_or_sign (f : Word) :
    (f ||| 0x00100000#32) &&& 0x008FFFFF#32 = (f &&& 0xFFEFFFFF#32) &&& 0x008FFFFF#32 := by
  have hor : 0x00100000#32 &&& 0x008FFFFF#32 = 0#32 := by decide
  have hand : 0xFFEFFFFF#32 &&& 0x008FFFFF#32 = 0x008FFFFF#32 := by decide
  rw [BitVec.and_or_distrib_right, hor, BitVec.or_zero, BitVec.and_assoc, hand]

theorem decodeCommand_cdec_append {c : Params} (h : c.codesDiffer = true) (f : Word) :
    decodeCommand c (c.cmdCdec ++ f : CmdWord) = decodeFrame f :=
  decodeCommand_cdec h f

/-- Settles O21: the two frames differ in bit 20 alone, which is the sign. -/
theorem signBitNegates : Obligations.SignBitNegates := by
  intro s f h hc hset
  have clear20 : (f &&& 0xFFEFFFFF#32).getLsbD 20 = false := by simp
  have set20 : (f ||| 0x00100000#32).getLsbD 20 = true := by simp
  have hclear : f &&& 0xFFEFFFFF#32 ≠ Config.sentinel := by
    intro he
    rw [he] at clear20
    exact absurd clear20 (by decide)
  refine ⟨(frameMagnitude s.cfg.flt (f &&& 0xFFEFFFFF#32)).1,
    (frameMagnitude s.cfg.flt (f &&& 0xFFEFFFFF#32)).2, ?_, ?_⟩
  · rw [decodeCommand_cdec_append hc, exec_decodeFrame_of_ne_sentinel h hclear, clear20]
    rfl
  · rw [decodeCommand_cdec_append hc, exec_decodeFrame_of_ne_sentinel h hset, set20,
      frameMagnitude_examined (and_magnitude_mask_or_sign f)]
    cases s.cfg.flt
    rfl

section
variable (f : Word)

/-- The mask of the rule takes the magnitude field. -/
theorem toNat_and_mag_mask : (f &&& 0xFFFFF#32).toNat = (f.extractLsb' 0 20).toNat := by
  rw [BitVec.toNat_and, BitVec.extractLsb'_toNat, Nat.shiftRight_zero]
  exact Nat.and_two_pow_sub_one_eq_mod f.toNat 20

/-- `mag >> 1` is the count field. -/
theorem toNat_count_field : (f.extractLsb' 1 19).toNat = (f.extractLsb' 0 20).toNat / 2 := by
  rw [BitVec.extractLsb'_toNat, BitVec.extractLsb'_toNat, Nat.shiftRight_zero, Nat.shiftRight_eq_div_pow]
  omega

/-- The half bit is the low bit of the magnitude. -/
theorem half_bit_iff_mag_odd : f.getLsbD 0 = true ↔ (f.extractLsb' 0 20).toNat % 2 = 1 := by
  rw [BitVec.extractLsb'_toNat, Nat.shiftRight_zero, BitVec.getLsbD, Nat.testBit_zero, decide_eq_true_iff]
  omega

end

/-- Steps 3 and 4 as the rule writes them, over the magnitude as a number. -/
theorem frameMagnitude_eq (flt : Flt) (f : Word) {mag : Nat} (hmag : mag = (f &&& 0xFFFFF#32).toNat) :
    frameMagnitude flt f =
      if f.getLsbD 23 = false then (fdiv flt (u2f flt mag) (lit flt 100 1), 2#3)
      else if mag % 2 = 1 then
        (fadd flt (fdiv flt (u2f flt (mag / 2)) (lit flt 1000 1)) (lit flt 5 10000), 4#3)
      else (fdiv flt (u2f flt (mag / 2)) (lit flt 1000 1), 3#3) := by
  rw [hmag, toNat_and_mag_mask, ← toNat_count_field]
  simp only [← half_bit_iff_mag_odd, frameMagnitude, metricValue, imperialHalfValue, imperialValue]
  cases f.getLsbD 0 <;> simp only [Bool.false_eq_true, Bool.true_eq_false, if_true, if_false]

/-- Settles O19: the sentinel is the row without data; of any other frame the decoder makes the unit and the
half test, and the meaning of the row the arithmetic and the sign test. -/
theorem cdecFollowsPseudocode : Obligations.CdecFollowsPseudocode := by
  intro s f flt mag v dp h hc hflt hmag hres
  rw [decodeCommand_cdec_append hc]
  by_cases hf : f = 0xFFFFFFFF#32
  · rw [if_pos hf] at hres
    cases hres
    exact hf ▸ exec_cdecNodata_idle h
  · rw [if_neg hf] at hres
    simp only [← frameMagnitude_eq flt f hmag] at hres
    cases hres
    rw [exec_decodeFrame_of_ne_sentinel h hf, hflt]
    rfl

end Sys2Proof.Machine
end

section
/-! PROOFS of the reset statement: the block after reset, and what reset does on the bus. -/

namespace Sys2Proof.Machine

/-! ### Reset inside and outside a transaction (rules R14, R12, R135) -/

section
variable (s : State)

@[simp] theorem State.assertReset_busy : s.assertReset.busy = false := rfl
@[simp] theorem State.assertReset_calLoaded : CalLoaded s.assertReset = false := rfl

variable {s}

/-- In the middle of a transaction the line is deasserted, which is the one event. -/
theorem State.assertReset_trace_of_low (h : s.sel = .low) : s.assertReset.trace = s.trace ++ [.deselect] := by
  rw [State.assertReset_trace, if_pos h]

/-- Outside a transaction the bus sees nothing. -/
theorem State.assertReset_outside_of_high (h : s.sel = .high) :
    s.assertReset.trace = s.trace ∧ s.assertReset.sensor = s.sensor := by
  have hl : s.sel ≠ .low := by rw [h]; decide
  exact ⟨by rw [State.assertReset_trace, if_neg hl], by rw [State.assertReset_sensor, if_neg hl]⟩

end

/-- Settles O41: whatever the block was doing, the step is `State.assertReset` once the act is taken; the
level of the select line decides whether a transaction is cut short. -/
theorem resetAtAnyTime : Obligations.ResetAtAnyTime := by
  intro s rest hhost
  exact ⟨{ s with host := rest }.assertReset, step_reset hhost, rfl, rfl, State.assertReset_busy _,
    State.assertReset_calLoaded _, rfl, rfl, rfl, rfl, rfl, rfl,
    State.assertReset_trace_of_low, State.assertReset_outside_of_high⟩

end Sys2Proof.Machine
end

section
/-! PROOFS of the statements about what a step does to the sensor and the parameters: at most one event, which
the sensor sees. -/

namespace Sys2Proof.Machine

/-! ### The event of a move of the block (rules R30, R33, R39) -/

/-- What a move of the block does outside it: nothing, or one event, which the sensor sees and in which an
exchange receives the byte that was next. -/
inductive OutsideMove (s t : State) : Prop where
  | silent (cfg : t.cfg = s.cfg := by rfl) (trace : t.trace = s.trace := by rfl)
      (sensor : t.sensor = s.sensor := by rfl) (miso : t.miso = s.miso := by rfl)
  | event (e : Event) (received : ∀ o i, e = .xfer o i → i = s.nextByte)
      (cfg : t.cfg = s.cfg := by rfl) (trace : t.trace = s.trace ++ [e] := by rfl)
      (sensor : t.sensor = s.sensor.observe s.cfg e s.draws := by rfl)
      (miso : t.miso = s.miso ∨ t.miso = s.miso.tail := by exact .inl rfl)

theorem OutsideMove.cfg_eq {s t : State} (h : OutsideMove s t) : t.cfg = s.cfg := by
  cases h with
  | silent hcfg | event _ _ hcfg => exact hcfg

/-- Which transaction is staged or in hand, and what the last one received, is nothing outside the block. -/
theorem OutsideMove.of_staged {s t : State} {stage rx : List Byte} {pending : List BusOp}
    (h : OutsideMove { s with stage := stage, rx := rx, pending := pending } t) : OutsideMove s t := by
  cases h with
  | silent hcfg htrace hsensor hmiso => exact .silent hcfg htrace hsensor hmiso
  | event e received hcfg htrace hsensor hmiso => exact .event e received hcfg htrace hsensor hmiso

theorem busAdvance_outside (s : State) : OutsideMove s s.busAdvance := by
  cases hp : s.pending with
  | nil =>
    have hs : s.busAdvance = s := by simp [State.busAdvance, hp]
    exact hs.symm ▸ .silent
  | cons op rest =>
    rcases busAdvance_cases hp with ⟨hs, heq⟩ | ⟨hs, heq⟩ <;> rw [heq]
    · cases op with
      | select => exact .event .select fun o i h => by cases h
      | xfer o keep => exact .event (.xfer o s.nextByte) (fun o i h => by cases h; rfl) (miso := .inr rfl)
      | deselect => exact .event .deselect fun o i h => by cases h
    · exact .silent

/-- A step that issues the event `e` of its own, which is no exchange. -/
theorem call_outside (s : State) {e : Event} (he : ∀ o i, e ≠ .xfer o i) (q : Seq) :
    OutsideMove s (s.capability fun t => (t.emit e).goto q) := by
  rcases State.capability_cases s fun t => (t.emit e).goto q with ⟨hs, h⟩ | ⟨hs, h⟩ <;> rw [h]
  · exact .event e fun o i h => absurd h (he o i)
  · exact .silent

theorem stepB2_outside (s : State) : OutsideMove s s.stepB2 := by
  unfold State.stepB2
  split <;> exact .silent

/-- Of the steps of the two lists only `B0` and `F1` issue an event of their own. -/
theorem seqStep_outside (s : State) : OutsideMove s s.seqStep := by
  unfold State.seqStep
  cases s.seq with
  | b0 | f1 => exact call_outside s (fun o i h => by cases h) _
  | b2 => exact stepB2_outside s
  | idle | b1 | b3 | b4 | b5 | b6 | f0 | f2 | f3 | f4 | f5 | f6 => exact .silent

theorem blockMove_outside {c : Params} {s t : State} (h : s.blockMove.answer c = .next t) : OutsideMove s t := by
  rcases blockMove_cases h with ⟨-, rfl⟩ | ⟨-, -, rfl⟩ |
    ⟨-, -, ⟨ra, n, -, -, rfl⟩ | ⟨ra, v, -, rfl⟩⟩ | ⟨-, -, -, rfl⟩
  · exact .silent
  · exact busAdvance_outside s
  · exact (busAdvance_outside { s with stage := [], rx := [], pending := readOps ra n }).of_staged
  · exact (busAdvance_outside { s with stage := [], pending := writeOps ra v }).of_staged
  · exact seqStep_outside s

/-- A command word reaches neither the sensor nor the parameters (rule R84). -/
theorem exec_command_outside {c : Params} {w : CmdWord} {s t : State}
    (h : exec (decodeCommand c w) s = .next t) : t.cfg = s.cfg ∧ t.sensor = s.sensor := by
  rcases exec_command_cases h with rfl | ⟨-, rfl | rfl | ⟨v, dp, -, rfl⟩⟩ <;> exact ⟨rfl, rfl⟩

/-! ### What every step keeps -/

/-- Settles O50: a command word leaves the sensor alone, a reset cuts its transaction short at most, and a move
of the block is at most one event, each of which keeps the form. -/
theorem memoryStaysCanonical : Obligations.MemoryStaysCanonical := by
  intro s t hwf h
  obtain ⟨acts, rfl | ⟨w, run⟩ | move⟩ := step_source h
  · rw [State.assertReset_sensor, State.assertReset_cfg]
    split
    · exact Sensor.wf_cutShort _ hwf
    · exact hwf
  · obtain ⟨hcfg, hsensor⟩ := exec_command_outside run
    rw [hcfg, hsensor]
    exact hwf
  · cases blockMove_outside move with
    | silent hcfg _ hsensor => rw [hcfg, hsensor]; exact hwf
    | event e _ hcfg _ hsensor => rw [hcfg, hsensor]; exact Sensor.wf_observe e _ hwf

/-- Settles O47: reset keeps the parameters, and neither a command word nor a move of the block writes them. -/
theorem noStepChangesParameters : Obligations.NoStepChangesParameters := by
  intro s t h
  obtain ⟨acts, rfl | ⟨w, run⟩ | move⟩ := step_source h
  · rfl
  · exact (exec_command_outside run).1
  · exact (blockMove_outside move).cfg_eq

end Sys2Proof.Machine
end

section
/-! PROOFS of the statements about what a step runs: the decoded instruction, the frame of each, and a block that
is stuck. -/

namespace Sys2Proof.Machine

/-! ### The block's own move, and when it is a step -/

/-- A tick of the host lets the block move (rule R146). -/
theorem step_tick {s : State} {rest : List HostAct} (h : s.host = .tick :: rest) :
    step s = ({ s with host := rest } : State).blockMove.answer s.cfg := by
  simp [step_eq_answer, State.fetch, h]

/-- A blocking call to a busy block waits while the block moves (rule R139). -/
theorem step_call_busy {s : State} {w : CmdWord} {rest : List HostAct} (h : s.host = .call w :: rest)
    (hbusy : s.seq ≠ .idle) : step s = s.blockMove.answer s.cfg := by
  simp [step_eq_answer, State.fetch, h, State.busy, hbusy]

theorem step_no_host {s : State} (h : s.host = []) : step s = s.blockMove.answer s.cfg := by
  rw [step_eq_answer, fetch_of_no_host h]

theorem blockMove_hung {s : State} (h : s.hung = true) : s.blockMove = .own s := by
  simp [State.blockMove, h]

/-- A block with a transaction staged and none in hand runs it. -/
theorem blockMove_staged {c : Params} {s : State} {i : Instr} (hh : s.hung = false) (hp : s.pending = [])
    (hi : decodeBus s.stage = .ok i) : s.blockMove.answer c = exec i { s with stage := [] } := by
  obtain ⟨b, bs, hb⟩ : ∃ b bs, s.stage = b :: bs :=
    List.exists_cons_of_ne_nil fun hnil => by rw [hnil] at hi; cases hi
  rw [hb] at hi
  simp [State.blockMove, hh, hp, hb, Fetch.answer, decode, hi]

/-- Where what is staged is a transaction, a move of the block answers a next state. -/
theorem blockMove_next {c : Params} {s : State} (hstage : s.stage ≠ [] → ∃ i, decodeBus s.stage = .ok i) :
    ∃ t, s.blockMove.answer c = .next t := by
  cases hh : s.hung with
  | true => exact ⟨s, by rw [blockMove_hung hh]; rfl⟩
  | false =>
    cases hp : s.pending with
    | cons op rest => exact ⟨s.busAdvance, by simp [State.blockMove, hh, hp, Fetch.answer]⟩
    | nil =>
      by_cases hst : s.stage = []
      · exact ⟨s.seqStep, by simp [State.blockMove, hh, hp, hst, Fetch.answer]⟩
      · obtain ⟨i, hi⟩ := hstage hst
        rw [blockMove_staged hh hp hi]
        exact exec_next i _

/-! ### A step runs the decoded instruction (rules R36, R84, R146) -/

/-- Settles O5: the header's bit 7 is clear, and more than one byte follows it. -/
theorem multiByteWriteRefused : Obligations.MultiByteWriteRefused := by
  intro c ra v v' vs
  have hflag : (0#1 ++ ra : Byte).getLsbD 7 = false := header_flag false ra
  simp only [decode, decodeBus, hflag, Bool.false_eq_true, if_false]

/-- Settles O6: a word presented, a blocking call at `IDLE` and a staged transaction are the three ways in which
`fetch` finds an instruction. -/
theorem stepRunsDecodedInstruction : Obligations.StepRunsDecodedInstruction := by
  refine ⟨fun s w rest i hi hhost => ?_, fun s w rest i hi hhost hidle => ?_,
    fun s i hhost hhung hp hi => step_stage hhost hhung hp hi⟩
  · cases hi
    exact step_present hhost
  · cases hi
    exact step_call_idle hhost hidle

theorem decodeTableWord_eq_some_iff {nbits w : Nat} {i : Instr} : decodeTableWord nbits w = some i ↔
    ∃ k : Code, tableCode nbits w = some k ∧ decode Params.default k = .ok i := by
  unfold decodeTableWord
  cases tableCode nbits w with
  | none => simp
  | some k => cases hd : decode Params.default k <;> simp [hd]

/-- A row of more than 8 bits is a command word, one of up to 8 bits the bytes of a transaction. -/
theorem tableCode_cases {nbits w : Nat} {k : Code} (h : tableCode nbits w = some k) :
    (8 < nbits ∧ ∃ cw, k = .cw cw) ∨ (nbits ≤ 8 ∧ ∃ bs, k = .bus bs) := by
  unfold tableCode at h
  split_ifs at h with hwidth <;> cases h
  · exact .inr ⟨hwidth, _, rfl⟩
  · exact .inl ⟨by omega, _, rfl⟩

/-- Settles O7: a command word is presented by the host, a transaction staged for a tick of it. -/
theorem placedRowRunsNext : Obligations.PlacedRowRunsNext := by
  refine ⟨fun nbits w i => decodeTableWord_eq_some_iff, fun s nbits w k i hk hi => ?_⟩
  have hplace : s.withFetchWord nbits w = s.place k := by simp [State.withFetchWord, hk]
  rw [hplace]
  rcases tableCode_cases hk with ⟨hwidth, cw, rfl⟩ | ⟨hwidth, bs, rfl⟩
  · refine ⟨fun _ => ?_, fun h => absurd h (by omega)⟩
    cases hi
    exact step_present (s := s.place (.cw cw)) rfl
  · refine ⟨fun h => absurd h (by omega), fun _ => ?_⟩
    rw [step_tick (s := s.place (.bus bs)) rfl]
    exact blockMove_staged rfl rfl hi

/-- Settles O11: the code is none of the three the decoder compares with, and the meaning is the same state. -/
theorem reservedCodeHasNoEffect : Obligations.ReservedCodeHasNoEffect := by
  have key : ∀ (c : Params) (op : BitVec 2) (f : Word), op ≠ c.cmdBegin → op ≠ c.cmdFread →
      op ≠ c.cmdCdec → decode c (.cw (op ++ f : CmdWord)) = .ok (.reservedOp3 f) := by
    intro c op f hb hf hc
    have hop : (op ++ f : CmdWord).extractLsb' 32 2 = op := cmdWord_op op f
    have hframe : (op ++ f : CmdWord).extractLsb' 0 32 = f := cmdWord_frame op f
    simp [decode, decodeCommand, hop, hframe, hb, hf, hc]
  exact ⟨fun f => key Params.default 3#2 f (by decide) (by decide) (by decide),
    fun s op f hb hf hc => ⟨key s.cfg op f hb hf hc, rfl⟩⟩

/-! ### The frame of an instruction (rules R16, R105) -/

/-- What no instruction changes in the step that accepts it or issues its `Select`. -/
structure OperandsKept (s t : State) : Prop where
  cfg : t.cfg = s.cfg := by rfl
  cal : t.cal = s.cal := by rfl
  statusOut : t.statusOut = s.statusOut := by rfl
  tOut : t.tOut = s.tOut := by rfl
  pOut : t.pOut = s.pOut := by rfl
  idByte : t.idByte = s.idByte := by rfl
  cbuf : t.cbuf = s.cbuf := by rfl
  dbuf : t.dbuf = s.dbuf := by rfl
  adcP : t.adcP = s.adcP := by rfl
  adcT : t.adcT = s.adcT := by rfl
  tFine : t.tFine = s.tFine := by rfl
  tempVars : t.tempVars = s.tempVars := by rfl
  pressVars : t.pressVars = s.pressVars := by rfl
  tRes : t.tRes = s.tRes := by rfl
  pRes : t.pRes = s.pRes := by rfl
  spiMode : t.spiMode = s.spiMode := by rfl
  miso : t.miso = s.miso := by rfl
  host : t.host = s.host := by rfl

/-- The rows of `CDEC` (rule R57). -/
def IsCdec (i : Instr) : Prop :=
  i = .cdecNodata ∨ (∃ hi mid sign mag, i = .cdecMm hi mid sign mag) ∨
    (∃ hi mid sign count, i = .cdecIn hi mid sign count) ∨
    (∃ hi mid sign count, i = .cdecInh hi mid sign count)

/-- The outcomes of an instruction, each with the rows that have it: nothing, an acceptance of `BEGIN` or
`FREAD`, the two result registers of a `CDEC`, or the beginning of a transaction. -/
inductive ExecMove (i : Instr) (s : State) : State → Prop where
  | nothing : ExecMove i s s
  | begin (f : Word) (h : i = .begin f) : ExecMove i s (s.goto .b0)
  | fread (f : Word) (h : i = .fread f) : ExecMove i s (s.goto .f0)
  | cdec (v : Word) (dp : BitVec 3) (h : IsCdec i) : ExecMove i s (s.setCaliper v dp)
  | transaction (rx : List Byte) (rest : List BusOp)
      (h : (∃ ra n, i = .rreg ra n) ∨ (∃ ra v, i = .wreg ra v)) :
      ExecMove i s ({ s with rx := rx }.busBegin (.select :: rest))

theorem exec_move {i : Instr} {s t : State} (h : exec i s = .next t) : ExecMove i s t := by
  have cdec : ∀ {v : Word} {dp : BitVec 3}, s.accept (fun u => u.setCaliper v dp) = .next t → IsCdec i →
      ExecMove i s t := fun hacc hrow => by
    rcases State.accept_cases hacc with rfl | rfl
    · exact .nothing
    · exact .cdec _ _ hrow
  cases i with
  | begin f =>
    rcases State.accept_cases (f := fun u => u.goto .b0) h with rfl | rfl
    · exact .nothing
    · exact .begin f rfl
  | fread f =>
    rcases State.accept_cases (f := fun u => u.goto .f0) h with rfl | rfl
    · exact .nothing
    · exact .fread f rfl
  | cdecNodata => exact cdec h (.inl rfl)
  | cdecMm hi mid sign mag => exact cdec h (.inr (.inl ⟨hi, mid, sign, mag, rfl⟩))
  | cdecIn hi mid sign count => exact cdec h (.inr (.inr (.inl ⟨hi, mid, sign, count, rfl⟩)))
  | cdecInh hi mid sign count => exact cdec h (.inr (.inr (.inr ⟨hi, mid, sign, count, rfl⟩)))
  | reservedOp3 f => cases h; exact .nothing
  | rreg ra n => cases h; exact .transaction [] _ (.inl ⟨ra, n, rfl⟩)
  | wreg ra v => cases h; exact .transaction s.rx _ (.inr ⟨ra, v, rfl⟩)

/-- A transaction begins with its `Select`, or the call of that does not return. -/
theorem busBegin_select_cases (s : State) (rest : List BusOp) :
    (∃ hs, s.busBegin (.select :: rest) = { s with hangs := hs, pending := rest }.emit .select) ∨
      (∃ hs, s.busBegin (.select :: rest) =
        { s with pending := .select :: rest, hangs := hs, hung := true }) :=
  busAdvance_cases (s := { s with pending := .select :: rest }) rfl

/-- No `Select` changes a register of the sensor: a conversion that is due ends after the transaction. -/
theorem Sensor.observe_select_regs (x : Sensor) (c : Params) (n : Nat) : (x.observe c .select n).regs = x.regs := by
  cases hp : x.present with
  | false => rw [Sensor.observe_absent hp]
  | true =>
    rcases Sensor.observe_present (c := c) hp .select n with h | ⟨h, -⟩
    · rw [h]
      exact Sensor.pass_regs_busy x (by simp [SensorPhase.after])
    · cases h

theorem ExecMove.operandsKept {i : Instr} {s t : State} (h : ExecMove i s t) : OperandsKept s t := by
  cases h with
  | nothing | begin | fread | cdec => exact {}
  | transaction rx rest =>
    rcases busBegin_select_cases { s with rx := rx } rest with ⟨hs, heq⟩ | ⟨hs, heq⟩ <;> rw [heq] <;> exact {}

theorem ExecMove.sensor_regs {i : Instr} {s t : State} (h : ExecMove i s t) : t.sensor.regs = s.sensor.regs := by
  cases h with
  | nothing | begin | fread | cdec => rfl
  | transaction rx rest =>
    rcases busBegin_select_cases { s with rx := rx } rest with ⟨hs, heq⟩ | ⟨hs, heq⟩
    · rw [heq]
      exact Sensor.observe_select_regs s.sensor s.cfg s.draws
    · rw [heq]

/-- The beginning of a transaction is the bus unit's alone. -/
theorem busBegin_select_frame {s t : State} {rest : List BusOp} (h : s.busBegin (.select :: rest) = t) :
    (t.valOut = s.valOut ∧ t.dpOut = s.dpOut ∧ t.history = s.history) ∧ t.seq = s.seq ∧ t.stage = s.stage := by
  subst h
  rcases busBegin_select_cases s rest with ⟨hs, heq⟩ | ⟨hs, heq⟩ <;> rw [heq] <;>
    exact ⟨⟨rfl, rfl, rfl⟩, rfl, rfl⟩

/-- Settles O29, by the outcomes of an instruction. -/
theorem instructionFrame : Obligations.InstructionFrame := by
  intro i s t h
  have hmove := exec_move h
  have kept := hmove.operandsKept
  refine ⟨⟨kept.cfg, kept.cal, kept.statusOut, kept.tOut, kept.pOut, kept.idByte, kept.cbuf, kept.dbuf, kept.adcP,
    kept.adcT, kept.tFine, kept.tempVars, kept.pressVars, kept.tRes, kept.pRes, kept.spiMode, kept.miso, kept.host⟩,
    fun a => by rw [hmove.sensor_regs], ?_⟩
  cases hmove with
  | nothing =>
    exact ⟨.inl ⟨rfl, rfl, rfl⟩, .inl ⟨rfl, rfl, rfl, rfl, rfl, rfl, rfl, rfl⟩, .inl ⟨rfl, rfl⟩⟩
  | begin f hi =>
    exact ⟨.inl ⟨rfl, rfl, rfl⟩, .inl ⟨rfl, rfl, rfl, rfl, rfl, rfl, rfl, rfl⟩, .inr (.inl ⟨f, hi⟩)⟩
  | fread f hi =>
    exact ⟨.inl ⟨rfl, rfl, rfl⟩, .inl ⟨rfl, rfl, rfl, rfl, rfl, rfl, rfl, rfl⟩, .inr (.inr ⟨f, hi⟩)⟩
  | cdec v dp hrow => exact ⟨.inr hrow, .inl ⟨rfl, rfl, rfl, rfl, rfl, rfl, rfl, rfl⟩, .inl ⟨rfl, rfl⟩⟩
  | transaction rx rest hrow =>
    obtain ⟨hresults, hstep⟩ := busBegin_select_frame (s := { s with rx := rx }) (rest := rest) rfl
    exact ⟨.inl hresults, .inr hrow, .inl hstep⟩

/-! ### A block that is stuck, and a block that is not (rules R85, R126, U5) -/

/-- Settles O42: a command word is not accepted away from `IDLE`, and a stuck block's own move is none. -/
theorem stuckUntilReset : Obligations.StuckUntilReset := by
  intro s t hhung hbusy hreset h
  cases hhost : s.host with
  | nil =>
    rw [step_hung hhost hhung] at h
    cases h
    rfl
  | cons act rest =>
    cases act with
    | reset => exact absurd hhost (hreset rest)
    | tick =>
      rw [step_tick hhost, blockMove_hung (s := { s with host := rest }) hhung] at h
      cases h
      rfl
    | present w =>
      rw [step_present hhost] at h
      rcases exec_command_cases h with rfl | ⟨hidle, -⟩
      · rfl
      · exact absurd hidle hbusy
    | call w =>
      rw [step_call_busy hhost hbusy, blockMove_hung hhung] at h
      cases h
      rfl

/-- Where the call of its `Select` does not return, a transaction is in hand and none of its events has happened. -/
theorem busBegin_select_stuck {s : State} {hs : List Nat} (h : s.hangs = 0 :: hs) (rest : List BusOp) :
    s.busBegin (.select :: rest) = { s with pending := .select :: rest, hangs := hs, hung := true } := by
  simp only [State.busBegin, State.busAdvance, State.capability, h]

/-- Settles O43: such a call stops at the entry 0 of the list, before its effect. -/
theorem unreturnedCallSticks : Obligations.UnreturnedCallSticks := by
  refine ⟨fun s rest ra n hhangs => ?_, fun s rest ra v hhangs => ?_, fun s rest hhost hhung hhangs hdue => ?_⟩
  · exact congrArg _ (busBegin_select_stuck (s := { s with rx := [] }) hhangs _)
  · exact congrArg _ (busBegin_select_stuck hhangs _)
  · rcases hdue with hp | ⟨hp, hstage, hseq⟩
    · obtain ⟨op, ops, hops⟩ := List.exists_cons_of_ne_nil hp
      rw [step_pending hhost hhung hops]
      simp only [State.busAdvance, hops, State.capability_stuck hhangs]
    · rw [step_seq hhost hhung hp hstage]
      rcases hseq with hseq | hseq <;>
        simp only [State.seqStep, hseq, State.stepB0, State.stepF1, State.capability_stuck hhangs]

/-- Under the discipline of the bus what is staged is a transaction. -/
theorem BusDiscipline.stage_decodes {s : State} (h : BusDiscipline s) (hne : s.stage ≠ []) :
    ∃ i, decodeBus s.stage = .ok i := by
  have hst := h.stage_eq hne
  rcases transaction_of_step s.cfg s.seq with ⟨hnone, -⟩ | ⟨ra, n, hn, hread, -⟩ | ⟨ra, v, hwrite, -⟩
  · exact absurd (hst.trans hnone) hne
  · exact ⟨_, by rw [hst, hread]; exact decodeBus_readBytes ra hn⟩
  · exact ⟨_, by rw [hst, hwrite]; exact decodeBus_writeBytes ra v⟩

/-- Settles O45: there is no fault; a command word has a meaning in every state, and under the discipline of the
bus so has what is staged. -/
theorem machineNeverStops : Obligations.MachineNeverStops := by
  refine ⟨fun s r => (nomatch r), fun s hd => ?_⟩
  have hstage := hd.stage_decodes
  cases hhost : s.host with
  | nil => rw [step_no_host hhost]; exact blockMove_next hstage
  | cons act rest =>
    cases act with
    | reset => exact ⟨_, step_reset hhost⟩
    | tick => rw [step_tick hhost]; exact blockMove_next hstage
    | present w => rw [step_present hhost]; exact exec_next _ _
    | call w =>
      by_cases hidle : s.seq = .idle
      · rw [step_call_idle hhost hidle]; exact exec_next _ _
      · rw [step_call_busy hhost hidle]; exact blockMove_next hstage

end Sys2Proof.Machine
end

section
/-! PROOFS of the statements about the reference sensor in one transaction: what a run's events make of the
sensor, and what `RREG` receives and `WREG` stores. -/

namespace Sys2Proof.Machine

/-! ### The sensor follows the events of a quiet run (rule R33) -/

/-- The byte that the event `e` receives, if it is an exchange, is the one that a present sensor answers. -/
def Sensor.Answers (x : Sensor) (c : Params) (e : Event) (n : Nat) : Prop :=
  ∀ o i b, e = .xfer o i → x.present = true → x.reply c n = some b → i = b

/-- The events lead the sensor from the first state to the last; `free` says that no byte is scripted, so that
the bytes received are the sensor's answers. -/
inductive Observed (c : Params) (free : Prop) : Sensor → List Event → Sensor → Prop where
  | nil (x : Sensor) : Observed c free x [] x
  | cons {x y : Sensor} {e : Event} {es : List Event} (n : Nat) (answers : free → x.Answers c e n)
      (rest : Observed c free (x.observe c e n) es y) : Observed c free x (e :: es) y

theorem nextByte_answers {s : State} (hmiso : s.miso = []) {e : Event}
    (received : ∀ o i, e = .xfer o i → i = s.nextByte) : s.sensor.Answers s.cfg e s.draws := by
  intro o i b he hpresent hreply
  rw [received o i he]
  simp [State.nextByte, hmiso, hpresent, hreply]

section
variable {s t u : State} {free : Prop}

theorem OutsideMove.observed (h : OutsideMove s t) (hfree : free → s.miso = []) :
    ∃ es, t.trace = s.trace ++ es ∧ Observed s.cfg free s.sensor es t.sensor := by
  cases h with
  | silent _ htrace hsensor => exact ⟨[], by rw [htrace, List.append_nil], hsensor ▸ .nil _⟩
  | event e received _ htrace hsensor =>
    exact ⟨[e], htrace, .cons s.draws (fun hf => nextByte_answers (hfree hf) received) (hsensor ▸ .nil _)⟩

theorem OutsideMove.miso_nil (h : OutsideMove s t) (hmiso : s.miso = []) : t.miso = [] := by
  cases h with
  | silent _ _ _ heq => rw [heq, hmiso]
  | event _ _ _ _ _ heq => rcases heq with heq | heq <;> simp [heq, hmiso]

theorem quiet_busAdvance (hq : Quiet s) : Quiet s.busAdvance := by
  obtain ⟨hhost, hhangs, hhung⟩ := hq
  cases hp : s.pending with
  | nil => simpa [State.busAdvance, hp] using ⟨hhost, hhangs, hhung⟩
  | cons op rest =>
    simp only [State.busAdvance, hp, State.capability_returns hhangs]
    cases op <;> exact ⟨hhost, hhangs, hhung⟩

theorem quiet_step (hq : Quiet s) (h : step s = .next t) : Quiet t ∧ OutsideMove s t := by
  have ⟨hhost, _, _⟩ := hq
  rw [step_no_host hhost] at h
  refine ⟨?_, blockMove_outside h⟩
  rcases blockMove_cases h with ⟨-, rfl⟩ | ⟨-, -, rfl⟩ |
    ⟨-, -, ⟨ra, n, -, -, rfl⟩ | ⟨ra, v, -, rfl⟩⟩ | ⟨-, -, -, rfl⟩
  · exact hq
  · exact quiet_busAdvance hq
  · exact quiet_busAdvance (s := { s with stage := [], rx := [], pending := readOps ra n }) hq
  · exact quiet_busAdvance (s := { s with stage := [], pending := writeOps ra v }) hq
  · exact (seqStep_quiet hq).1

theorem Observed.append {c : Params} {x y z : Sensor} {es fs : List Event} (h : Observed c free x es y)
    (k : Observed c free y fs z) : Observed c free x (es ++ fs) z := by
  induction h with
  | nil => exact k
  | cons n answers _ ih => exact .cons n answers (ih k)

theorem Observed.of_append {c : Params} {x z : Sensor} {es fs : List Event} (h : Observed c free x (es ++ fs) z) :
    ∃ y, Observed c free x es y ∧ Observed c free y fs z := by
  induction es generalizing x with
  | nil => exact ⟨x, .nil x, h⟩
  | cons e es ih =>
    cases h with
    | cons n answers rest =>
      obtain ⟨y, hy, hz⟩ := ih rest
      exact ⟨y, .cons n answers hy, hz⟩

/-- An absent sensor stays as it is. -/
theorem Observed.absent {c : Params} {x y : Sensor} {es : List Event} (h : Observed c free x es y)
    (hx : x.present = false) : y = x := by
  induction h with
  | nil => rfl
  | cons n _ _ ih =>
    rw [Sensor.observe_absent hx] at ih
    exact ih hx

theorem exists_observed {k : Nat} (hq : Quiet s) (hfree : free → s.miso = []) (run : RunsTo k s u) :
    ∃ es, u.trace = s.trace ++ es ∧ Observed s.cfg free s.sensor es u.sensor := by
  induction k generalizing s with
  | zero =>
    have heq : s = u := run
    subst heq
    exact ⟨[], (List.append_nil _).symm, .nil _⟩
  | succ k ih =>
    obtain ⟨t, hstep, run⟩ := run
    obtain ⟨hqt, move⟩ := quiet_step hq hstep
    obtain ⟨es, htrace, first⟩ := move.observed hfree
    obtain ⟨fs, hrest, rest⟩ := ih hqt (fun hf => move.miso_nil (hfree hf)) run
    rw [move.cfg_eq] at rest
    exact ⟨es ++ fs, by rw [hrest, htrace, List.append_assoc], first.append rest⟩

/-- The sensor at the end of a quiet run is what the run's events make of it. -/
theorem RunsTo.observed {k : Nat} {es : List Event} (run : RunsTo k s u) (hq : Quiet s)
    (hfree : free → s.miso = []) (htrace : u.trace = s.trace ++ es) :
    Observed s.cfg free s.sensor es u.sensor := by
  obtain ⟨fs, hfs, h⟩ := exists_observed hq hfree run
  rwa [List.append_cancel_left (htrace.symm.trans hfs)]

/-- The machine is deterministic. -/
theorem RunsTo.unique {k : Nat} {v : State} (h : RunsTo k s u) (h' : RunsTo k s v) : u = v := by
  induction k generalizing s with
  | zero => exact (h : s = u).symm.trans h'
  | succ k ih =>
    obtain ⟨t, ht, hu⟩ := h
    obtain ⟨t', ht', hv⟩ := h'
    cases ht.symm.trans ht'
    exact ih hu hv

/-- A quiet run that follows the `Select` of a transaction. -/
theorem observed_selected {k : Nat} {ops : List BusOp} {es : List Event} (hq : Quiet s)
    (hfree : free → s.miso = []) (run : RunsTo k (s.selected ops) u)
    (htrace : u.trace = s.trace ++ .select :: es) : Observed s.cfg free s.sensor (.select :: es) u.sensor :=
  .cons s.draws (fun _ o i b h => by cases h)
    (run.observed (s := s.selected ops) hq hfree (by simp [htrace, State.selected]))

end

/-! ### The sensor inside a transaction (rules R31, R33) -/

/-- In the same transaction, at phase `p`, the sensor `x` has become `y`: no register has changed, no conversion
has started or ended. -/
structure InTransaction (x : Sensor) (p : SensorPhase) (y : Sensor) : Prop where
  phase : y.phase = p
  present : y.present = true
  regs : y.regs = x.regs
  samples : y.samples = x.samples
  lasts : y.lasts = x.lasts
  asleep : y.conversions = [] ↔ x.conversions = []

section
variable {c : Params} {free : Prop} {x y z : Sensor} {p : SensorPhase} {e : Event} {es : List Event}

theorem InTransaction.refl (hx : x.present = true) : InTransaction x x.phase x :=
  ⟨rfl, hx, rfl, rfl, rfl, .rfl⟩

/-- `measuring` is as before the transaction. -/
theorem InTransaction.status_eq (h : InTransaction x p y) (n : Nat) : y.status n = x.status n := by
  simp only [Sensor.status, h.asleep]

/-- An event that leaves the sensor in the transaction. -/
theorem InTransaction.next (h : InTransaction x p y) (he : e ≠ .deselect) (hp : p.after e ≠ .off)
    (hobs : Observed c free y (e :: es) z) :
    ∃ w n, InTransaction x (p.after e) w ∧ Observed c free w es z ∧ (free → y.Answers c e n) := by
  cases hobs with
  | cons n answers rest =>
    rcases Sensor.observe_present (c := c) h.present e n with heq | ⟨hd, -⟩
    · rw [heq, h.phase] at rest
      refine ⟨y.pass c (p.after e), n, ⟨rfl, h.present, ?_, h.samples, h.lasts, ?_⟩, rest, answers⟩
      · rw [Sensor.pass_regs_busy _ hp, h.regs]
      · simp [Sensor.pass, hp, h.asleep]
    · exact absurd hd he

/-- The header of a write addresses its register. -/
theorem after_write_header (ra : RegAddr) (h : Byte) :
    SensorPhase.selected.after (.xfer (header false ra) h) = .addressed ra := by
  simp [SensorPhase.after]

/-- The header of a read addresses its first register. -/
theorem after_read_header (ra : RegAddr) (h : Byte) :
    SensorPhase.selected.after (.xfer (header true ra) h) = .reading ra.toNat := by
  simp [SensorPhase.after]

/-- A transaction that is no write ends with its `Deselect`, when conversions that are due end. -/
theorem InTransaction.deselect (h : InTransaction x p y) (hp : ∀ a v, p ≠ .written a v)
    (hobs : Observed c free y [.deselect] z) : z = y.pass c .off := by
  cases hobs with
  | cons n _ rest =>
    cases rest
    rcases Sensor.observe_present (c := c) h.present .deselect n with heq | ⟨-, a, v, hphase, -⟩
    · exact heq
    · exact absurd (h.phase.symm.trans hphase) (hp a v)

/-- A complete write is stored after its `Deselect`, when conversions that are due end (rule R39). -/
theorem Observed.write (hx : x.present = true) {ra : RegAddr} {h v r : Byte}
    (hobs : Observed c free x (writeEvents ra h v r) y) :
    ∃ w n, InTransaction x (.written ra v) w ∧ y = (w.pass c .off).store c ra v n := by
  obtain ⟨w1, -, t1, hobs, -⟩ := (InTransaction.refl hx).next (by simp) (by simp [SensorPhase.after]) hobs
  obtain ⟨w2, -, t2, hobs, -⟩ := t1.next (by simp) (by simp [SensorPhase.after]) hobs
  rw [show x.phase.after .select = .selected from rfl, after_write_header] at t2
  obtain ⟨w3, -, t3, hobs, -⟩ := t2.next (by simp) (by simp [SensorPhase.after]) hobs
  have t3 : InTransaction x (.written ra v) w3 := t3
  cases hobs with
  | cons n _ rest =>
    cases rest
    refine ⟨w3, n, t3, ?_⟩
    simp [Sensor.observe, t3.present, t3.phase]

/-- The data bytes of a read are the contents of consecutive registers, as they were before it. -/
theorem InTransaction.data (bs : List Byte) {a : Nat} (h : InTransaction x (.reading a) y)
    (hobs : Observed c free y (bs.map (Event.xfer Config.dummy) ++ [.deselect]) z) :
    (∃ w b, InTransaction x (.reading b) w ∧ z = w.pass c .off) ∧
    (free → ∀ k (hk : k < bs.length), a + k < 128 →
      ∃ n, bs[k] = if statusReg c (a + k) then x.status n else x.regs.read c (a + k)) := by
  induction bs generalizing a y with
  | nil => exact ⟨⟨y, a, h, h.deselect (by simp) hobs⟩, fun _ k hk => absurd hk (by simp)⟩
  | cons b bs ih =>
    obtain ⟨w, n, hw, hobs, answers⟩ := h.next (by simp) (by simp [SensorPhase.after]) hobs
    obtain ⟨hend, hdata⟩ := ih hw hobs
    refine ⟨hend, fun hf k hk ha => ?_⟩
    cases k with
    | zero =>
      refine ⟨n, ?_⟩
      rw [← h.status_eq, ← h.regs]
      exact answers hf _ _ _ rfl h.present (Sensor.reply_reading h.phase ha n)
    | succ k =>
      rw [show a + (k + 1) = a + 1 + k by omega] at ha ⊢
      exact hdata hf k (by simpa using hk) ha

/-- A complete read receives the contents of consecutive registers; conversions that are due end after it. -/
theorem Observed.read (hx : x.present = true) {ra : RegAddr} {h : Byte} {bs : List Byte}
    (hobs : Observed c free x (readEvents ra h bs) y) :
    (∃ w b, InTransaction x (.reading b) w ∧ y = w.pass c .off) ∧
    (free → ∀ k (hk : k < bs.length), ra.toNat + k < 128 →
      ∃ n, bs[k] = if statusReg c (ra.toNat + k) then x.status n else x.regs.read c (ra.toNat + k)) := by
  obtain ⟨w1, -, t1, hobs, -⟩ := (InTransaction.refl hx).next (by simp) (by simp [SensorPhase.after]) hobs
  obtain ⟨w2, -, t2, hobs, -⟩ := t1.next (by simp) (by simp [SensorPhase.after]) hobs
  rw [show x.phase.after .select = .selected from rfl, after_read_header] at t2
  exact t2.data bs hobs

/-! ### What a transaction leaves of the registers (rules R18, R33) -/

/-- An event changes a register only where a conversion in progress can. -/
theorem Sensor.read_pass_unless {a : Nat} (h : x.conversions = [] ∨ conversionReg c a = false)
    (p : SensorPhase) : (x.pass c p).regs.read c a = x.regs.read c a := by
  rcases h with h | h
  · rw [Sensor.pass_regs_asleep h]
  · rcases Bool.and_eq_false_iff.mp h with h | h
    · obtain ⟨hctrl, hdata⟩ := Bool.or_eq_false_iff.mp h
      exact Sensor.read_pass_other x p (by simpa using hctrl) hdata
    · exact Sensor.read_pass_kept x p h

/-- The end of a transaction likewise. -/
theorem InTransaction.read_pass (h : InTransaction x p y) {a : Nat}
    (ha : x.conversions = [] ∨ conversionReg c a = false) (q : SensorPhase) :
    (y.pass c q).regs.read c a = x.regs.read c a := by
  rw [Sensor.read_pass_unless (ha.imp_left h.asleep.mpr), h.regs]

/-- All that a store other than the reset code does to a reading. -/
theorem Sensor.read_store {ra : RegAddr} {v : Byte} (h : ¬ (resetReg c ra.toNat = true ∧ v = 0xB6#8)) (n a : Nat) :
    (x.store c ra v n).regs.read c a =
      if a = ra.toNat ∧ readOnlyReg c ra.toNat = false then regBits c a v else x.regs.read c a := by
  rcases Sensor.store_regs (c := c) x ra v n with ⟨hro, heq⟩ | ⟨-, hreset, hv, -⟩ | ⟨hro, -, heq⟩
  · rw [heq, if_neg (by simp [hro])]
  · exact absurd ⟨hreset, hv⟩ h
  · rw [heq, Memory.read_write, writableReg_toNat hro]
    by_cases ha : a = ra.toNat <;> simp [ha, hro]

end

/-! ### `WREG` and `RREG` with the reference sensor -/

theorem wreg_observed {s t u : State} {ra : RegAddr} {v : Byte} (hq : Quiet s) (hexec : exec (.wreg ra v) s = .next t)
    (run : RunsTo 3 t u) : ∃ h r, Observed s.cfg (s.miso = []) s.sensor (writeEvents ra h v r) u.sensor := by
  rw [exec_wreg_quiet hq] at hexec
  cases hexec
  obtain ⟨h, r, u', run', -, hu⟩ := runsTo_write_rest (s := s.selected _) hq ra v rfl
  rw [run.unique run']
  exact ⟨h, r, observed_selected hq id run' (by rw [hu]; simp [State.selected])⟩

/-- Settles O27: the store is after the end of the conversions that are due, whatever these leave. -/
theorem wregStoresOneRegister : Obligations.WregStoresOneRegister := by
  intro s t u ra v hq hexec run hreset
  obtain ⟨h, r, hobs⟩ := wreg_observed hq hexec run
  cases hx : s.sensor.present with
  | false => simp [hobs.absent hx]
  | true =>
    obtain ⟨w, n, hw, heq⟩ := hobs.write hx
    simp only [heq, Sensor.read_store hreset]
    refine ⟨fun a hne ha => ?_, ?_⟩
    · rw [if_neg fun h => hne h.1]
      exact hw.read_pass ha _
    · cases hro : readOnlyReg s.cfg ra.toNat with
      | false => simp
      | true =>
        have hkept : conversionReg s.cfg ra.toNat = false := by simp [conversionReg, writableReg, hro]
        simpa using hw.read_pass (.inr hkept) _

/-- Settles O56: the reset register is none the sensor keeps, so the code reaches `Sensor.softReset`. -/
theorem wregResetsSensor : Obligations.WregResetsSensor := by
  intro s t u ra hq hreset hexec run
  obtain ⟨h, r, hobs⟩ := wreg_observed hq hexec run
  refine ⟨fun hx => ?_, hobs.absent⟩
  obtain ⟨w, n, hw, heq⟩ := hobs.write hx
  have hro : readOnlyReg s.cfg ra.toNat = false := by
    simp only [resetReg, placedReg, Bool.and_eq_true, Bool.not_eq_true', Bool.or_eq_false_iff] at hreset
    exact hreset.2.1.1.1
  have hsoft : u.sensor = (w.pass s.cfg .off).softReset s.cfg := by simp [heq, Sensor.store, hro, hreset]
  rw [hsoft]
  refine ⟨rfl, fun a => (Memory.read_filter_readOnly _ a).trans ?_⟩
  split
  next hkept => exact hw.read_pass (.inr (by simp [conversionReg, writableReg, hkept])) _
  next => rfl

/-- Settles O28: the registers do not change in the transaction, so the bytes received are those before it. -/
theorem rregReadsSensorRegisters : Obligations.RregReadsSensorRegisters := by
  intro s t u ra n _ hq hx hmiso hrange hexec run
  rw [exec_rreg_quiet hq] at hexec
  cases hexec
  obtain ⟨h, bs, u', run', hlen, -, hu⟩ := runsTo_read_rest (s := { s with rx := [] }.selected _) hq ra n rfl
  cases run.unique run'
  have hrx : u.rx = bs := by rw [hu]; simp [State.selected]
  have hobs : Observed s.cfg (s.miso = []) s.sensor (readEvents ra h bs) u.sensor :=
    observed_selected (s := { s with rx := [] }) hq id run (by rw [hu]; simp [State.selected])
  obtain ⟨⟨w, b, hw, hend⟩, hdata⟩ := hobs.read hx
  refine ⟨by rw [hrx, hlen], fun k hk => ?_, fun a ha => Memory.read_xlsb _ ha, fun a ha => ?_⟩
  · obtain ⟨m, hm⟩ := hdata hmiso k (by omega) (by omega)
    refine ⟨bs[k]'(by omega), by rw [hrx, List.getElem?_eq_getElem (by omega)], ?_⟩
    rw [hm]
    split
    next => exact Sensor.status_measuring s.sensor m
    next => rfl
  · rw [hend]
    exact hw.read_pass ha _

end Sys2Proof.Machine
end

section
/-! PROOFS of the statements about the reference sensor in a whole command: the calibration file that `BEGIN`
loads, and the sample that `FREAD` compensates. -/

namespace Sys2Proof.Machine

/-! ### What a store, an event and the end of a conversion make of the sensor (rules R18, R33) -/

section
variable {c : Params}

@[simp] theorem Sensor.store_present (x : Sensor) (ra : RegAddr) (v : Byte) (n : Nat) :
    (x.store c ra v n).present = x.present := by
  unfold Sensor.store
  split_ifs <;> rfl

@[simp] theorem Sensor.store_phase (x : Sensor) (ra : RegAddr) (v : Byte) (n : Nat) :
    (x.store c ra v n).phase = x.phase := by
  unfold Sensor.store
  split_ifs <;> rfl

/-- A store to a register a parameter places is none of the reset code. -/
theorem not_reset_of_placed {ra : RegAddr} {v : Byte} (h : placedReg c ra.toNat = true) :
    ¬ (resetReg c ra.toNat = true ∧ v = 0xB6#8) := by
  simp [(special_of_placed h).2]

theorem placed_ctrlMeas (c : Params) : placedReg c c.ctrlMeasAddr = true := by simp [placedReg]
theorem placed_config (c : Params) : placedReg c c.configAddr = true := by simp [placedReg]
theorem placed_of_readOnly {a : Nat} (h : readOnlyReg c a = true) : placedReg c a = true := by simp [placedReg, h]
theorem placed_data (c : Params) {k : Nat} (h : k < 6) : placedReg c (c.dataAddr + k) = true := by
  simp [placedReg, dataReg, show k ≤ 5 by omega]

theorem readOnly_id (c : Params) : readOnlyReg c c.idAddr = true := by simp [readOnlyReg]
theorem readOnly_calib (c : Params) {k : Nat} (h : k < 24) : readOnlyReg c (c.calibAddr + k) = true := by
  simp [readOnlyReg, show k ≤ 23 by omega]

/-- No register the sensor keeps is one that can be written. -/
theorem ne_of_readOnly {a b : Nat} (ha : readOnlyReg c a = true) (hb : writableReg c b = true) : a ≠ b := by
  rintro rfl
  simp [writableReg, ha] at hb

/-- The conversion that a store starts, if it starts one, lasts as scripted. -/
theorem Sensor.store_conversions {x : Sensor} {ra : RegAddr} {v : Byte} {n : Nat} {k : Conversion}
    (h : k ∈ (x.store c ra v n).conversions) :
    k ∈ x.conversions ∨ k.left = x.lasts.headD (Config.drawCount n) := by
  unfold Sensor.store at h
  split_ifs at h
  · exact .inl h
  · exact absurd h (by simp [Sensor.softReset])
  · rcases List.mem_append.mp h with h | h
    · exact .inl h
    · exact .inr (by rw [List.mem_singleton.mp h])
  · exact .inl h

/-- A forced write to `ctrl_meas` starts a conversion (rule R33). -/
theorem Sensor.store_forced (hmap : mapApart c = true) (x : Sensor) {ra : RegAddr} {v : Byte}
    (hra : ra.toNat = c.ctrlMeasAddr) (hv : forcedMode v = true) (n : Nat) :
    x.store c ra v n = { x with regs := x.regs.write c c.ctrlMeasAddr v }.startConversion v n := by
  obtain ⟨hctrl, -⟩ := mapApart_spec hmap
  simp [Sensor.store, hra, ((writableReg_iff _).mp hctrl).2, (special_of_placed (placed_ctrlMeas c)).2, hv]

/-- Where no conversion is due an event changes no register. -/
theorem Sensor.pass_regs_none_due {x : Sensor} (h : ∀ k ∈ x.conversions, k.left ≠ 0) (p : SensorPhase) :
    (x.pass c p).regs = x.regs := by
  have hdue : x.conversions.filter (fun k => k.left == 0) = [] := by simpa using h
  simp [Sensor.pass, hdue]

/-- A conversion due that was triggered last ends last; `P` is what the ends before it keep. -/
theorem Sensor.pass_regs_last (P : Memory → Prop) (keeps : ∀ m k, P m → P (Memory.endConversion c m k))
    {x : Sensor} {ks : List Conversion} {k : Conversion} (hx : x.conversions = ks ++ [k]) (hk : k.left = 0)
    (h : P x.regs) : ∃ m, P m ∧ (x.pass c .off).regs = Memory.endConversion c m k := by
  refine ⟨({ x with conversions := ks }.pass c .off).regs, 
    Sensor.pass_regs_induction P { x with conversions := ks } .off keeps h, ?_⟩
  simp [Sensor.pass, hx, hk, List.filter_append, List.foldl_append]

/-- At the end of a conversion `mode` reads back 00 (rule R33). -/
theorem Memory.read_endConversion_ctrlMeas (hmap : mapApart c = true) (m : Memory) (k : Conversion) :
    (Memory.endConversion c m k).read c c.ctrlMeasAddr = m.read c c.ctrlMeasAddr &&& 0xFC#8 := by
  obtain ⟨hctrl, -, -, hbits, -⟩ := mapApart_spec hmap
  rw [Memory.endConversion, Memory.read_write_self _ _ hctrl, hbits]

/-- What `ctrl_meas` holds but for its mode no end of a conversion changes. -/
theorem Memory.endConversion_ctrlMeas_masked (hmap : mapApart c = true) {v : Byte} (m : Memory) (k : Conversion)
    (h : m.read c c.ctrlMeasAddr &&& 0xFC#8 = v) :
    (Memory.endConversion c m k).read c c.ctrlMeasAddr &&& 0xFC#8 = v := by
  rw [Memory.read_endConversion_ctrlMeas hmap, BitVec.and_assoc, BitVec.and_self, h]

/-- A `ctrl_meas` in sleep mode is as it is after any event. -/
theorem Sensor.read_pass_ctrlMeas (hmap : mapApart c = true) {x : Sensor} (p : SensorPhase)
    (h : x.regs.read c c.ctrlMeasAddr &&& 0xFC#8 = x.regs.read c c.ctrlMeasAddr) :
    (x.pass c p).regs.read c c.ctrlMeasAddr = x.regs.read c c.ctrlMeasAddr :=
  Sensor.pass_regs_induction (fun m => m.read c c.ctrlMeasAddr = x.regs.read c c.ctrlMeasAddr) x p
    (fun m k hm => by rw [Memory.read_endConversion_ctrlMeas hmap, hm, h]) rfl

/-! ### A sample through the data registers (rules R18, R54) -/

theorem sampleOf_sampleBytes (o : AdcByteOrder) (v : Sample) :
    sampleOf o (sampleBytes v).1 (sampleBytes v).2.1 (sampleBytes v).2.2 = v := by
  cases o
  apply BitVec.eq_of_toNat_eq
  have hlow : (v.extractLsb' 0 4 ++ 0#4 : Byte).toNat = v.toNat % 2 ^ 4 * 2 ^ 4 := by
    rw [toNat_append_eq_add, BitVec.extractLsb'_toNat]
    rfl
  rw [sampleOf_toNat, sampleBytes, hlow]
  simp only [BitVec.extractLsb'_toNat, Nat.shiftRight_eq_div_pow]
  omega

/-- The third byte of a sample counts with its upper half. -/
theorem sampleOf_regBits (o : AdcByteOrder) (b0 b1 b2 : Byte) (a : Nat) :
    sampleOf o b0 b1 (regBits c a b2) = sampleOf o b0 b1 b2 := by
  cases o
  have hnibble : (regBits c a b2).extractLsb' 4 4 = b2.extractLsb' 4 4 := by
    unfold regBits
    split
    · revert b2; decide +kernel
    · rfl
  simp only [sampleOf, hnibble]

/-- What is written as a sample reads back as that sample. -/
theorem Memory.sampleOf_writeSample (o : AdcByteOrder) (m : Memory) {a : Nat} (v : Sample)
    (ha : a = c.dataAddr ∨ a = c.dataAddr + 3) (hw : ∀ i < 3, writableReg c (a + i) = true) :
    sampleOf o ((m.writeSample c a v).read c a) ((m.writeSample c a v).read c (a + 1))
      ((m.writeSample c a v).read c (a + 2)) = v := by
  have h0 : (m.writeSample c a v).read c a = (sampleBytes v).1 := by
    rw [Memory.writeSample, Memory.read_write_other _ _ (by omega), Memory.read_write_other _ _ (by omega),
      Memory.read_write_self (a := a) _ _ (hw 0 (by omega)), regBits_of_ne (by omega) (by omega)]
  have h1 : (m.writeSample c a v).read c (a + 1) = (sampleBytes v).2.1 := by
    rw [Memory.writeSample, Memory.read_write_other _ _ (by omega), Memory.read_write_self _ _ (hw 1 (by omega)),
      regBits_of_ne (by omega) (by omega)]
  rw [h0, h1, Memory.writeSample, Memory.read_write_self _ _ (hw 2 (by omega)), sampleOf_regBits,
    sampleOf_sampleBytes]

theorem data_ne_ctrlMeas (hmap : mapApart c = true) {i : Nat} (hi : i < 6) : c.dataAddr + i ≠ c.ctrlMeasAddr := by
  intro h
  obtain ⟨-, -, -, -, -, -, hctrl, -⟩ := mapApart_spec hmap
  simp [← h, dataReg] at hctrl
  omega

/-- The data registers hold the sample of the conversion that has ended. -/
theorem unpackAdc_endConversion (hmap : mapApart c = true) (o : AdcByteOrder) (m : Memory) (k : Conversion)
    {ds : Vector Byte 6} (hds : ∀ i (hi : i < 6), ds[i] = (Memory.endConversion c m k).read c (c.dataAddr + i)) :
    unpackAdc o ds = (k.press, k.temp) := by
  obtain ⟨-, -, hdata, -⟩ := mapApart_spec hmap
  have hread : ∀ i (hi : i < 6), ds[i] = Memory.read (Memory.writeSample (m.writeSample c c.dataAddr k.press) c
      (c.dataAddr + 3) k.temp) c (c.dataAddr + i) := fun i hi => by
    rw [hds i hi, Memory.endConversion, Memory.read_write_other _ _ (data_ne_ctrlMeas hmap hi)]
  have hpress : ∀ i (hi : i < 3), ds[i] = (m.writeSample c c.dataAddr k.press).read c (c.dataAddr + i) :=
    fun i hi => by rw [hread i (by omega), Memory.read_writeSample_other _ _ (by omega)]
  rw [unpackAdc, hpress 0 (by omega), hpress 1 (by omega), hpress 2 (by omega), hread 3 (by omega),
    hread 4 (by omega), hread 5 (by omega)]
  exact Prod.ext (Memory.sampleOf_writeSample o m k.press (.inl rfl) fun i hi => hdata i (by omega))
    (Memory.sampleOf_writeSample o _ k.temp (.inr rfl) fun i hi => by
      rw [Nat.add_assoc]; exact hdata (3 + i) (by omega))

end

/-! ### The events of a command (rules R72, R73) -/

section
variable {c : Params} {free : Prop} {x y : Sensor}

/-- `SetMode` and `Delay` only go by: conversions that are due may end. -/
theorem Observed.goes_by (hx : x.present = true) {e : Event} {es : List Event} (he : ∀ p : SensorPhase, p.after e = p)
    (hobs : Observed c free x (e :: es) y) : Observed c free (x.pass c x.phase) es y := by
  cases hobs with
  | cons n _ rest =>
    rcases Sensor.observe_present (c := c) hx e n with heq | ⟨rfl, -⟩
    · rwa [heq, he] at rest
    · exact absurd (he .selected) (by simp [SensorPhase.after])

/-- A read of placed registers receives their contents. -/
theorem Observed.read_placed (hx : x.present = true) (hfree : free) {ra : RegAddr} {h : Byte} {n : Nat}
    {bs : Vector Byte n} (hobs : Observed c free x (readEvents ra h bs.toList) y) {k : Nat} (hk : k < n)
    (hplaced : placedReg c (ra.toNat + k) = true) (hlt : ra.toNat + k < 128) :
    bs[k] = x.regs.read c (ra.toNat + k) := by
  obtain ⟨m, hm⟩ := (hobs.read hx).2 hfree k (by simpa using hk) hlt
  simpa [(special_of_placed hplaced).1] using hm

/-- After a read the registers that no conversion changes are as before. -/
theorem Observed.kept_by_read (hx : x.present = true) {ra : RegAddr} {h : Byte} {bs : List Byte}
    (hobs : Observed c free x (readEvents ra h bs) y) :
    y.present = true ∧ ∀ a, conversionReg c a = false → y.regs.read c a = x.regs.read c a := by
  obtain ⟨⟨w, b, hw, rfl⟩, -⟩ := hobs.read hx
  exact ⟨hw.present, fun a ha => hw.read_pass (.inr ha) _⟩

/-- After a write of a placed register that register holds the byte if it can be written, and the others that
no conversion changes are as before. -/
theorem Observed.kept_by_write (hx : x.present = true) {ra : RegAddr} {h v r : Byte}
    (hplaced : placedReg c ra.toNat = true) (hobs : Observed c free x (writeEvents ra h v r) y) :
    y.present = true ∧ (writableReg c ra.toNat = true → y.regs.read c ra.toNat = regBits c ra.toNat v) ∧
      ∀ a, conversionReg c a = false → a ≠ ra.toNat → y.regs.read c a = x.regs.read c a := by
  obtain ⟨w, n, hw, rfl⟩ := hobs.write hx
  refine ⟨by simp [hw.present], fun hwritable => ?_, fun a ha hne => ?_⟩
  · rw [Sensor.read_store (not_reset_of_placed hplaced), if_pos ⟨rfl, ((writableReg_iff _).mp hwritable).2⟩]
  · rw [Sensor.read_store (not_reset_of_placed hplaced), if_neg fun h => hne h.1]
    exact hw.read_pass (.inr ha) _

end

/-! ### `BEGIN` with the reference sensor (rule R80) -/

theorem and_sleep_mask : ∀ b : Byte, b.extractLsb' 0 2 = 0#2 → b &&& 0xFC#8 = b := by decide +kernel

/-- Each coefficient is its two bytes, by the byte order of the parameters (rules R6, R82). -/
theorem unpackAll_toNat {cs : Vector Byte 24} {o : CalByteOrder} (i : Fin 12) :
    (o = .lowByteFirst → ((unpackAll o cs)[i]).toNat = (cs[2 * i.val]).toNat + 256 * (cs[2 * i.val + 1]).toNat) ∧
    (o = .highByteFirst → ((unpackAll o cs)[i]).toNat = (cs[2 * i.val + 1]).toNat + 256 * (cs[2 * i.val]).toNat) := by
  constructor <;> rintro rfl <;>
    simp only [unpackAll, Fin.getElem_fin, Vector.getElem_ofFn, unpackCal, pairHalf, toNat_append_eq_add] <;> omega

/-- What the events of `BEGIN` after its `SetMode` make of the sensor, and what they receive. -/
theorem Observed.begin {c : Params} {free : Prop} {x y : Sensor} (hmap : mapApart c = true)
    (hsleep : c.ctrlIdleValue.extractLsb' 0 2 = 0#2) (hx : x.present = true) (hfree : free)
    {h1 h2 r2 h3 r3 h4 : Byte} {ids : List Byte} {cs : Vector Byte 24}
    (hobs : Observed c free x (readEvents (regOf c.chipIdReg) h1 ids ++
      writeEvents (regOf c.configReg) h2 c.configValue r2 ++
      writeEvents (regOf c.ctrlMeasReg) h3 c.ctrlIdleValue r3 ++ readEvents (regOf c.calibBase) h4 cs.toList) y) :
    (∀ k (hk : k < 24), cs[k] = x.regs.read c (c.calibAddr + k)) ∧
      y.regs.read c c.ctrlMeasAddr = c.ctrlIdleValue ∧ y.regs.read c c.configAddr = c.configValue := by
  obtain ⟨hctrl, hconfig, -, hbitsCtrl, hbitsConfig, hne, -, keptConfig, -, keptCalib⟩ := mapApart_spec hmap
  obtain ⟨x3, hobs, calib⟩ := hobs.of_append
  obtain ⟨x2, hobs, ctrl⟩ := hobs.of_append
  obtain ⟨x1, ids, config⟩ := hobs.of_append
  obtain ⟨hx1, kept1⟩ := ids.kept_by_read hx
  obtain ⟨hx2, holds2, kept2⟩ := config.kept_by_write hx1 (placed_config c)
  obtain ⟨hx3, holds3, kept3⟩ := ctrl.kept_by_write hx2 (placed_ctrlMeas c)
  have readCtrl : x3.regs.read c c.ctrlMeasAddr = c.ctrlIdleValue := (holds3 hctrl).trans (hbitsCtrl _)
  have readConfig : x3.regs.read c c.configAddr = c.configValue :=
    (kept3 _ keptConfig hne.symm).trans ((holds2 hconfig).trans (hbitsConfig _))
  refine ⟨fun k hk => ?_, ?_, ?_⟩
  · obtain ⟨hkept, hlt⟩ := keptCalib k hk
    have hro := readOnly_calib c hk
    calc cs[k] = x3.regs.read c (c.calibAddr + k) :=
          calib.read_placed hx3 hfree hk (placed_of_readOnly hro) hlt
      _ = x2.regs.read c (c.calibAddr + k) := kept3 _ hkept (ne_of_readOnly hro hctrl)
      _ = x1.regs.read c (c.calibAddr + k) := kept2 _ hkept (ne_of_readOnly hro hconfig)
      _ = x.regs.read c (c.calibAddr + k) := kept1 _ hkept
  · obtain ⟨⟨w, b, hw, rfl⟩, -⟩ := calib.read hx3
    have hread : w.regs.read c c.ctrlMeasAddr = c.ctrlIdleValue := by rw [hw.regs, readCtrl]
    rw [Sensor.read_pass_ctrlMeas hmap _ (by rw [hread, and_sleep_mask _ hsleep]), hread]
  · exact ((calib.kept_by_read hx3).2 _ keptConfig).trans readConfig

/-- After its `SetMode` the events of `BEGIN` start from a sensor whose registers are as before, but for those a
conversion changes. -/
theorem exists_observed_after_setMode {s : State} (hq : Quiet s) (hx : s.sensor.present = true) :
    ∃ x : Sensor, x.present = true ∧
      (∀ a, conversionReg s.cfg a = false → x.regs.read s.cfg a = s.sensor.regs.read s.cfg a) ∧
      ∀ {k : Nat} {u : State} {es : List Event}, RunsTo k { s with seq := .b0 } u →
        u.trace = s.trace ++ (.setMode 0#2 :: es) → Observed s.cfg (s.miso = []) x es u.sensor := by
  refine ⟨s.sensor.pass s.cfg s.sensor.phase, hx, fun a ha => Sensor.read_pass_unless (.inr ha) _,
    fun run htrace => ?_⟩
  have hobs := run.observed (free := s.miso = []) hq id htrace
  exact hobs.goes_by hx fun _ => rfl

/-- Settles O30: the id and the calibration registers are as before when they are read, and what is written to
`config` and `ctrl_meas` is not changed by the end of a conversion. -/
theorem beginLoadsReferenceSensor : Obligations.BeginLoadsReferenceSensor := by
  intro s frame hmap hsleep hidle hfree hq hx hmiso hid
  obtain ⟨hexec, h1, idByte, -, hrun⟩ := beginRunsToCompletion s frame hidle hfree hq
  obtain ⟨x, hx', kept, afterMode⟩ := exists_observed_after_setMode hq hx
  obtain ⟨-, -, -, -, -, -, -, -, keptId, keptCalib⟩ := mapApart_spec hmap
  split at hrun
  next hmatch =>
    obtain ⟨h2, r2, h3, r3, h4, cs, u, -, run, hu⟩ := hrun
    obtain ⟨hcalib, hctrl, hconfig⟩ := (afterMode run (by rw [hu])).begin hmap hsleep hx' hmiso
    refine ⟨_, u, hexec, run, by rw [hu, hidle], by rw [hu], by rw [hu]; rfl, ?_, hctrl, hconfig⟩
    intro i first second hfirst hsecond
    have hbyte : ∀ k (hk : k < 24), s.sensor.regs.read s.cfg (s.cfg.calibAddr + k) = cs[k] := fun k hk =>
      ((hcalib k hk).trans (kept _ (keptCalib k hk).1)).symm
    rw [hfirst.trans (hbyte _ (by omega)), hsecond.trans (hbyte (2 * i.val + 1) (by omega)),
      show u.cal = unpackAll s.cfg.calByteOrder cs by rw [hu]]
    exact unpackAll_toNat i
  next hdiffers =>
    obtain ⟨u, run, hu⟩ := hrun
    have hobs : Observed s.cfg (s.miso = []) x (readEvents (regOf s.cfg.chipIdReg) h1 [idByte]) u.sensor :=
      afterMode run (by rw [hu])
    have hread : idByte = x.regs.read s.cfg s.cfg.idAddr := Observed.read_placed (bs := #v[idByte]) (k := 0) hx' hmiso
      hobs Nat.one_pos (placed_of_readOnly (readOnly_id s.cfg)) (regOf s.cfg.chipIdReg).isLt
    exact absurd (hread.trans ((kept _ keptId).trans hid)) hdiffers

/-! ### `FREAD` with the reference sensor (rules R81, R141) -/

/-- What the events of `FREAD` make of the sensor: the write of `ctrl_meas` is stored, `Delay` goes by, and the
read receives the data registers, after which conversions may end. -/
theorem Observed.fread {c : Params} {free : Prop} {x y : Sensor} (hmap : mapApart c = true)
    (hx : x.present = true) (hfree : free) {h1 r1 h2 : Byte} {ds : Vector Byte 6}
    (hobs : Observed c free x (writeEvents (regOf c.ctrlMeasReg) h1 c.ctrlForcedValue r1 ++ [.delay] ++
      readEvents (regOf c.dataBase) h2 ds.toList) y) :
    ∃ (w x1 z : Sensor) (n b : Nat), InTransaction x (.written (regOf c.ctrlMeasReg) c.ctrlForcedValue) w ∧
      x1 = (w.pass c .off).store c (regOf c.ctrlMeasReg) c.ctrlForcedValue n ∧
      InTransaction (x1.pass c .off) (.reading b) z ∧ y = z.pass c .off ∧
      ∀ k (hk : k < 6), ds[k] = (x1.pass c .off).regs.read c (c.dataAddr + k) := by
  obtain ⟨-, -, hdata, -⟩ := mapApart_spec hmap
  obtain ⟨x2, hobs, data⟩ := hobs.of_append
  obtain ⟨x1, trigger, hdelay⟩ := hobs.of_append
  obtain ⟨w, n, hw, hx1⟩ := trigger.write hx
  have hpresent : x1.present = true := by simp [hx1, hw.present]
  have hphase : x1.phase = .off := by simp [hx1]
  cases hdelay.goes_by hpresent fun _ => rfl
  rw [hphase] at data
  have hpresent' : (x1.pass c .off).present = true := hpresent
  obtain ⟨⟨z, b, hz, hy⟩, -⟩ := data.read hpresent'
  exact ⟨w, x1, z, n, b, hw, hx1, hz, hy, fun k hk => data.read_placed hpresent' hfree hk (placed_data c hk)
    ((writableReg_iff _).mp (hdata k hk)).1⟩

/-- What a whole `FREAD` leaves, with what its events make of the sensor: the sample is unpacked from the bytes
received, and compensated by the coefficients held. -/
structure FreadResult (s u : State) : Prop where
  seq : u.seq = .idle
  statusOut : u.statusOut = s.statusOut
  sample : (u.adcP, u.adcT) = unpackAdc s.cfg.adcByteOrder u.dbuf
  tOut : u.tOut = BitVec.ofInt 32 (compT (calInt s 0) (calInt s 1) (calInt s 2) u.adcT.toNat).t
  pOut : u.pOut = BitVec.ofInt 32 (compP (calInt s 3) (calInt s 4) (calInt s 5) (calInt s 6) (calInt s 7)
    (calInt s 8) (calInt s 9) (calInt s 10) (calInt s 11)
    (compT (calInt s 0) (calInt s 1) (calInt s 2) u.adcT.toNat).tFine u.adcP.toNat)
  observed : ∃ h1 r1 h2, Observed s.cfg (s.miso = []) s.sensor
    (writeEvents (regOf s.cfg.ctrlMeasReg) h1 s.cfg.ctrlForcedValue r1 ++ [.delay] ++
      readEvents (regOf s.cfg.dataBase) h2 u.dbuf.toList) u.sensor

theorem exists_freadResult {s : State} (frame : Word) (hidle : s.seq = .idle) (hfree : BusFree s) (hq : Quiet s)
    (hvariant : s.cfg.pressVariant = .q24_8_int64) :
    ∃ t u : State, exec (.fread frame) s = .next t ∧ RunsTo 20 t u ∧ FreadResult s u := by
  obtain ⟨t, ht, hexec, h1, r1, h2, ds, aP, aT, r, u, -, hadc, hr, run, hcompP, -, hu⟩ :=
    freadRunsToCompletion s frame hidle hfree hq
  have hT : u.adcT = aT := by rw [hu]
  have hP : u.adcP = aP := by rw [hu]
  have hds : u.dbuf = ds := by rw [hu]
  have hqt : Quiet t := by rw [ht]; exact hq
  have hobs : Observed t.cfg (s.miso = []) t.sensor
      (writeEvents (regOf s.cfg.ctrlMeasReg) h1 s.cfg.ctrlForcedValue r1 ++ [.delay] ++
        readEvents (regOf s.cfg.dataBase) h2 ds.toList) u.sensor :=
    run.observed hqt (fun h => by rw [ht]; exact h) (by rw [hu, ht])
  rw [ht] at hobs
  exact ⟨t, u, hexec, run, by rw [hu, hidle], by rw [hu], by rw [hP, hT, hds, hadc], by rw [hT, ← hr, hu],
    by rw [hT, hP, ← hr]; exact hcompP hvariant, h1, r1, h2, by rw [hds]; exact hobs⟩

/-- Settles O31: the conversion triggered is due at `Delay` and was triggered last, so its sample is what the read
finds. -/
theorem freadCompensatesNewSample : Obligations.FreadCompensatesNewSample := by
  intro s frame rawP rawT aP aT more hmap hforced hvariant hidle hfree hq hx hmiso hsamples ⟨_, hlasts⟩ hP hT
  obtain ⟨t, u, hexec, run, result⟩ := exists_freadResult frame hidle hfree hq hvariant
  obtain ⟨h1, r1, h2, hobs⟩ := result.observed
  obtain ⟨w, x1, z, n, b, hw, hx1, hz, hend, hdata⟩ := hobs.fread hmap hx hmiso
  obtain ⟨hctrl, -, -, hbits, -⟩ := mapApart_spec hmap
  rw [Sensor.store_forced hmap _ rfl hforced] at hx1
  have hconversions : x1.conversions = (w.pass s.cfg .off).conversions ++ [{ left := 0, press := aP, temp := aT }] := by
    simp [hx1, Sensor.startConversion, Sensor.nextSample, hw.samples, hw.lasts, hsamples, hlasts, hP, hT,
      sampleOrSkipped]
  have hctrl1 : x1.regs.read s.cfg s.cfg.ctrlMeasAddr = s.cfg.ctrlForcedValue := by
    rw [hx1, Sensor.startConversion_regs, Memory.read_write_self _ _ hctrl, hbits]
  obtain ⟨m, hm, hregs⟩ := Sensor.pass_regs_last
    (fun m => m.read s.cfg s.cfg.ctrlMeasAddr &&& 0xFC#8 = s.cfg.ctrlForcedValue &&& 0xFC#8)
    (fun m k => Memory.endConversion_ctrlMeas_masked hmap m k) hconversions rfl (by rw [hctrl1])
  have hsample : (u.adcP, u.adcT) = (aP, aT) := result.sample.trans
    (unpackAdc_endConversion hmap _ m _ fun i hi => by rw [hdata i hi, hregs])
  obtain ⟨hadcP, hadcT⟩ := Prod.mk.inj hsample
  have hctrlZ : z.regs.read s.cfg s.cfg.ctrlMeasAddr = s.cfg.ctrlForcedValue &&& 0xFC#8 := by
    rw [hz.regs, hregs, Memory.read_endConversion_ctrlMeas hmap, hm]
  refine ⟨t, u, hexec, run, result.seq, hadcP, hadcT, hadcT ▸ result.tOut, hadcT ▸ hadcP ▸ result.pOut, ?_, ?_,
    fun a ha => ?_⟩
  · simp [hend, hz.samples, hx1, Sensor.startConversion, hw.samples, hsamples]
  · rw [hend, Sensor.read_pass_ctrlMeas hmap _ (by rw [hctrlZ, BitVec.and_assoc, BitVec.and_self]), hctrlZ]
  · have hne : a ≠ s.cfg.ctrlMeasAddr := by
      rintro rfl
      simp [conversionReg, hctrl] at ha
    calc u.sensor.regs.read s.cfg a = (x1.pass s.cfg .off).regs.read s.cfg a := by
          rw [hend]; exact hz.read_pass (.inr ha) _
      _ = x1.regs.read s.cfg a := Sensor.read_pass_unless (.inr ha) _
      _ = (w.pass s.cfg .off).regs.read s.cfg a := by
          rw [hx1, Sensor.startConversion_regs, Memory.read_write_other _ _ hne]
      _ = s.sensor.regs.read s.cfg a := hw.read_pass (.inr ha) _

/-- Settles O55: no conversion is due at `Delay`, so the read finds what the data registers held before. -/
theorem shortDelayGivesHeldSample : Obligations.ShortDelayGivesHeldSample := by
  intro s frame ds aP aT hmap hvariant hidle hfree hq hx hmiso hasleep ⟨k, _, hlasts⟩ hds hadc
  obtain ⟨t, u, hexec, run, result⟩ := exists_freadResult frame hidle hfree hq hvariant
  obtain ⟨h1, r1, h2, hobs⟩ := result.observed
  obtain ⟨w, x1, z, n, b, hw, hx1, -, -, hdata⟩ := hobs.fread hmap hx hmiso
  have hnone : ∀ q ∈ x1.conversions, q.left ≠ 0 := fun q hq => by
    rw [hx1] at hq
    rcases Sensor.store_conversions hq with hq | hq
    · simp [Sensor.pass, hw.asleep.mpr hasleep] at hq
    · simp [hq, hw.lasts, hlasts]
  have hheld : ∀ i (hi : i < 6), u.dbuf[i] = s.sensor.regs.read s.cfg (s.cfg.dataAddr + i) := fun i hi => by
    rw [hdata i hi, Sensor.pass_regs_none_due hnone, hx1, Sensor.read_store (not_reset_of_placed
      (placed_ctrlMeas s.cfg)), if_neg fun h => data_ne_ctrlMeas hmap hi h.1]
    exact hw.read_pass (.inl hasleep) _
  have hdbuf : u.dbuf = ds := by
    ext i hi
    simp [hds, hheld i hi]
  have hsample : (u.adcP, u.adcT) = (aP, aT) := by
    rw [result.sample, hdbuf, hadc]
  obtain ⟨hadcP, hadcT⟩ := Prod.mk.inj hsample
  exact ⟨t, u, hexec, run, result.seq, hdbuf, hadcP, hadcT, hadcT ▸ result.tOut, hadcT ▸ hadcP ▸ result.pOut,
    result.statusOut⟩

end Sys2Proof.Machine
end
